-- ==== Sys2Proof/Word.lean ====
section
/-! DEFINITION. The widths of the spec (R13, R70, R101, R120): byte, 16-bit word, 7-bit register address. -/

namespace Sys2Proof

/-- A byte is 8 bits (R13); so is the command byte of a frame (R101). -/
abbrev Byte := BitVec 8

/-- A word is 16 bits (R13): the width of a chip register and of the data part of a frame (R70). -/
abbrev Word := BitVec 16

/-- A register address is 7 bits, 0x00 to 0x7F (R70). -/
abbrev RegAddr := BitVec 7

end Sys2Proof
end

