-- ==== Sys2Proof/Config.lean ====
section
/-! DEFINITION. ModemParameters (R44), the configuration record `Cfg` of rule R7, its defaults, its
well-formedness (R8), and the values the spec leaves to the environment (R15 `draw_N()`, R46), as constants with no
body. -/

namespace Sys2Proof

/-- ModemParameters (R44). Every field is a natural number: "a caller may pass a field value wider than its declared
width", and it is cut, never refused (R197). -/
structure ModemParameters where
  /-- Hz, of no fixed width (R120). -/
  baudRate       : Nat
  /-- 2 bits. -/
  preambleType   : Nat
  /-- 3 bits. -/
  txMode         : Nat
  /-- 3 bits. -/
  rxMode         : Nat
  /-- 3 bits. -/
  rxBandwidth    : Nat
  /-- 1 bit; no rule consumes it (R199). -/
  syncLength     : Nat
  /-- 8 bits; no rule consumes it (R199). -/
  preambleLength : Nat
  /-- `sync[0]`, taken modulo 256 (R108). -/
  sync0          : Nat
  /-- `sync[1]`. -/
  sync1          : Nat
  /-- `sync[2]`. -/
  sync2          : Nat
  /-- `sync[3]`. -/
  sync3          : Nat
  deriving DecidableEq, Repr

/-- The fields of ModemParameters (R44) by name, for the parameter `CFG_EXTRA_WRITES`. -/
inductive ParamField where
  | baudRate
  | preambleType
  | txMode
  | rxMode
  | rxBandwidth
  | syncLength
  | preambleLength
  | sync0
  | sync1
  | sync2
  | sync3
  deriving DecidableEq, Repr

/-- A natural number computed from params, for the parameter `CFG_EXTRA_WRITES` (R200): the arithmetic is that of the
naturals, a difference below zero is 0 and a division by zero is 0, as in Lean. With `ifEqual` over the fields, any
function on a finite set of params can be written. -/
inductive ParamExpr where
  | lit (n : Nat)
  | field (f : ParamField)
  /-- The number of this write among its row's, from 0. -/
  | index
  | add (a b : ParamExpr)
  | sub (a b : ParamExpr)
  | mul (a b : ParamExpr)
  | div (a b : ParamExpr)
  | mod (a b : ParamExpr)
  | bitAnd (a b : ParamExpr)
  | bitOr (a b : ParamExpr)
  | bitXor (a b : ParamExpr)
  | shiftLeft (a b : ParamExpr)
  | shiftRight (a b : ParamExpr)
  /-- `yes` where a = b, else `no`. -/
  | ifEqual (a b yes no : ParamExpr)
  /-- `yes` where a < b, else `no`. -/
  | ifLess (a b yes no : ParamExpr)
  deriving DecidableEq, Repr

/-- A row of `CFG_EXTRA_WRITES(params)` (R200): `count` writes, the address cut to 7 bits and the value to 16. -/
structure ExtraWrite where
  count : ParamExpr
  addr  : ParamExpr
  value : ParamExpr
  deriving DecidableEq, Repr

/-- The parameter `CFG_EXTRA_WRITES : ModemParameters → list of (7-bit, 16-bit)` (R7, R200), as plain data (entry 5). -/
inductive ExtraWrites where
  /-- A function written out: the writes of the rows, row after row. -/
  | listed (rows : List ExtraWrite)
  /-- Any function at all: the k-th one with no body (`Config.extraWritesFn`). -/
  | free (k : Nat)
  deriving DecidableEq, Repr

/-- The configuration record of R7. `ADDR_BITS`, `DATA_BITS` and `CMD_BITS` are fixed by the source and are the widths
7, 16 and 8 of the types. -/
structure Cfg where
  /-- `READ_FLAG` (R102; the spec's decision D4, entry 18). -/
  readFlag        : Byte
  /-- `SEL_ASSERT_LEVEL`: electrical level of the select line when asserted (R31). -/
  selAssertLevel  : Bool
  /-- `T_UNIT` in microseconds; no rule reads it (R141, U21). -/
  tUnit           : Nat
  /-- `ADDR_GPIO_OUT` (R51). -/
  addrGpioOut     : RegAddr
  /-- `GPIO_SHADOW_INIT` (R39, R272). -/
  gpioShadowInit  : Word
  /-- `PIN_BIT`: the partial map from a pin index to a bit of the shadow (R171), as a table. -/
  pinBit          : List (Nat × Fin 16)
  /-- `ADDR_TONE_EN` (R52). -/
  addrToneEn      : RegAddr
  /-- `TONE_EN_VALUE` (R125). -/
  toneEnValue     : Word
  /-- `ADDR_TONE_CTRL` (R53). -/
  addrToneCtrl    : RegAddr
  /-- Numerator of the rational `K_TONE` (R110). -/
  kToneNum        : Nat
  /-- Denominator of the rational `K_TONE` (R110). -/
  kToneDen        : Nat
  /-- `ADDR_FSK_MODE` (R54). -/
  addrFskMode     : RegAddr
  /-- `MODE_BASE` (R109). -/
  modeBase        : Word
  /-- `TXMODE_LSB` (R109). -/
  txModeLsb       : Nat
  /-- `RXMODE_LSB` (R109). -/
  rxModeLsb       : Nat
  /-- `PRETYPE_LSB` (R109). -/
  preTypeLsb      : Nat
  /-- `RXBW_LSB` (R109). -/
  rxBwLsb         : Nat
  /-- `ADDR_FSK_SYNC0` (R55). -/
  addrFskSync0    : RegAddr
  /-- `ADDR_FSK_SYNC1` (R55). -/
  addrFskSync1    : RegAddr
  /-- `ADDR_FSK_CRC` (R56). -/
  addrFskCrc      : RegAddr
  /-- `CRC_OFF_VALUE` (R125). -/
  crcOffValue     : Word
  /-- `CFG_EXTRA_WRITES` (R200). -/
  extraWrites     : ExtraWrites
  /-- `ADDR_FSK_CTRL` (R57). -/
  addrFskCtrl     : RegAddr
  /-- `CTRL_TX_FIFO_CLEAR` (R57). -/
  ctrlTxFifoClear : Word
  /-- `CTRL_TX_ENABLE` (R57). -/
  ctrlTxEnable    : Word
  /-- `ADDR_FSK_LEN` (R58). -/
  addrFskLen      : RegAddr
  /-- `LEN_LO8_LSB` (R107). -/
  lenLo8Lsb       : Nat
  /-- `LEN_HI3_LSB` (R107). -/
  lenHi3Lsb       : Nat
  /-- `ADDR_FSK_FIFO` (R59). -/
  addrFskFifo     : RegAddr
  /-- `MAX_PAYLOAD` (R211). -/
  maxPayload      : Nat
  /-- `ADDR_INT_MASK` (R60). -/
  addrIntMask     : RegAddr
  /-- `INT_TX_FINISHED` (R60). -/
  intTxFinished   : Word
  /-- `ADDR_STATUS` (R61). -/
  addrStatus      : RegAddr
  /-- `STATUS_DONE_BIT` (R61). -/
  statusDoneBit   : Fin 16
  /-- `ADDR_STROBE` (R62). -/
  addrStrobe      : RegAddr
  /-- `STROBE_CLEAR_VALUE` (R124). -/
  strobeClearValue : Word
  /-- `ADDR_SOFT_RESET` (R63). -/
  addrSoftReset   : RegAddr
  /-- `SOFT_RESET_FLAG` (R63). -/
  softResetFlag   : Word
  /-- `POLL_LIMIT`: none is the block's own value, no limit; a finite value is executor fuel (R225). -/
  pollLimit       : Option Nat
  deriving DecidableEq, Repr

/-- The defaults of R7's table. PRESUMED (entry 4), unsafe for a claim at the defaults: all but `STATUS_DONE_BIT`,
`K_TONE`, `MAX_PAYLOAD` and `POLL_LIMIT` are the spec's general knowledge of the chip family. -/
def Cfg.default : Cfg where
  readFlag        := 0x80
  selAssertLevel  := false
  tUnit           := 1
  addrGpioOut     := 0x33
  gpioShadowInit  := 0x9000
  pinBit          := [(0, 6), (1, 5), (2, 4), (3, 3), (4, 2), (5, 1), (6, 0)]
  addrToneEn      := 0x70
  toneEnValue     := 0x00E0
  addrToneCtrl    := 0x72
  kToneNum        := 1032444
  kToneDen        := 100000
  addrFskMode     := 0x58
  modeBase        := 0x0000
  txModeLsb       := 13
  rxModeLsb       := 10
  preTypeLsb      := 4
  rxBwLsb         := 1
  addrFskSync0    := 0x5A
  addrFskSync1    := 0x5B
  addrFskCrc      := 0x5C
  crcOffValue     := 0x5625
  extraWrites     := .listed []
  addrFskCtrl     := 0x59
  ctrlTxFifoClear := 0x8000
  ctrlTxEnable    := 0x0800
  addrFskLen      := 0x5D
  lenLo8Lsb       := 8
  lenHi3Lsb       := 5
  addrFskFifo     := 0x5F
  maxPayload      := 256
  addrIntMask     := 0x3F
  intTxFinished   := 0x8000
  addrStatus      := 0x0C
  statusDoneBit   := 0
  addrStrobe      := 0x02
  strobeClearValue := 0x0000
  addrSoftReset   := 0x00
  softResetFlag   := 0x8000
  pollLimit       := none

/-- A mask with exactly one bit set (R8, R182). -/
def isOneHot {w : Nat} (m : BitVec w) : Bool :=
  (List.range w).any fun i => m == 1#w <<< i

/-- The 16-bit mask of a field of `width` bits at bit `lsb`. -/
def fieldMask (width lsb : Nat) : Word := BitVec.ofNat 16 ((2 ^ width - 1) * 2 ^ lsb)

/-- Do two masks share no bit. -/
def disjointMasks (a b : Word) : Bool := a &&& b == 0

/-- The two address sets that R8 asks to be pairwise distinct. -/
def Cfg.transmitAddrs (c : Cfg) : List RegAddr :=
  [c.addrFskCtrl, c.addrFskLen, c.addrFskFifo, c.addrIntMask, c.addrStatus, c.addrStrobe]

/-- The six registers configure writes (R190, R196). -/
def Cfg.configureAddrs (c : Cfg) : List RegAddr :=
  [c.addrToneEn, c.addrToneCtrl, c.addrFskMode, c.addrFskSync0, c.addrFskSync1, c.addrFskCrc]

/-- The masks of the four mode fields, in the order tx, rx, preamble, bandwidth (R54). -/
def Cfg.modeMasks (c : Cfg) : List Word :=
  [fieldMask 3 c.txModeLsb, fieldMask 3 c.rxModeLsb, fieldMask 2 c.preTypeLsb, fieldMask 3 c.rxBwLsb]

/-- `Cfg` is well formed (R8). An address is in 0..127 by its type; that `INT_TX_FINISHED` and `SOFT_RESET_FLAG` are
one-hot is the type R7's table gives them. -/
def Cfg.wf (c : Cfg) : Bool :=
  isOneHot c.readFlag && (c.readFlag &&& 0x7F == 0) &&
  decide c.transmitAddrs.Nodup && decide c.configureAddrs.Nodup &&
  isOneHot c.intTxFinished && isOneHot c.softResetFlag &&
  isOneHot c.ctrlTxFifoClear && isOneHot c.ctrlTxEnable && (c.ctrlTxFifoClear != c.ctrlTxEnable) &&
  decide (c.txModeLsb ≤ 13) && decide (c.rxModeLsb ≤ 13) && decide (c.preTypeLsb ≤ 14) && decide (c.rxBwLsb ≤ 13) &&
  decide (c.modeMasks.Pairwise fun a b => disjointMasks a b) &&
  c.modeMasks.all (disjointMasks c.modeBase) &&
  decide (c.lenLo8Lsb ≤ 8) && decide (c.lenHi3Lsb ≤ 13) &&
  disjointMasks (fieldMask 8 c.lenLo8Lsb) (fieldMask 3 c.lenHi3Lsb) &&
  decide (c.pinBit.map Prod.fst).Nodup && decide (c.pinBit.map Prod.snd).Nodup &&
  decide (0 < c.kToneNum) && decide (0 < c.kToneDen)

/-! Free values (R7 `CFG_EXTRA_WRITES`, R15 `draw_N()`, R46, U1 to U4). They have no body: no proof can see a value of them. -/

/-- `draw_1()` (R15, R35): the level an undriven data line shows at the n-th draw. Free value (entry 12), safe. -/
opaque Config.drawBit : Nat → Bool

/-- `draw_8()` (R15, R223): the residual byte at the n-th draw. Free value (entry 13), safe. -/
opaque Config.drawByte : Nat → Byte

/-- The oracle's 16-bit answer at the n-th draw (R88). Free value (entry 12), safe. -/
opaque Config.drawWord : Nat → Word

/-- The content a SimBank cell starts with when the test lists none: "an arbitrary function of the address" (R274).
Free value (entry 17), safe. -/
opaque Config.initialReg : RegAddr → Word

/-- `CFG_EXTRA_WRITES` where it is any function of params (R7, R200), the k-th such. Free value (entry 5), safe. -/
opaque Config.extraWritesFn : Nat → ModemParameters → List (RegAddr × Word)

end Sys2Proof
end

