-- ==== Sys2Proof/Syntax.lean ====
section
/-! DEFINITION. The syntax: one constructor of `Instr` per row of spec/opcode_table.json (R115, R118, R180), and the
bit cells that are the wire encoding (R104, R105). -/

namespace Sys2Proof

/-- The operations of BBSL (R115) and the two pass-through names of R180. A number that the spec refuses when it is too
wide (R76, R116, R246) is a natural number here; a number it types without saying more is a bit vector. -/
inductive Instr where
  /-- One write transaction (R149). -/
  | writeRegister (address value : Nat)
  /-- One read transaction (R150). -/
  | readRegister (address : Nat)
  /-- Register Access's "write register N" (R180). -/
  | regWrite (n value : Nat)
  /-- Register Access's "read register N" (R180). -/
  | regRead (n : Nat)
  /-- Select primitive (R142). -/
  | txnBegin
  /-- Byte-shift primitive (R143). -/
  | shiftOut8 (b : Byte)
  /-- Word-shift primitive (R144). -/
  | shiftOut16 (w : Word)
  /-- Word-sample primitive (R145). -/
  | shiftIn16
  /-- Deselect primitive (R146). -/
  | txnEnd
  /-- One pin of the shared output register (R170). -/
  | setOutputPin (pinIndex : Nat) (active : Bool)
  /-- The pulse pattern (R182). -/
  | pulseWrite (address base flag : Nat)
  /-- The diagnostic dump of the inclusive range lo to hi (R185). -/
  | readRegisterDiagnosticDump (lo hi : Nat)
  /-- The parameter encoder (R190). -/
  | configure (params : ModemParameters)
  /-- The transmit engine; `none` is an absent params reference (R210). -/
  | transmit (params : Option ModemParameters) (payload : List Byte)
  deriving DecidableEq, Repr

/-- One bit cell on the data line: driven by BBSL (R104) or by the chip (R105). -/
inductive WireCell where
  /-- An outgoing bit cell carrying this bit. -/
  | out (b : Bool)
  /-- An incoming bit cell whose sample was this bit. -/
  | inp (b : Bool)
  deriving DecidableEq, Repr

/-- A call as the host issues it: "selected by name" with its operands (R115, R118), run to its return in one step or
one pin event a step (R41, entry 1); or written as the bit cells the opcode table gives its row. The last form is the
model's own (entry 3): the spec has no command port. -/
inductive Call where
  /-- A call by name, run to its return in one step (to the next poll, for transmit). -/
  | named (i : Instr)
  /-- A call by name, run one pin event a step, with `SEQ` at every position of it (R41). -/
  | pinwise (i : Instr)
  /-- A call written as its bit cells, first cell first. -/
  | coded (cells : List WireCell)
  deriving DecidableEq, Repr

end Sys2Proof
end

