-- ==== Sys2Proof/WellFormed.lean ====
section
/-! DEFINITION. The typed domain of each operation (R76, R116, R246): what a call must meet to have a meaning. -/

namespace Sys2Proof

/-- An address operand is 7 bits (R70, R76). -/
def wfAddress (a : Nat) : Bool := decide (a < 128)

/-- A register value operand is 16 bits (R116 (2)). -/
def wfValue (v : Nat) : Bool := decide (v < 65536)

/-- The pin index is in the domain of `PIN_BIT` (R116 (6), R171). -/
def wfPin (c : Cfg) (p : Nat) : Bool := (c.pinBit.lookup p).isSome

/-- A pulse flag is a one-hot 16-bit mask (R116 (7), R182). -/
def wfFlag (f : Nat) : Bool := decide (f < 65536) && isOneHot (BitVec.ofNat 16 f)

/-- A dump range is a pair of addresses in order (R185). -/
def wfRange (lo hi : Nat) : Bool := wfAddress lo && wfAddress hi && decide (lo ≤ hi)

/-- The typed domain of an operation under a configuration. configure and transmit take every operand: a wide field is
cut (R197) and a bad payload is the silent no-op (R211). -/
def Instr.wellFormed (c : Cfg) : Instr → Bool
  | .writeRegister a v => wfAddress a && wfValue v
  | .readRegister a => wfAddress a
  | .regWrite n v => wfAddress n && wfValue v
  | .regRead n => wfAddress n
  | .txnBegin => true
  | .shiftOut8 _ => true
  | .shiftOut16 _ => true
  | .shiftIn16 => true
  | .txnEnd => true
  | .setOutputPin p _ => wfPin c p
  | .pulseWrite a b f => wfAddress a && wfValue b && wfFlag f
  | .readRegisterDiagnosticDump lo hi => wfRange lo hi
  | .configure _ => true
  | .transmit _ _ => true

end Sys2Proof
end

