-- ==== Sys2Proof/Decode.lean ====
section
/-! DEFINITION. Decoding the wire encoding (R100 to R105, R126) and, after it, the encoder. The decoder reads the bit
cells of one transaction or of one shift primitive; it is total and rejects by name. A host-level call has no bit
encoding (R115), so only the rows of the opcode table that have bits of their own are encoded. -/

namespace Sys2Proof

/-- Put one bit in at the low end, dropping the top one: `trunc(x << 1) | s` (R105). -/
def pushBit {w : Nat} (x : BitVec w) (s : Bool) : BitVec w := (x <<< 1) ||| (BitVec.ofBool s).setWidth w

/-- The bits of a value in wire order, most significant first (R72). -/
def bitsMsb {w : Nat} (v : BitVec w) : List Bool := (List.range w).map fun i => v.getMsbD i

/-- The value of bits in wire order (R72, R105). -/
def ofBitsMsb (w : Nat) (bits : List Bool) : BitVec w := bits.foldl pushBit 0

/-- Why a list of bit cells is no instruction. -/
inductive DecodeError where
  /-- No cell at all: txnBegin and txnEnd have "no frame bits", a host-level call no encoding. -/
  | noCells
  /-- An outgoing cell after an incoming one: no frame format is driven so (R100). -/
  | driversMixed
  /-- 24 outgoing cells with `rw` = 1: the data of a read frame is the chip's (R100). -/
  | readFrameDrivenByBlock
  /-- 8 outgoing and 16 incoming cells with `rw` = 0: the data of a write frame is BBSL's (R100). -/
  | writeFrameDrivenByChip
  /-- Some other number of cells: "no shorter or longer transaction exists" (R77, R117). -/
  | cellCount (outgoing incoming : Nat)
  deriving DecidableEq, Repr

/-- The bit of a cell, whoever drove it. -/
def cellBit : WireCell → Bool
  | .out b => b
  | .inp b => b

/-- Is the cell driven by BBSL. -/
def cellIsOut : WireCell → Bool
  | .out _ => true
  | .inp _ => false

/-- The outgoing cells' bits and then the incoming cells' bits, or none where the drivers are mixed otherwise. -/
def splitDrivers (cells : List WireCell) : Option (List Bool × List Bool) :=
  let outs := cells.takeWhile cellIsOut
  let ins := cells.dropWhile cellIsOut
  if ins.any cellIsOut then none else some (outs.map cellBit, ins.map cellBit)

/-- The read flag of a frame: bit 23, command byte bit 7 (R100, R102). -/
def frameRw (f : BitVec 24) : Bool := f.getLsbD 23

/-- The address of a frame: bits 22:16 (R100). -/
def frameAddr (f : BitVec 24) : RegAddr := f.extractLsb' 16 7

/-- The data of a frame: bits 15:0 (R100). -/
def frameData (f : BitVec 24) : Word := f.extractLsb' 0 16

/-- Decoding a frame (R126): "every 24-bit pattern decodes; there is no illegal frame". -/
def decodeFrame (f : BitVec 24) : Instr :=
  if frameRw f then .readRegister (frameAddr f).toNat
  else .writeRegister (frameAddr f).toNat (frameData f).toNat

/-- The instruction written as these bit cells (R100 to R105, R126). -/
def decode (cells : List WireCell) : Except DecodeError Instr :=
  match splitDrivers cells with
  | none => .error .driversMixed
  | some (outs, ins) =>
    let f := ofBitsMsb 24 (outs ++ ins)
    match outs.length, ins.length with
    | 0, 0 => .error .noCells
    | 8, 0 => .ok (.shiftOut8 (ofBitsMsb 8 outs))
    | 16, 0 => .ok (.shiftOut16 (ofBitsMsb 16 outs))
    | 0, 16 => .ok .shiftIn16
    | 24, 0 => if frameRw f then .error .readFrameDrivenByBlock else .ok (decodeFrame f)
    | 8, 16 => if frameRw f then .ok (decodeFrame f) else .error .writeFrameDrivenByChip
    | m, n => .error (.cellCount m n)

/-- The cells of an opcode-table word of `nbits` bits, the highest bit first (R11, R72). In a 24-bit word bit 23 says who
drives the last 16 cells (R100); every other word is BBSL's. -/
def cellsOfWord (nbits w : Nat) : List WireCell :=
  let bits := bitsMsb (BitVec.ofNat nbits w)
  if nbits = 24 ∧ bits.head? = some true then (bits.take 8).map .out ++ (bits.drop 8).map .inp
  else bits.map .out

/-- The instruction the decoder reads from an opcode-table word. A frame names writeRegister or readRegister whoever
issued it (R126); regWrite and regRead "are the same two operations" (R115), and setOutputPin's row has "no encoding of
its own" (entry 3). -/
def decodeTableWord (nbits w : Nat) : Option Instr := (decode (cellsOfWord nbits w)).toOption

/-- The command byte of a write (R101): the address, "write flag clear". -/
def writeCommand (a : RegAddr) : Byte := a.setWidth 8

/-- The command byte of a read (R101): `addr | READ_FLAG`. -/
def readCommand (flag : Byte) (a : RegAddr) : Byte := a.setWidth 8 ||| flag

/-- The write frame `W24` (R100). -/
def writeFrame (a : RegAddr) (v : Word) : BitVec 24 := writeCommand a ++ v

/-- The outgoing cells of a value (R104). -/
def outCells {w : Nat} (v : BitVec w) : List WireCell := (bitsMsb v).map .out

/-- The incoming cells whose samples make up a value (R105). -/
def inCells {w : Nat} (v : BitVec w) : List WireCell := (bitsMsb v).map .inp

/-- The cells of a read frame `R8_16` (R100) that the chip answered with `v`. -/
def readCells (a : RegAddr) (v : Word) : List WireCell := outCells (readCommand 0x80 a) ++ inCells v

/-- The encoder, from the table's encodings: the cells of an instruction that has an encoding of its own. The incoming
cells of a read are the chip's; the encoder writes zeros there, as for operand words the table gives no bits. -/
def encode : Instr → Option (List WireCell)
  | .writeRegister a v => some (outCells (writeFrame (BitVec.ofNat 7 a) (BitVec.ofNat 16 v)))
  | .readRegister a => some (readCells (BitVec.ofNat 7 a) 0)
  | .regWrite n v => some (outCells (writeFrame (BitVec.ofNat 7 n) (BitVec.ofNat 16 v)))
  | .regRead n => some (readCells (BitVec.ofNat 7 n) 0)
  | .shiftOut8 b => some (outCells b)
  | .shiftOut16 w => some (outCells w)
  | .shiftIn16 => some (inCells (0 : Word))
  | .txnBegin => none
  | .txnEnd => none
  | .setOutputPin _ _ => none
  | .pulseWrite _ _ _ => none
  | .readRegisterDiagnosticDump _ _ => none
  | .configure _ => none
  | .transmit _ _ => none

/-- The operation a name stands for: regWrite is writeRegister, regRead is readRegister (R180). -/
def Instr.underlying : Instr → Instr
  | .regWrite n v => .writeRegister n v
  | .regRead n => .readRegister n
  | .writeRegister a v => .writeRegister a v
  | .readRegister a => .readRegister a
  | .txnBegin => .txnBegin
  | .shiftOut8 b => .shiftOut8 b
  | .shiftOut16 w => .shiftOut16 w
  | .shiftIn16 => .shiftIn16
  | .txnEnd => .txnEnd
  | .setOutputPin p x => .setOutputPin p x
  | .pulseWrite a b f => .pulseWrite a b f
  | .readRegisterDiagnosticDump lo hi => .readRegisterDiagnosticDump lo hi
  | .configure ps => .configure ps
  | .transmit ps d => .transmit ps d

/-- The instruction of a call: by name as it stands, by cells through the decoder. -/
def Call.instr : Call → Except DecodeError Instr
  | .named i => .ok i
  | .pinwise i => .ok i
  | .coded cells => decode cells

end Sys2Proof
end

