-- ==== Sys2Proof/Machine/State.lean ====
section
/-! DEFINITION. The machine's state as plain data (R30 to R66, R86 to R90), the reasons a step can stop, and the state
after reset (R66, R270 to R274). -/

namespace Sys2Proof.Machine

/-- The logical value of the select line (R31). -/
inductive Select where
  | asserted
  | deasserted
  deriving DecidableEq, Repr

/-- The direction of the data line (R34). -/
inductive Dir where
  | out
  | inp
  deriving DecidableEq, Repr

/-- The pin-level alphabet (R140). -/
inductive PinEvent where
  /-- `SEL <- x`. -/
  | sel (x : Select)
  /-- `CLK <- b`. -/
  | clk (b : Bool)
  /-- `DAT_OUT <- b`. -/
  | datOut (b : Bool)
  /-- `DAT_DIR <- d`. -/
  | datDir (d : Dir)
  /-- `s <- sample()`, with the level it saw. -/
  | sample (s : Bool)
  /-- `wait(n)`. -/
  | wait (n : Nat)
  deriving DecidableEq, Repr

/-- A bus event (R9, R22): one completed transaction. -/
inductive BusEvent where
  /-- `W(a, v)`. -/
  | write (a : RegAddr) (v : Word)
  /-- `R(a) → v`. -/
  | read (a : RegAddr) (v : Word)
  deriving DecidableEq, Repr

/-- What the host is given (R257). -/
inductive Output where
  /-- The value a read operation returned. -/
  | value (v : Word)
  /-- An (address, value) pair the dump emitted (R185). -/
  | pair (a : RegAddr) (v : Word)
  deriving DecidableEq, Repr

/-- One step of an operation's pseudocode: a transaction with its operands, or a primitive (R142 to R150). -/
inductive Piece where
  /-- A write transaction, `MemWrite(a, 2, v)`. -/
  | write (a : RegAddr) (v : Word)
  /-- A read transaction, `MemRead(a, 2)`. -/
  | read (a : RegAddr)
  /-- `txnBegin()`. -/
  | select
  /-- `shiftOut8(b)`. -/
  | sendByte (b : Byte)
  /-- `shiftOut16(w)`. -/
  | sendWord (w : Word)
  /-- `shiftIn16()`. -/
  | sampleWord
  /-- `txnEnd()`. -/
  | deselect
  deriving DecidableEq, Repr

/-- A position in an operation (R41): the step of its pseudocode and the pin event within it that runs next. -/
structure Position where
  /-- The number of the step in the operation's fixed order, from 0. -/
  step  : Nat
  /-- The step itself. -/
  piece : Piece
  /-- The number of the step's pin event that runs next, from 0. -/
  event : Nat
  /-- The polls of transmit step 7 that are over (R218, R225). -/
  polls : Nat
  deriving DecidableEq, Repr

/-- `SEQ` (R41): idle, or an operation and a position in it. A step that runs a whole call shows the positions between
its steps only (entry 1): `inTransaction` and `transmitPoll`. -/
inductive Seq where
  /-- No operation runs. -/
  | idle
  /-- Inside a transaction that is driven primitive by primitive (R148, entry 6). -/
  | inTransaction
  /-- (transmit, step 7), with the number of polls made so far (R218, R225). -/
  | transmitPoll (polls : Nat)
  /-- (operation, position) of an operation that runs one pin event a step. -/
  | running (op : Instr) (pos : Position)
  deriving DecidableEq, Repr

/-- The chip's register space (R50, R70): the cells whose content is known, as (address, word) pairs with addresses
strictly rising. The smallest unit is a 16-bit cell (R70, R74). An unlisted address holds no known value (R274,
entry 17): a read of it is answered by the oracle (R88). -/
abbrev Memory := List (Nat × Word)

/-- Which peer is on the bus (R86 to R90, entry 11). -/
inductive PeerKind where
  /-- What BBSL may rely on and no more: plain registers (R87), an oracle for everything else (R88). -/
  | chip
  /-- The reference bank SimBank (R86) behind the reference front end SimSlave (R90). -/
  | simBank
  /-- No device: nothing answers, nothing is stored (R89). -/
  | absent
  deriving DecidableEq, Repr

/-- The peer: its register bank and the pin-level front end of R90. -/
structure Peer where
  kind     : PeerKind
  /-- `REG` (R50). -/
  cells    : Memory
  /-- The bit counter n: rising clock edges seen since the select. -/
  edges    : Nat
  /-- The 8-bit command register. -/
  cmd      : Byte
  /-- The data register of a write. -/
  data     : Word
  /-- The output register of a read. -/
  outReg   : Word
  /-- The bit of the output register that drives the data line; none while the peer does not drive it. -/
  driveBit : Option Nat
  deriving DecidableEq, Repr

/-- The environment's choices (R46): scripted ones first, then the opaque draws of Config, numbered by `draws`
(entry 12). The model's own; a statement holds for every value of it. -/
structure Env where
  /-- Scripted answers to reads, by address. -/
  answers   : List (RegAddr × Word)
  /-- Levels an undriven data line will show (R35). -/
  samples   : List Bool
  /-- Residual bytes of odd fills (R223). -/
  residuals : List Byte
  /-- How many opaque draws have been made. -/
  draws     : Nat
  deriving DecidableEq, Repr

structure State where
  /-- The configuration of this machine (R7); no step changes it. -/
  cfg        : Cfg
  /-- `SEL` (R31). -/
  sel        : Select
  /-- `CLK` (R32). -/
  clk        : Bool
  /-- `DAT_OUT` (R33). -/
  datOut     : Bool
  /-- `DAT_DIR` (R34). -/
  datDir     : Dir
  /-- `SRO` (R36). -/
  sro        : Word
  /-- `BITCNT` (R37). -/
  bitcnt     : BitVec 5
  /-- `ACC` (R38). -/
  acc        : Word
  /-- `GPIO_SHADOW` (R39). -/
  gpioShadow : Word
  /-- `TEMPLATE` (R40). -/
  template   : Word
  /-- `SAVED_MASK` (R40). -/
  savedMask  : Word
  /-- `SEQ` (R41). -/
  seq        : Seq
  /-- The slave device on the bus (R3, R86 to R90). -/
  peer       : Peer
  /-- The environment's choices (R46). -/
  env        : Env
  /-- The host's calls still to be issued, the next one first (R46). -/
  calls      : List Call
  /-- The pin events so far, newest first (R140). -/
  pins       : List PinEvent
  /-- The bus events so far, newest first (R9). -/
  bus        : List BusEvent
  /-- What the host was given so far, newest first (R257). -/
  output     : List Output
  deriving DecidableEq, Repr

/-- Why the machine stops. BBSL itself has no fault (R240). -/
inductive Fault where
  /-- Raised by the poll of transmit step 7 when a finite `POLL_LIMIT` is used up: the executor's report that transmit
  did not terminate within the limit (R225). Safe: nothing is claimed of a state after it. -/
  | pollLimitReached
  deriving DecidableEq, Repr

/-- Why a call has no meaning. -/
inductive Refusal where
  /-- Raised by exec for an instruction that has no meaning yet. Safe. -/
  | notModelled (mnemonic : String)
  /-- Raised by every operation with an address operand above 0x7F (R76, R246). Safe. -/
  | addressOutOfRange
  /-- Raised by writeRegister, regWrite and pulseWrite for a value or base above 0xFFFF (R116 (2)). Safe. -/
  | valueOutOfRange
  /-- Raised by setOutputPin for a pin index with no entry in `PIN_BIT` (R116 (6), R246). Safe. -/
  | pinOutsideTable
  /-- Raised by pulseWrite for a flag that is not one-hot (R116 (7), R246). Safe. -/
  | flagNotOneHot
  /-- Raised by the dump for a range with lo > hi (R185, R246). Safe. -/
  | emptyRange
  /-- Raised by every operation issued while another one runs (R246, R258 (a)). Safe. -/
  | busy
  /-- Raised by step for a coded call whose cells the decoder rejects (R126, entry 3). Safe. -/
  | undecodable (e : DecodeError)
  deriving DecidableEq, Repr

/-- The peer before the first transaction: the contract chip with unknown content (R274; entries 11, 14, 17). -/
def Peer.reset : Peer where
  kind     := .chip
  cells    := []
  edges    := 0
  cmd      := 0
  data     := 0
  outReg   := 0
  driveBit := none

/-- An environment that scripts nothing (entry 12). -/
def Env.reset : Env where
  answers   := []
  samples   := []
  residuals := []
  draws     := 0

/-- The state right after reset of a machine with configuration `c` (R66, R270 to R273). The registers the spec leaves
unspecified are zero (DESIGN CHOICE, entry 14, unsafe). -/
def State.resetOf (c : Cfg) : State where
  cfg        := c
  sel        := .deasserted
  clk        := true
  datOut     := true
  datDir     := .out
  sro        := 0
  bitcnt     := 0
  acc        := 0
  gpioShadow := c.gpioShadowInit
  template   := 0
  savedMask  := 0
  seq        := .idle
  peer       := Peer.reset
  env        := Env.reset
  calls      := []
  pins       := []
  bus        := []
  output     := []

/-- The state right after reset, at the defaults of R7 (entry 4). -/
def State.reset : State := State.resetOf Cfg.default

end Sys2Proof.Machine
end

