-- ==== Sys2Proof/Machine/Flags.lean ====
section
/-! DEFINITION. BBSL has no flags, condition codes or predicates in its state (R42). This file holds the conditions that
are tested: the busy test, the transmit preconditions, the polled status bit, and the chip-side flag tests. -/

namespace Sys2Proof.Machine

/-- The preconditions of transmit (R211): params present, 1 ≤ n ≤ `MAX_PAYLOAD`. No field of params is inspected. -/
def transmitAccepted (c : Cfg) (p : Option ModemParameters) (payload : List Byte) : Bool :=
  p.isSome && decide (0 < payload.length) && decide (payload.length ≤ c.maxPayload)

/-- The polled condition: `s[STATUS_DONE_BIT] = 1`; every other bit is ignored (R218). -/
def statusDone (c : Cfg) (v : Word) : Bool := v.getLsbD c.statusDoneBit.val

/-- The operations the host may issue (R115, R256); the other five are primitives (R148). -/
def isHostLevel : Instr → Bool
  | .writeRegister _ _ => true
  | .readRegister _ => true
  | .regWrite _ _ => true
  | .regRead _ => true
  | .txnBegin => false
  | .shiftOut8 _ => false
  | .shiftOut16 _ => false
  | .shiftIn16 => false
  | .txnEnd => false
  | .setOutputPin _ _ => true
  | .pulseWrite _ _ _ => true
  | .readRegisterDiagnosticDump _ _ => true
  | .configure _ => true
  | .transmit _ _ => true

/-- May a host-level operation start: only when `SEQ` is idle (R246, R256). -/
def hostMayCall (q : Seq) : Bool := decide (q = .idle)

/-- May a primitive run: unless an operation is under way (R246; entry 6). -/
def primitiveMayRun : Seq → Bool
  | .idle => true
  | .inTransaction => true
  | .transmitPoll _ => false
  | .running _ _ => false

/-- Is the poll fuel used up: never for the block's own `POLL_LIMIT` = ∞ (R225). -/
def pollFuelUsed (c : Cfg) (polls : Nat) : Bool :=
  match c.pollLimit with
  | none => false
  | some k => decide (k ≤ polls)

/-- Is a command byte a read: its `READ_FLAG` bit is 1 (R90, R102). -/
def isReadCommand (c : Cfg) (cmd : Byte) : Bool := cmd &&& c.readFlag != 0

/-- The address of a command byte: bits 6:0 (R90, R101). -/
def commandAddr (cmd : Byte) : RegAddr := cmd.setWidth 7

end Sys2Proof.Machine
end

