-- ==== Sys2Proof/Machine/Operands.lean ====
section
/-! DEFINITION. The operand forms of the host-level operations and the words they assemble (R106 to R114). The one
addressing mode is direct: the operand is the register address itself (R186). -/

namespace Sys2Proof.Machine

/-- An address operand (R76). -/
def addressOperand (a : Nat) : Except Refusal RegAddr :=
  if wfAddress a then .ok (BitVec.ofNat 7 a) else .error .addressOutOfRange

/-- A 16-bit value operand (R116 (2)). -/
def valueOperand (v : Nat) : Except Refusal Word :=
  if wfValue v then .ok (BitVec.ofNat 16 v) else .error .valueOutOfRange

/-- A pin operand: its bit of the shadow (R171). -/
def pinOperand (c : Cfg) (p : Nat) : Except Refusal (Fin 16) :=
  match c.pinBit.lookup p with
  | some b => .ok b
  | none => .error .pinOutsideTable

/-- A one-hot flag operand (R182). -/
def flagOperand (f : Nat) : Except Refusal Word :=
  if wfFlag f then .ok (BitVec.ofNat 16 f) else .error .flagNotOneHot

/-- The addresses of the inclusive range lo to hi, ascending. -/
def addressRange (lo hi : Nat) : List RegAddr := (List.range' lo (hi + 1 - lo)).map (BitVec.ofNat 7)

/-- A dump range operand: its addresses, ascending (R185). -/
def rangeOperand (lo hi : Nat) : Except Refusal (List RegAddr) :=
  if !(wfAddress lo && wfAddress hi) then .error .addressOutOfRange
  else if lo ≤ hi then .ok (addressRange lo hi) else .error .emptyRange

/-- Two bytes of a word, the earlier one high (R73). -/
def packBytes (hi lo : Byte) : Word := hi ++ lo

/-- A natural number cut to `width` bits and placed at bit `lsb` (R109, R121). -/
def placeField (width lsb n : Nat) : Word := (BitVec.ofNat 16 (n % 2 ^ width)) <<< lsb

/-- The length word `LENW(L)` (R107). -/
def lenWord (c : Cfg) (len : Nat) : Word :=
  placeField 8 c.lenLo8Lsb len ||| placeField 3 c.lenHi3Lsb (len / 256)

/-- The first sync word `SYNC0W` (R108). -/
def sync0Word (p : ModemParameters) : Word := packBytes (BitVec.ofNat 8 p.sync0) (BitVec.ofNat 8 p.sync1)

/-- The second sync word `SYNC1W` (R108). -/
def sync1Word (p : ModemParameters) : Word := packBytes (BitVec.ofNat 8 p.sync2) (BitVec.ofNat 8 p.sync3)

/-- The mode word `MODEW(params)` (R109). -/
def modeWord (c : Cfg) (p : ModemParameters) : Word :=
  c.modeBase ||| placeField 3 c.txModeLsb p.txMode ||| placeField 3 c.rxModeLsb p.rxMode |||
    placeField 2 c.preTypeLsb p.preambleType ||| placeField 3 c.rxBwLsb p.rxBandwidth

/-- `round(n / d)` for naturals, ties up: `floor(n / d + 1/2)` (R17). -/
def roundDiv (n d : Nat) : Nat := (2 * n + d) / (2 * d)

/-- The tone word `TONEW(baudRate)` (R110): the exact product, rounded, cut to 16 bits. -/
def toneWord (c : Cfg) (baud : Nat) : Word := BitVec.ofNat 16 (roundDiv (baud * c.kToneNum) c.kToneDen)

/-- The shadow mask `PINMASK` of a bit (R111). -/
def pinMask (b : Fin 16) : Word := 1#16 <<< b.val

/-- The shadow with one pin set or cleared (R111, R170). -/
def shadowWith (shadow : Word) (b : Fin 16) (active : Bool) : Word :=
  if active then shadow ||| pinMask b else shadow &&& ~~~(pinMask b)

/-- The value of a ModemParameters field named in the configuration (R200). -/
def paramValue (p : ModemParameters) : ParamField → Nat
  | .baudRate => p.baudRate
  | .preambleType => p.preambleType
  | .txMode => p.txMode
  | .rxMode => p.rxMode
  | .rxBandwidth => p.rxBandwidth
  | .syncLength => p.syncLength
  | .preambleLength => p.preambleLength
  | .sync0 => p.sync0
  | .sync1 => p.sync1
  | .sync2 => p.sync2
  | .sync3 => p.sync3

/-- The value of an expression over params, for the `idx`-th write of its row (R200). -/
def evalParam (p : ModemParameters) (idx : Nat) : ParamExpr → Nat
  | .lit n => n
  | .field f => paramValue p f
  | .index => idx
  | .add a b => evalParam p idx a + evalParam p idx b
  | .sub a b => evalParam p idx a - evalParam p idx b
  | .mul a b => evalParam p idx a * evalParam p idx b
  | .div a b => evalParam p idx a / evalParam p idx b
  | .mod a b => evalParam p idx a % evalParam p idx b
  | .bitAnd a b => evalParam p idx a &&& evalParam p idx b
  | .bitOr a b => evalParam p idx a ||| evalParam p idx b
  | .bitXor a b => evalParam p idx a ^^^ evalParam p idx b
  | .shiftLeft a b => evalParam p idx a <<< evalParam p idx b
  | .shiftRight a b => evalParam p idx a >>> evalParam p idx b
  | .ifEqual a b yes no => if evalParam p idx a = evalParam p idx b then evalParam p idx yes else evalParam p idx no
  | .ifLess a b yes no => if evalParam p idx a < evalParam p idx b then evalParam p idx yes else evalParam p idx no

/-- The writes of one row (R200). -/
def extraRow (p : ModemParameters) (x : ExtraWrite) : List (RegAddr × Word) :=
  (List.range (evalParam p 0 x.count)).map fun idx =>
    (BitVec.ofNat 7 (evalParam p idx x.addr), BitVec.ofNat 16 (evalParam p idx x.value))

/-- `CFG_EXTRA_WRITES(params)` (R200). -/
def extraWrites (c : Cfg) (p : ModemParameters) : List (RegAddr × Word) :=
  match c.extraWrites with
  | .listed rows => rows.flatMap (extraRow p)
  | .free k => Config.extraWritesFn k p

/-- The writes of configure, in order (R190, R196): the six registers, then `CFG_EXTRA_WRITES(params)`. -/
def configureWrites (c : Cfg) (p : ModemParameters) : List (RegAddr × Word) :=
  [(c.addrToneEn, c.toneEnValue),
   (c.addrToneCtrl, toneWord c p.baudRate),
   (c.addrFskMode, modeWord c p),
   (c.addrFskSync0, sync0Word p),
   (c.addrFskSync1, sync1Word p),
   (c.addrFskCrc, c.crcOffValue)] ++
  extraWrites c p

end Sys2Proof.Machine
end

