-- ==== Sys2Proof/Machine/Ops.lean ====
section
/-! DEFINITION. The named operations of the machine: the register bank, the environment's draws, the peer at the pins
(R86 to R90), the line latches (R140, R141), the five primitives (R142 to R146), and the two transactions every
operation is made of (R71, R149, R150). BBSL takes no exception and returns from none (R240, R250, R251). -/

namespace Sys2Proof.Machine

/-! ### The register bank (R50, R70) -/

/-- The known content of an address, if any. -/
def Memory.read (m : Memory) (a : Nat) : Option Word := List.lookup a m

/-- A write "replaces the full 16-bit value" (R77); the list stays sorted, one entry an address. -/
def Memory.write : Memory → Nat → Word → Memory
  | [], a, v => [(a, v)]
  | (b, w) :: rest, a, v =>
    if a < b then (a, v) :: (b, w) :: rest
    else if a = b then (a, v) :: rest
    else (b, w) :: Memory.write rest a v

/-- The canonical form: addresses strictly rising, all below 128 (R70). An unlisted address reads as no value, so no
entry can equal it. -/
def Memory.wf (m : Memory) : Bool :=
  decide (m.Pairwise fun x y => x.1 < y.1) && m.all fun x => decide (x.1 < 128)

/-! ### The environment's draws (R15, R46) -/

/-- `draw_1()` (R35): the next scripted level, else an opaque one. -/
def drawBit (e : Env) : Bool × Env :=
  match e.samples with
  | b :: rest => (b, { e with samples := rest })
  | [] => (Config.drawBit e.draws, { e with draws := e.draws + 1 })

/-- `draw_8()` (R223): the next scripted residual, else an opaque one. -/
def drawByte (e : Env) : Byte × Env :=
  match e.residuals with
  | b :: rest => (b, { e with residuals := rest })
  | [] => (Config.drawByte e.draws, { e with draws := e.draws + 1 })

/-- The first scripted answer for an address, and the script without it. -/
def takeAnswer (a : RegAddr) : List (RegAddr × Word) → Option (Word × List (RegAddr × Word))
  | [] => none
  | (b, v) :: rest =>
    if b = a then some (v, rest)
    else match takeAnswer a rest with
      | some (u, rest') => some (u, (b, v) :: rest')
      | none => none

/-- The oracle's answer to a read (R88): the scripted one, else any 16-bit value. -/
def oracleWord (a : RegAddr) (e : Env) : Word × Env :=
  match takeAnswer a e.answers with
  | some (v, rest) => (v, { e with answers := rest })
  | none => (Config.drawWord e.draws, { e with draws := e.draws + 1 })

/-! ### The peer's register bank under the contract (R79, R80, R86 to R88) -/

/-- The roles that are not plain (R87). -/
def notPlainAddrs (c : Cfg) : List RegAddr :=
  [c.addrGpioOut, c.addrFskFifo, c.addrStatus, c.addrStrobe, c.addrSoftReset]

/-- The roles that are plain in every bit (R87). -/
def plainAddrs (c : Cfg) : List RegAddr :=
  [c.addrToneEn, c.addrToneCtrl, c.addrFskMode, c.addrFskSync0, c.addrFskSync1, c.addrFskCrc, c.addrFskLen, c.addrIntMask]

/-- Is the address one the block gives a role (R51 to R63). -/
def hasRole (c : Cfg) (a : RegAddr) : Bool :=
  (notPlainAddrs c).contains a || a == c.addrFskCtrl || (plainAddrs c).contains a

/-- The bits of a register that read back as last written (R87): all of a plain role, all but the clear flag of
FSK_CTRL, none of the rest. -/
def plainMask (c : Cfg) (a : RegAddr) : Word :=
  if (notPlainAddrs c).contains a then 0
  else if a == c.addrFskCtrl then ~~~c.ctrlTxFifoClear
  else if (plainAddrs c).contains a then BitVec.allOnes 16
  else 0

/-- Does a write reset the chip: it sets the soft-reset flag (R184; entry 10). -/
def isSoftReset (c : Cfg) (a : RegAddr) (v : Word) : Bool :=
  a == c.addrSoftReset && v &&& c.softResetFlag != 0

/-- A write reaches the bank (R78). Contract chip: a soft reset makes every register unknown (R184), and so does a write
to a register no rule describes, which "a model must not assume ... without effect" (R64; entry 10). -/
def commitWrite (c : Cfg) (k : PeerKind) (m : Memory) (a : RegAddr) (v : Word) : Memory :=
  match k with
  | .simBank => m.write a.toNat v
  | .chip =>
    if isSoftReset c a v || !hasRole c a then []
    else if plainMask c a = 0 then m
    else m.write a.toNat v
  | .absent => m

/-- The bank after a read: the contract chip may be changed by a read of an address without a role (R80; entry 10). -/
def commitRead (c : Cfg) (k : PeerKind) (m : Memory) (a : RegAddr) : Memory :=
  match k with
  | .chip => if hasRole c a then m else []
  | .simBank => m
  | .absent => m

/-- The word a read of `a` is answered with. SimBank: the scripted answer, else the cell (R86). Contract chip: the bits
known to read back, the oracle's for the rest (R87, R88). With no peer the word is never asked for: every sample is a
draw (R35, R89). -/
def answerRead (c : Cfg) (k : PeerKind) (m : Memory) (a : RegAddr) (e : Env) : Word × Env :=
  match k with
  | .simBank =>
    match takeAnswer a e.answers with
    | some (v, rest) => (v, { e with answers := rest })
    | none => ((m.read a.toNat).getD (Config.initialReg a), e)
  | .chip =>
    let (o, e') := oracleWord a e
    match m.read a.toNat with
    | some v => ((v &&& plainMask c a) ||| (o &&& ~~~(plainMask c a)), e')
    | none => (o, e')
  | .absent => (0, e)

/-! ### The peer at the pins (R90, entry 8) -/

/-- `SEL` becomes asserted: the bit counter is cleared (R90). -/
def Peer.select (p : Peer) : Peer := { p with edges := 0 }

/-- `SEL` becomes deasserted: the peer stops driving the line (R90). No source says what the chip does with a frame of
other than 24 pulses (R127), so the contract chip may have changed any register then (entry 30). -/
def Peer.deselect (p : Peer) : Peer :=
  { p with driveBit := none, cells := if p.kind = .chip ∧ p.edges ≠ 24 then [] else p.cells }

/-- A rising edge after the 24th (R127, entry 30): nothing at SimSlave, which has its frame (R90); no register of the
contract chip is known after it. -/
def Peer.extraEdge (p : Peer) : Peer := { p with cells := if p.kind = .chip then [] else p.cells }

/-- The level the peer drives the data line with, if it drives it (R90). -/
def Peer.level (p : Peer) : Option Bool :=
  match p.kind with
  | .absent => none
  | .chip => p.driveBit.map p.outReg.getLsbD
  | .simBank => p.driveBit.map p.outReg.getLsbD

/-- The level the peer takes at a rising edge: BBSL's, or a draw if BBSL does not drive the line (entry 33). -/
def lineBit (line : Option Bool) (e : Env) : Bool × Env :=
  match line with
  | some b => (b, e)
  | none => drawBit e

/-- The command byte is complete (R90): a read loads the output register. -/
def Peer.commandDone (c : Cfg) (p : Peer) (e : Env) : Peer × Env :=
  if isReadCommand c p.cmd then
    let (v, e') := answerRead c p.kind p.cells (commandAddr p.cmd) e
    ({ p with outReg := v, cells := commitRead c p.kind p.cells (commandAddr p.cmd) }, e')
  else (p, e)

/-- A rising edge of the command byte (R90): the level is shifted into the command register. -/
def Peer.riseCommand (c : Cfg) (line : Option Bool) (p : Peer) (e : Env) : Peer × Env :=
  let (b, e') := lineBit line e
  let q := { p with cmd := pushBit p.cmd b, edges := p.edges + 1 }
  if q.edges = 8 then q.commandDone c e' else (q, e')

/-- A rising edge of the data of a write (R90): the level is shifted into the data register, and the 24th edge writes
the register (R78). -/
def Peer.riseData (c : Cfg) (line : Option Bool) (p : Peer) (e : Env) : Peer × Env :=
  let (b, e') := lineBit line e
  let q := { p with data := pushBit p.data b, edges := p.edges + 1 }
  if q.edges = 24 then ({ q with cells := commitWrite c q.kind q.cells (commandAddr q.cmd) q.data }, e') else (q, e')

/-- A rising edge of `CLK` while selected (R90). `line` is the level BBSL drives, if it drives the line. -/
def Peer.rise (c : Cfg) (line : Option Bool) (p : Peer) (e : Env) : Peer × Env :=
  if p.kind = .absent then (p, e)
  else if p.edges < 8 then p.riseCommand c line e
  else if p.edges < 24 then
    if isReadCommand c p.cmd then ({ p with edges := p.edges + 1 }, e) else p.riseData c line e
  else (p.extraEdge, e)

/-- A falling edge of `CLK` while selected (R90): from the eighth on, a read drives the next bit, bit 15 first. After
bit 0 the level stays (entry 30). -/
def Peer.fall (c : Cfg) (p : Peer) : Peer :=
  if p.kind = .absent then p
  else if 8 ≤ p.edges ∧ isReadCommand c p.cmd then
    match p.driveBit with
    | none => { p with driveBit := some 15 }
    | some (k + 1) => { p with driveBit := some k }
    | some 0 => p
  else p

/-! ### Pin events (R140, R141) -/

/-- `wait(n)`: a pin event that changes no state (R141). -/
def waitUnits (n : Nat) (s : State) : State := { s with pins := .wait n :: s.pins }

/-- `SEL <- x`. -/
def driveSel (x : Select) (s : State) : State :=
  { s with
    sel := x
    pins := .sel x :: s.pins
    peer := match s.sel, x with
      | .deasserted, .asserted => s.peer.select
      | .asserted, .deasserted => s.peer.deselect
      | .asserted, .asserted => s.peer
      | .deasserted, .deasserted => s.peer }

/-- The level BBSL puts on the data line: its latch, while the direction is out (R33, R34). -/
def blockLine (s : State) : Option Bool :=
  match s.datDir with
  | .out => some s.datOut
  | .inp => none

/-- What an edge of `CLK` to level `b` does at the peer; edges while deselected are ignored (R90). -/
def clockEdge (b : Bool) (s : State) : Peer × Env :=
  match s.sel, s.clk, b with
  | .asserted, false, true => s.peer.rise s.cfg (blockLine s) s.env
  | .asserted, true, false => (s.peer.fall s.cfg, s.env)
  | .asserted, true, true => (s.peer, s.env)
  | .asserted, false, false => (s.peer, s.env)
  | .deasserted, _, _ => (s.peer, s.env)

/-- `CLK <- b`. -/
def driveClk (b : Bool) (s : State) : State :=
  { s with clk := b, pins := .clk b :: s.pins, peer := (clockEdge b s).1, env := (clockEdge b s).2 }

/-- `DAT_OUT <- b`. -/
def driveDatOut (b : Bool) (s : State) : State := { s with datOut := b, pins := .datOut b :: s.pins }

/-- `DAT_DIR <- d`. -/
def driveDatDir (d : Dir) (s : State) : State := { s with datDir := d, pins := .datDir d :: s.pins }

/-- `sample()` (R35): the level the peer drives, or a draw. -/
def sampledBit (s : State) : Bool × Env :=
  match s.peer.level with
  | some b => (b, s.env)
  | none => drawBit s.env

/-- A pulse of the clock: high one unit, low one unit (R104, R105). -/
def clockPulse (s : State) : State := waitUnits 1 (driveClk false (waitUnits 1 (driveClk true s)))

/-! ### The primitives (R142 to R146) -/

/-- `txnBegin()` (R142). -/
def txnBegin (s : State) : State := driveSel .asserted (waitUnits 1 (driveClk false s))

/-- `SRO <- trunc_16(SRO << 1)` (R143). -/
def shiftSro (s : State) : State := { s with sro := s.sro <<< 1 }

/-- `BITCNT <- BITCNT - 1` (R143, R145). -/
def countCell (s : State) : State := { s with bitcnt := s.bitcnt - 1 }

/-- One outgoing bit cell and the shift after it (R104, R143). -/
def outCell (s : State) : State :=
  countCell (shiftSro (clockPulse (waitUnits 1 (driveDatOut s.sro.msb s))))

/-- `while BITCNT > 0`, an outgoing cell each (R143, R144), for a `BITCNT` of `k`. -/
def outLoop : Nat → State → State
  | 0, s => s
  | k + 1, s => outLoop k (outCell s)

/-- `SRO` and `BITCNT` are loaded at the start of a shift (R36, R37). -/
def loadSro (w : Word) (k : BitVec 5) (s : State) : State := { s with sro := w, bitcnt := k }

/-- `ACC <- 0; BITCNT <- 16` (R145). -/
def clearAcc (s : State) : State := { s with acc := 0, bitcnt := 16 }

/-- `shiftOut8(b)` (R143): only the top half of `SRO` is loaded. -/
def shiftOut8 (b : Byte) (s : State) : State :=
  outLoop 8 (loadSro (b ++ s.sro.setWidth 8) 8 s)

/-- `shiftOut16(w)` (R144). -/
def shiftOut16 (w : Word) (s : State) : State := outLoop 16 (loadSro w 16 s)

/-- `s <- sample(); ACC <- trunc_16(ACC << 1) | s` (R105). -/
def takeSample (s : State) : State :=
  { s with
    env := (sampledBit s).2
    pins := .sample (sampledBit s).1 :: s.pins
    acc := pushBit s.acc (sampledBit s).1 }

/-- One incoming bit cell: the sample comes before the pulse (R105). -/
def inCell (s : State) : State :=
  countCell (clockPulse (takeSample s))

/-- `while BITCNT > 0`, an incoming cell each (R145), for a `BITCNT` of `k`. -/
def inLoop : Nat → State → State
  | 0, s => s
  | k + 1, s => inLoop k (inCell s)

/-- `shiftIn16()` (R145); the result is `ACC`. -/
def shiftIn16 (s : State) : State :=
  driveDatDir .out (inLoop 16 (clearAcc (driveDatDir .inp s)))

/-- `txnEnd()` (R146). -/
def txnEnd (s : State) : State := driveDatOut true (driveClk true (waitUnits 1 (driveSel .deasserted s)))

/-! ### The two transactions (R71, R149, R150) -/

/-- A completed transaction is one bus event (R9). -/
def logBus (e : BusEvent) (s : State) : State := { s with bus := e :: s.bus }

/-- A completed read: the value is the accumulator's (R150). -/
def logRead (a : RegAddr) (s : State) : State := logBus (.read a s.acc) s

/-- `MemWrite(a, 2, v)` (R15, R149). -/
def memWrite (a : RegAddr) (v : Word) (s : State) : State :=
  logBus (.write a v) (txnEnd (shiftOut16 v (shiftOut8 (writeCommand a) (txnBegin s))))

/-- `MemRead(a, 2)` (R15, R150); the value is in `ACC` and in the bus event. -/
def memRead (a : RegAddr) (s : State) : State :=
  logRead a (txnEnd (shiftIn16 (shiftOut8 (readCommand s.cfg.readFlag a) (txnBegin s))))

/-- Writes one after another, in list order (R83). -/
def memWrites : List (RegAddr × Word) → State → State
  | [], s => s
  | (a, v) :: rest, s => memWrites rest (memWrite a v s)

/-- Give the host something (R257). -/
def giveHost (o : Output) (s : State) : State := { s with output := o :: s.output }

/-- `SEQ <- q` (R41). -/
def moveSeq (q : Seq) (s : State) : State := { s with seq := q }

/-! ### How a call starts (R246, R256) -/

/-- A host-level operation runs only while `SEQ` is idle (R246). -/
def hostCall (s : State) (run : State → Host.Outcome State Fault Refusal) : Host.Outcome State Fault Refusal :=
  if hostMayCall s.seq then run s else .refused .busy

/-- A primitive runs unless an operation is under way; the operation that ends a transaction leaves `SEQ` idle, the others
leave it inside the transaction (R41, R148, entry 6). -/
def primitiveCall (s : State) (after : Seq) (run : State → State) : Host.Outcome State Fault Refusal :=
  if primitiveMayRun s.seq then .next (moveSeq after (run s)) else .refused .busy

/-- Use an operand, or refuse the call by the operand's reason. -/
def withOperand {α : Type} (x : Except Refusal α) (run : α → Host.Outcome State Fault Refusal) :
    Host.Outcome State Fault Refusal :=
  match x with
  | .ok a => run a
  | .error r => .refused r

end Sys2Proof.Machine
end

