-- ==== Sys2Proof/Machine/Encoder.lean ====
section
/-! DEFINITION. The meaning of configure (spec/43_fsk_encoder.md). -/

namespace Sys2Proof.Machine

/-- `configure(params)` (R190): the writes of `configureWrites`, in order. No field value makes it refuse (R197). -/
def execConfigure (params : ModemParameters) (s : State) : Host.Outcome State Fault Refusal :=
  hostCall s fun s0 => .next (memWrites (configureWrites s0.cfg params) s0)

end Sys2Proof.Machine
end

