-- ==== Sys2Proof/Machine/GpioShadow.lean ====
section
/-! DEFINITION. The meaning of setOutputPin (spec/41_gpio_shadow.md). -/

namespace Sys2Proof.Machine

/-- The shadow update of setOutputPin (R170). -/
def updateShadow (b : Fin 16) (active : Bool) (s : State) : State :=
  { s with gpioShadow := shadowWith s.gpioShadow b active }

/-- The one write of setOutputPin: the whole shadow (R170). -/
def writeShadow (s : State) : State := memWrite s.cfg.addrGpioOut s.gpioShadow s

/-- `setOutputPin(pinIndex, active)` (R170): the shadow is updated, then written whole. -/
def execSetOutputPin (pinIndex : Nat) (active : Bool) (s : State) : Host.Outcome State Fault Refusal :=
  hostCall s fun s0 =>
    withOperand (pinOperand s0.cfg pinIndex) fun b =>
      .next (writeShadow (updateShadow b active s0))

end Sys2Proof.Machine
end

