-- ==== Sys2Proof/Machine/RegisterAccess.lean ====
section
/-! DEFINITION. The meanings of Register Access (spec/42_register_access.md): the pass-through names, the pulse pattern
and the diagnostic dump. -/

namespace Sys2Proof.Machine

/-- `regWrite(N, value)` (R180): one call is one write transaction. -/
def execRegWrite (n value : Nat) (s : State) : Host.Outcome State Fault Refusal :=
  hostCall s fun s0 =>
    withOperand (addressOperand n) fun a =>
      withOperand (valueOperand value) fun v => .next (memWrite a v s0)

/-- `regRead(N)` (R180): one call is one read transaction. -/
def execRegRead (n : Nat) (s : State) : Host.Outcome State Fault Refusal :=
  hostCall s fun s0 =>
    withOperand (addressOperand n) fun a => .next (giveHost (.value (memRead a s0).acc) (memRead a s0))

/-- `pulseWrite(address, base, flag)` (R182): the flag set, then the flag cleared, nothing between. -/
def execPulseWrite (address base flag : Nat) (s : State) : Host.Outcome State Fault Refusal :=
  hostCall s fun s0 =>
    withOperand (addressOperand address) fun a =>
      withOperand (valueOperand base) fun v =>
        withOperand (flagOperand flag) fun f => .next (memWrites [(a, v ||| f), (a, v &&& ~~~f)] s0)

/-- One read of the dump and its emitted pair (R185). -/
def dumpOne (a : RegAddr) (s : State) : State := giveHost (.pair a (memRead a s).acc) (memRead a s)

/-- The reads of a dump, in list order (R185). -/
def dumpAll : List RegAddr → State → State
  | [], s => s
  | a :: rest, s => dumpAll rest (dumpOne a s)

/-- `readRegisterDiagnosticDump(lo, hi)` (R185). -/
def execReadRegisterDiagnosticDump (lo hi : Nat) (s : State) : Host.Outcome State Fault Refusal :=
  hostCall s fun s0 => withOperand (rangeOperand lo hi) fun as => .next (dumpAll as s0)

end Sys2Proof.Machine
end

