-- ==== Sys2Proof/Machine/SerialLink.lean ====
section
/-! DEFINITION. The meanings of the Serial Link's operations (spec/40_serial_link.md): the five primitives, exposed for
tests of the waveform (R148, entry 6), and the two transactions. -/

namespace Sys2Proof.Machine

/-- `txnBegin()` (R142). -/
def execTxnBegin (s : State) : Host.Outcome State Fault Refusal := primitiveCall s .inTransaction txnBegin

/-- `shiftOut8(b)` (R143). -/
def execShiftOut8 (b : Byte) (s : State) : Host.Outcome State Fault Refusal :=
  primitiveCall s .inTransaction (shiftOut8 b)

/-- `shiftOut16(w)` (R144). -/
def execShiftOut16 (w : Word) (s : State) : Host.Outcome State Fault Refusal :=
  primitiveCall s .inTransaction (shiftOut16 w)

/-- `shiftIn16()` (R145), which returns `ACC`. -/
def execShiftIn16 (s : State) : Host.Outcome State Fault Refusal :=
  primitiveCall s .inTransaction fun s0 => giveHost (.value (shiftIn16 s0).acc) (shiftIn16 s0)

/-- `txnEnd()` (R146). -/
def execTxnEnd (s : State) : Host.Outcome State Fault Refusal := primitiveCall s .idle txnEnd

/-- `writeRegister(address, value)` (R149). -/
def execWriteRegister (address value : Nat) (s : State) : Host.Outcome State Fault Refusal :=
  hostCall s fun s0 =>
    withOperand (addressOperand address) fun a =>
      withOperand (valueOperand value) fun v => .next (memWrite a v s0)

/-- `readRegister(address)` (R150), which returns the accumulated value. -/
def execReadRegister (address : Nat) (s : State) : Host.Outcome State Fault Refusal :=
  hostCall s fun s0 =>
    withOperand (addressOperand address) fun a => .next (giveHost (.value (memRead a s0).acc) (memRead a s0))

end Sys2Proof.Machine
end

