-- ==== Sys2Proof/Machine/Transmit.lean ====
section
/-! DEFINITION. The meaning of transmit (spec/44_fsk_transmit.md): steps 1 to 6 and the first poll are one step of the
machine, every later poll is a step of its own (entry 1), and step 8 belongs to the poll that sees the status bit. -/

namespace Sys2Proof.Machine

/-- The value just read becomes `TEMPLATE` (R212). -/
def keepTemplate (s : State) : State := { s with template := s.acc }

/-- The value just read becomes `SAVED_MASK` (R216). -/
def keepMask (s : State) : State := { s with savedMask := s.acc }

/-- Step 1 (R212): read the template. -/
def readTemplate (s : State) : State := keepTemplate (memRead s.cfg.addrFskCtrl s)

/-- Step 2 (R213): the template with the clear flag, then the template itself, unmasked. -/
def clearFifo (s : State) : State :=
  memWrites [(s.cfg.addrFskCtrl, s.template ||| s.cfg.ctrlTxFifoClear), (s.cfg.addrFskCtrl, s.template)] s

/-- Step 3 (R214): the length word. -/
def writeLength (n : Nat) (s : State) : State := memWrite s.cfg.addrFskLen (lenWord s.cfg n) s

/-- The residual byte has been drawn (R223). -/
def useResidual (s : State) : State := { s with env := (drawByte s.env).2 }

/-- Step 4 (R215, R106): two bytes a word, the earlier one high; the low byte of an odd payload's last word is a draw
(R223, entry 13). -/
def fillFifo : List Byte → State → State
  | [], s => s
  | [hi], s => memWrite s.cfg.addrFskFifo (packBytes hi (drawByte s.env).1) (useResidual s)
  | hi :: lo :: rest, s => fillFifo rest (memWrite s.cfg.addrFskFifo (packBytes hi lo) s)

/-- Step 5 (R216): read and remember the mask, then enable the transmit-finished source alone (R113). -/
def narrowMask (s : State) : State :=
  memWrite s.cfg.addrIntMask s.cfg.intTxFinished (keepMask (memRead s.cfg.addrIntMask s))

/-- Step 6 (R217): one write that turns transmission on. -/
def enableTransmit (s : State) : State := memWrite s.cfg.addrFskCtrl (s.template ||| s.cfg.ctrlTxEnable) s

/-- Step 8 (R219): clear the strobe, restore the template, return. -/
def finishTransmit (s : State) : State :=
  moveSeq .idle (memWrites [(s.cfg.addrStrobe, s.cfg.strobeClearValue), (s.cfg.addrFskCtrl, s.template)] s)

/-- After a poll (R218): if the answer in `ACC` has the status bit, step 8; else step 7 again, one more poll made. -/
def afterPoll (polls : Nat) (s : State) : State :=
  if statusDone s.cfg s.acc then finishTransmit s else moveSeq (.transmitPoll (polls + 1)) s

/-- One poll of step 7 (R218), `polls` made before it: done, or step 7 again. With a finite `POLL_LIMIT` used up the
executor stops here (R225). -/
def pollStatus (polls : Nat) (s : State) : Host.Outcome State Fault Refusal :=
  if pollFuelUsed s.cfg polls then .fault .pollLimitReached
  else .next (afterPoll polls (memRead s.cfg.addrStatus s))

/-- Steps 1 to 6 (R221). -/
def startTransmit (payload : List Byte) (s : State) : State :=
  enableTransmit (narrowMask (fillFifo payload (writeLength payload.length (clearFifo (readTemplate s)))))

/-- `transmit(params, payload)` (R210, R221): nothing at all if the preconditions fail (R211). -/
def execTransmit (params : Option ModemParameters) (payload : List Byte) (s : State) :
    Host.Outcome State Fault Refusal :=
  hostCall s fun s0 =>
    if transmitAccepted s0.cfg params payload then pollStatus 0 (startTransmit payload s0) else .next s0

end Sys2Proof.Machine
end

