-- ==== Sys2Proof/Machine/Dispatch.lean ====
section
/-! DEFINITION. One arm per constructor of Instr: the meaning of the instruction. -/

namespace Sys2Proof.Machine

def exec (i : Instr) (s : State) : Host.Outcome State Fault Refusal :=
  match i with
  | .writeRegister a v => Sys2Proof.Machine.execWriteRegister a v s
  | .readRegister a => Sys2Proof.Machine.execReadRegister a s
  | .regWrite n v => Sys2Proof.Machine.execRegWrite n v s
  | .regRead n => Sys2Proof.Machine.execRegRead n s
  | .txnBegin => Sys2Proof.Machine.execTxnBegin s
  | .shiftOut8 b => Sys2Proof.Machine.execShiftOut8 b s
  | .shiftOut16 w => Sys2Proof.Machine.execShiftOut16 w s
  | .shiftIn16 => Sys2Proof.Machine.execShiftIn16 s
  | .txnEnd => Sys2Proof.Machine.execTxnEnd s
  | .setOutputPin p x => Sys2Proof.Machine.execSetOutputPin p x s
  | .pulseWrite a b f => Sys2Proof.Machine.execPulseWrite a b f s
  | .readRegisterDiagnosticDump lo hi => Sys2Proof.Machine.execReadRegisterDiagnosticDump lo hi s
  | .configure ps => Sys2Proof.Machine.execConfigure ps s
  | .transmit ps payload => Sys2Proof.Machine.execTransmit ps payload s

end Sys2Proof.Machine
end

