-- ==== Sys2Proof/Machine/Sequencer.lean ====
section
/-! DEFINITION. `SEQ` at every position of an operation (R41): the operations as lists of transactions and primitives,
these as lists of pin events (R140, R142 to R150), and the step that runs one pin event. -/

namespace Sys2Proof.Machine

/-! ### The pin events of a transaction and of a primitive

Each entry is one pin event, with what happens to the datapath before the next one. -/

/-- The pin events of txnBegin (R142). -/
def selectActs : List (State → State) := [driveClk false, waitUnits 1, driveSel .asserted]

/-- The pin events of an outgoing bit cell (R104); the shift of `SRO` and the count follow the last one (R143). -/
def outCellActs : List (State → State) :=
  [fun s => driveDatOut s.sro.msb s, waitUnits 1, driveClk true, waitUnits 1, driveClk false,
   fun s => countCell (shiftSro (waitUnits 1 s))]

/-- The same pin events, with `load` done before the first. -/
def withLoad (load : State → State) : List (State → State) → List (State → State)
  | [] => []
  | f :: rest => (fun s => f (load s)) :: rest

/-- The pin events of shiftOut8 (R143). -/
def sendByteActs (b : Byte) : List (State → State) :=
  withLoad (fun s => loadSro (b ++ s.sro.setWidth 8) 8 s) (List.replicate 8 outCellActs).flatten

/-- The pin events of shiftOut16 (R144). -/
def sendWordActs (w : Word) : List (State → State) :=
  withLoad (loadSro w 16) (List.replicate 16 outCellActs).flatten

/-- The pin events of an incoming bit cell (R105). -/
def inCellActs : List (State → State) :=
  [takeSample, driveClk true, waitUnits 1, driveClk false, fun s => countCell (waitUnits 1 s)]

/-- The pin events of shiftIn16 (R145). -/
def sampleWordActs : List (State → State) :=
  (fun s => clearAcc (driveDatDir .inp s)) :: (List.replicate 16 inCellActs).flatten ++ [driveDatDir .out]

/-- The pin events of txnEnd (R146). -/
def deselectActs : List (State → State) :=
  [driveSel .deasserted, waitUnits 1, driveClk true, driveDatOut true]

/-- The pin events of a step of an operation's pseudocode: 151 of a write, 137 of a read (R149, R150). -/
def pieceActs (c : Cfg) : Piece → List (State → State)
  | .write a v => selectActs ++ sendByteActs (writeCommand a) ++ sendWordActs v ++ deselectActs
  | .read a => selectActs ++ sendByteActs (readCommand c.readFlag a) ++ sampleWordActs ++ deselectActs
  | .select => selectActs
  | .sendByte b => sendByteActs b
  | .sendWord w => sendWordActs w
  | .sampleWord => sampleWordActs
  | .deselect => deselectActs

/-- Pin events one after another. -/
def runActs (acts : List (State → State)) (s : State) : State := acts.foldl (fun t f => f t) s

/-- What the last pin event completes: a transaction is one bus event (R9). -/
def completePiece : Piece → State → State
  | .write a v, s => logBus (.write a v) s
  | .read a, s => logRead a s
  | .select, s => s
  | .sendByte _, s => s
  | .sendWord _, s => s
  | .sampleWord, s => s
  | .deselect, s => s

/-! ### The steps of an operation -/

/-- A step of an operation: what it sends, and what it does to BBSL's state before and after that. -/
structure OpStep where
  /-- The transaction or primitive, with operands from the state the step finds. -/
  piece  : State → Piece
  /-- Before its first pin event. -/
  before : State → State
  /-- After its last pin event, and after its bus event. -/
  after  : State → State

/-- A step that is a transaction or a primitive and nothing else. -/
def OpStep.plain (p : Piece) : OpStep := ⟨fun _ => p, id, id⟩

/-- A read whose value the host is given, in the form `f` (R257). -/
def OpStep.answer (p : Piece) (f : Word → Output) : OpStep := ⟨fun _ => p, id, fun s => giveHost (f s.acc) s⟩

/-- Writes in list order. -/
def plainWrites (ws : List (RegAddr × Word)) : List OpStep := ws.map fun w => .plain (.write w.1 w.2)

/-- Transmit step 4 (R215): the words of the payload, the low byte of an odd payload's last one a draw (R223). -/
def fillSteps (c : Cfg) : List Byte → List OpStep
  | [] => []
  | [hi] => [⟨fun s => .write c.addrFskFifo (packBytes hi (drawByte s.env).1), useResidual, id⟩]
  | hi :: lo :: rest => .plain (.write c.addrFskFifo (packBytes hi lo)) :: fillSteps c rest

/-- Transmit steps 1 to 6 (R212 to R217). -/
def startSteps (c : Cfg) (payload : List Byte) : List OpStep :=
  [⟨fun _ => .read c.addrFskCtrl, id, keepTemplate⟩,
   ⟨fun s => .write c.addrFskCtrl (s.template ||| c.ctrlTxFifoClear), id, id⟩,
   ⟨fun s => .write c.addrFskCtrl s.template, id, id⟩,
   .plain (.write c.addrFskLen (lenWord c payload.length))] ++
  fillSteps c payload ++
  [⟨fun _ => .read c.addrIntMask, id, keepMask⟩,
   .plain (.write c.addrIntMask c.intTxFinished),
   ⟨fun s => .write c.addrFskCtrl (s.template ||| c.ctrlTxEnable), id, id⟩]

/-- The number of transmit's step 7: seven transactions and one for each FIFO word come before it (R222). -/
def pollStep (payload : List Byte) : Nat := 7 + (payload.length + 1) / 2

/-- Transmit steps 1 to 8, one poll in step 7 (R212 to R219). -/
def transmitSteps (c : Cfg) (payload : List Byte) : List OpStep :=
  startSteps c payload ++
  [.plain (.read c.addrStatus),
   .plain (.write c.addrStrobe c.strobeClearValue),
   ⟨fun s => .write c.addrFskCtrl s.template, id, id⟩]

/-- The fixed step order of an operation (R41); none where an operand is refused (R246), and no step at all where
transmit's preconditions fail (R211). -/
def opSteps (c : Cfg) : Instr → Except Refusal (List OpStep)
  | .writeRegister a v => do return [.plain (.write (← addressOperand a) (← valueOperand v))]
  | .readRegister a => do return [.answer (.read (← addressOperand a)) .value]
  | .regWrite n v => do return [.plain (.write (← addressOperand n) (← valueOperand v))]
  | .regRead n => do return [.answer (.read (← addressOperand n)) .value]
  | .txnBegin => .ok [.plain .select]
  | .shiftOut8 b => .ok [.plain (.sendByte b)]
  | .shiftOut16 w => .ok [.plain (.sendWord w)]
  | .shiftIn16 => .ok [.answer .sampleWord .value]
  | .txnEnd => .ok [.plain .deselect]
  | .setOutputPin p x => do
    let b ← pinOperand c p
    return [⟨fun s => .write c.addrGpioOut (shadowWith s.gpioShadow b x), updateShadow b x, id⟩]
  | .pulseWrite a b f => do
    let a ← addressOperand a
    let v ← valueOperand b
    let f ← flagOperand f
    return plainWrites [(a, v ||| f), (a, v &&& ~~~f)]
  | .readRegisterDiagnosticDump lo hi => do return (← rangeOperand lo hi).map fun a => .answer (.read a) (.pair a)
  | .configure ps => .ok (plainWrites (configureWrites c ps))
  | .transmit ps payload => .ok (if transmitAccepted c ps payload then transmitSteps c payload else [])

/-- Where `SEQ` stands when an operation has returned: idle, or inside the transaction that a primitive opened or is part
of (R48, R148, entry 6). -/
def restSeq : Instr → Seq
  | .txnBegin => .inTransaction
  | .shiftOut8 _ => .inTransaction
  | .shiftOut16 _ => .inTransaction
  | .shiftIn16 => .inTransaction
  | .txnEnd => .idle
  | .writeRegister _ _ => .idle
  | .readRegister _ => .idle
  | .regWrite _ _ => .idle
  | .regRead _ => .idle
  | .setOutputPin _ _ => .idle
  | .pulseWrite _ _ _ => .idle
  | .readRegisterDiagnosticDump _ _ => .idle
  | .configure _ => .idle
  | .transmit _ _ => .idle

/-- May the operation start: a host-level one from idle, a primitive also inside an open transaction (R246, entry 6). -/
def mayStart (q : Seq) (i : Instr) : Bool := if isHostLevel i then hostMayCall q else primitiveMayRun q

/-- Is this step the poll, transmit's step 7 (R218). -/
def isPoll (op : Instr) (k : Nat) : Bool :=
  match op with
  | .transmit _ payload => k == pollStep payload
  | .writeRegister _ _ => false
  | .readRegister _ => false
  | .regWrite _ _ => false
  | .regRead _ => false
  | .txnBegin => false
  | .shiftOut8 _ => false
  | .shiftOut16 _ => false
  | .shiftIn16 => false
  | .txnEnd => false
  | .setOutputPin _ _ => false
  | .pulseWrite _ _ _ => false
  | .readRegisterDiagnosticDump _ _ => false
  | .configure _ => false

/-! ### The moves of `SEQ` -/

/-- Step `k` of an operation, if it has one. -/
def opStep (c : Cfg) (op : Instr) (k : Nat) : Option OpStep :=
  match opSteps c op with
  | .ok steps => steps[k]?
  | .error _ => none

/-- `SEQ` moves to step `k` of the operation, at its first pin event, or comes to rest if the operation has no such
step. -/
def enterStep (op : Instr) (k polls : Nat) (s : State) : State :=
  match opStep s.cfg op k with
  | some st => moveSeq (.running op ⟨k, st.piece s, 0, polls⟩) (st.before s)
  | none => moveSeq (restSeq op) s

/-- What step `k` of the operation does to BBSL's state when its last pin event is over. -/
def finishStep (op : Instr) (k : Nat) (s : State) : State :=
  match opStep s.cfg op k with
  | some st => st.after s
  | none => s

/-- The last pin event of a step is over: the next step follows, but after a poll that found no status bit the same step
again, "the only backward move" (R41, R218). -/
def leaveStep (op : Instr) (pos : Position) (s : State) : State :=
  let t := finishStep op pos.step (completePiece pos.piece s)
  if isPoll op pos.step && !statusDone t.cfg t.acc then enterStep op pos.step (pos.polls + 1) t
  else enterStep op (pos.step + 1) pos.polls t

/-- Run what is left of a step, given as pin events: one of them, and `SEQ` moves on. -/
def runEvent (op : Instr) (pos : Position) (left : List (State → State)) (s : State) : State :=
  match left with
  | [] => leaveStep op pos s
  | [f] => leaveStep op pos (f s)
  | f :: _ => moveSeq (.running op { pos with event := pos.event + 1 }) (f s)

/-- One step of the machine at a position: one pin event. A poll with a finite `POLL_LIMIT` used up stops the executor
before its first pin event (R225). -/
def pinStep (op : Instr) (pos : Position) (s : State) : Host.Outcome State Fault Refusal :=
  if isPoll op pos.step && pos.event == 0 && pollFuelUsed s.cfg pos.polls then .fault .pollLimitReached
  else .next (runEvent op pos ((pieceActs s.cfg pos.piece).drop pos.event) s)

/-- A call begins: `SEQ` moves to the operation's first pin event; no event happens yet. -/
def startPinwise (i : Instr) (s : State) : Host.Outcome State Fault Refusal :=
  if mayStart s.seq i then withOperand (opSteps s.cfg i) fun _ => .next (enterStep i 0 0 s) else .refused .busy

end Sys2Proof.Machine
end

