-- ==== Sys2Proof/Machine/Step.lean ====
section
/-! DEFINITION. One step of the machine. BBSL fetches nothing from a memory (R41, R92): a step runs the host's next
call, or the next poll of a transmit that is waiting (R218), or the next pin event of a call that runs pin by pin (R41),
or nothing while there is no call (R10, R270). -/

namespace Sys2Proof.Machine

/-- The host's next call is issued. -/
def issueCall (s : State) : Host.Outcome State Fault Refusal :=
  match s.calls with
  | [] => .next s
  | .named i :: rest => exec i { s with calls := rest }
  | .pinwise i :: rest => startPinwise i { s with calls := rest }
  | .coded cells :: rest =>
    match decode cells with
    | .ok i => exec i { s with calls := rest }
    | .error e => .refused (.undecodable e)

/-- One step: while an operation is under way the host is blocked (R224), and the step is a poll or a pin event of it. -/
def step (s : State) : Host.Outcome State Fault Refusal :=
  match s.seq with
  | .running op pos => pinStep op pos s
  | .transmitPoll polls => pollStatus polls s
  | .idle => issueCall s
  | .inTransaction => issueCall s

/-- `s` with an opcode-table word as the host's next call (entry 2): the calls are the program, and a step issues the
first of them unless an operation is under way. -/
def State.withFetchWord (s : State) (nbits w : Nat) : State :=
  { s with
    calls := .coded (cellsOfWord nbits w) :: s.calls
    seq := match s.seq with
      | .running _ _ => .idle
      | .transmitPoll _ => .idle
      | .idle => .idle
      | .inTransaction => .inTransaction }

end Sys2Proof.Machine
end

