-- ==== Sys2Proof/Machine/Trace.lean ====
section
/-! DEFINITION. Observers of the two traces, and the traces the spec writes out: what a bus monitor or a test harness
reads off a run (R9, R126, R152, R153, R260). Nothing here takes part in a step. -/

namespace Sys2Proof.Machine

/-! ### Reading a state -/

/-- The pin trace, oldest event first (R140). -/
def State.pinTrace (s : State) : List PinEvent := s.pins.reverse

/-- The bus trace, oldest event first (R9). -/
def State.busTrace (s : State) : List BusEvent := s.bus.reverse

/-- What the host was given, oldest first (R257). -/
def State.outputTrace (s : State) : List Output := s.output.reverse

/-- The electrical level of the select line (R31). -/
def State.selectLevel (s : State) : Bool :=
  match s.sel with
  | .asserted => s.cfg.selAssertLevel
  | .deasserted => !s.cfg.selAssertLevel

/-- The idle levels of the four line latches (R48). -/
def State.linesIdle (s : State) : Prop :=
  s.sel = .deasserted ∧ s.clk = true ∧ s.datOut = true ∧ s.datDir = .out

/-! ### The traces the spec writes out -/

/-- An outgoing bit cell (R104). -/
def outCellPins (b : Bool) : List PinEvent := [.datOut b, .wait 1, .clk true, .wait 1, .clk false, .wait 1]

/-- An incoming bit cell (R105). -/
def inCellPins (b : Bool) : List PinEvent := [.sample b, .clk true, .wait 1, .clk false, .wait 1]

/-- txnBegin (R142). -/
def beginPins : List PinEvent := [.clk false, .wait 1, .sel .asserted]

/-- shiftOut8 and shiftOut16 (R143, R144). -/
def shiftOutPins {w : Nat} (v : BitVec w) : List PinEvent := (bitsMsb v).flatMap outCellPins

/-- shiftIn16 with the samples that make up `v` (R145). -/
def shiftInPins (v : Word) : List PinEvent := .datDir .inp :: (bitsMsb v).flatMap inCellPins ++ [.datDir .out]

/-- txnEnd (R146). -/
def endPins : List PinEvent := [.sel .deasserted, .wait 1, .clk true, .datOut true]

/-- writeRegister (R149). -/
def writePins (a : RegAddr) (v : Word) : List PinEvent :=
  beginPins ++ shiftOutPins (writeCommand a) ++ shiftOutPins v ++ endPins

/-- readRegister, answered with `v` (R150). -/
def readPins (flag : Byte) (a : RegAddr) (v : Word) : List PinEvent :=
  beginPins ++ shiftOutPins (readCommand flag a) ++ shiftInPins v ++ endPins

/-- The pin trace of a bus event (R9: "a transaction is a fixed sequence of pin events"). -/
def BusEvent.pins (flag : Byte) : BusEvent → List PinEvent
  | .write a v => writePins a v
  | .read a v => readPins flag a v

/-- The FIFO words of a payload (R106), `r` being the residual byte of an odd one. -/
def fifoWords (r : Byte) : List Byte → List Word
  | [] => []
  | [hi] => [packBytes hi r]
  | hi :: lo :: rest => packBytes hi lo :: fifoWords r rest

/-- The bus events of transmit steps 1 to 6 (R221), for a template `t`, a mask `m` and a residual `r`. -/
def transmitPrefix (c : Cfg) (payload : List Byte) (t m : Word) (r : Byte) : List BusEvent :=
  [.read c.addrFskCtrl t,
   .write c.addrFskCtrl (t ||| c.ctrlTxFifoClear), .write c.addrFskCtrl t,
   .write c.addrFskLen (lenWord c payload.length)] ++
  (fifoWords r payload).map (.write c.addrFskFifo) ++
  [.read c.addrIntMask m, .write c.addrIntMask c.intTxFinished,
   .write c.addrFskCtrl (t ||| c.ctrlTxEnable)]

/-- The bus events of transmit step 8 (R219). -/
def transmitSuffix (c : Cfg) (t : Word) : List BusEvent :=
  [.write c.addrStrobe c.strobeClearValue, .write c.addrFskCtrl t]

/-! ### Counting (R153, R222, R260, R292) -/

/-- Timing units of a pin trace: the sum of its waits (R292). -/
def timeUnits : List PinEvent → Nat
  | [] => 0
  | .wait n :: rest => n + timeUnits rest
  | .sel _ :: rest => timeUnits rest
  | .clk _ :: rest => timeUnits rest
  | .datOut _ :: rest => timeUnits rest
  | .datDir _ :: rest => timeUnits rest
  | .sample _ :: rest => timeUnits rest

/-- The clock levels set while selected, in order; `sel` says whether the trace starts selected (R153 (b)). -/
def selectedClocks (sel : Bool) : List PinEvent → List Bool
  | [] => []
  | .sel .asserted :: rest => selectedClocks true rest
  | .sel .deasserted :: rest => selectedClocks false rest
  | .clk b :: rest => if sel then b :: selectedClocks sel rest else selectedClocks sel rest
  | .wait _ :: rest => selectedClocks sel rest
  | .datOut _ :: rest => selectedClocks sel rest
  | .datDir _ :: rest => selectedClocks sel rest
  | .sample _ :: rest => selectedClocks sel rest

/-- The select events of a trace, in order (R153 (a)). -/
def selectEvents : List PinEvent → List Select
  | [] => []
  | .sel x :: rest => x :: selectEvents rest
  | .clk _ :: rest => selectEvents rest
  | .wait _ :: rest => selectEvents rest
  | .datOut _ :: rest => selectEvents rest
  | .datDir _ :: rest => selectEvents rest
  | .sample _ :: rest => selectEvents rest

/-- What may happen up to the deselect while the clock is at a level (R153 (c), (d), (f)): the select changes, the data
latch changes and samples are taken only while the clock is low, and a change of the data latch is followed by a wait
before the clock rises. `clk` is the clock's level, `settled` says that no data change is waiting for its wait. -/
def dataStable (clk settled : Bool) : List PinEvent → Bool
  | [] => true
  | .clk true :: rest => settled && dataStable true true rest
  | .clk false :: rest => dataStable false settled rest
  | .wait _ :: rest => dataStable clk true rest
  | .datOut _ :: rest => !clk && dataStable clk false rest
  | .sample _ :: rest => !clk && dataStable clk settled rest
  | .datDir _ :: rest => dataStable clk settled rest
  | .sel .asserted :: rest => !clk && dataStable clk settled rest
  | .sel .deasserted :: _ => !clk

/-- The four line latches after a pin trace: `SEL`, `CLK`, `DAT_OUT`, `DAT_DIR` (R31 to R34, R140). -/
def linesAfter (sel : Select) (clk datOut : Bool) (datDir : Dir) : List PinEvent → Select × Bool × Bool × Dir
  | [] => (sel, clk, datOut, datDir)
  | .sel x :: rest => linesAfter x clk datOut datDir rest
  | .clk b :: rest => linesAfter sel b datOut datDir rest
  | .datOut b :: rest => linesAfter sel clk b datDir rest
  | .datDir d :: rest => linesAfter sel clk datOut d rest
  | .sample _ :: rest => linesAfter sel clk datOut datDir rest
  | .wait _ :: rest => linesAfter sel clk datOut datDir rest

/-- The direction rule (R153 (e)): the data line is switched to in at most once, after exactly eight falling edges of a
selected clock, and is out again at the deselect. `falls` counts the falling edges since the select, `inp` says that the
direction is in. Samples are taken only then. -/
def directionOk (falls : Nat) (inp : Bool) : List PinEvent → Bool
  | [] => !inp
  | .datDir .inp :: rest => !inp && falls == 8 && directionOk falls true rest
  | .datDir .out :: rest => inp && directionOk falls false rest
  | .sel .asserted :: rest => !inp && directionOk 0 inp rest
  | .sel .deasserted :: rest => !inp && directionOk falls inp rest
  | .clk b :: rest => directionOk (if b then falls else falls + 1) inp rest
  | .wait _ :: rest => directionOk falls inp rest
  | .datOut _ :: rest => directionOk falls inp rest
  | .sample _ :: rest => inp && directionOk falls inp rest

/-- How many write events a bus trace has: the source's "bus-write counter" (R260). -/
def writeCount : List BusEvent → Nat
  | [] => 0
  | .write _ _ :: rest => 1 + writeCount rest
  | .read _ _ :: rest => writeCount rest

/-- How many read events a bus trace has (R222). -/
def readCount : List BusEvent → Nat
  | [] => 0
  | .write _ _ :: rest => readCount rest
  | .read _ _ :: rest => 1 + readCount rest

/-- The value of the last write to an address in a bus trace, oldest first, `acc` before it (R220). -/
def lastWrite (a : RegAddr) (acc : Option Word) : List BusEvent → Option Word
  | [] => acc
  | .write b v :: rest => lastWrite a (if b = a then some v else acc) rest
  | .read _ _ :: rest => lastWrite a acc rest

/-- The words pushed into the chip's FIFO, in order (R59, R65, R79 (1)). -/
def fifoPushed (c : Cfg) : List BusEvent → List Word
  | [] => []
  | .write a v :: rest => if a = c.addrFskFifo then v :: fifoPushed c rest else fifoPushed c rest
  | .read _ _ :: rest => fifoPushed c rest

/-! ### From pins to bus events (R126, R152) -/

/-- The bus event of the cells of one transaction (R126). -/
def busOfCells (cells : List WireCell) : Option BusEvent :=
  match decode cells with
  | .ok (.writeRegister a v) => some (.write (BitVec.ofNat 7 a) (BitVec.ofNat 16 v))
  | .ok (.readRegister a) => some (.read (BitVec.ofNat 7 a) (ofBitsMsb 16 ((cells.drop 8).map cellBit)))
  | _ => none

/-- The abstraction of a pin trace (R152): between a select and the next deselect, the values given to `DAT_OUT` are
the outgoing cells and the samples the incoming ones. `cur` holds the cells of an open transaction, newest first. -/
def busOfPins (cur : Option (List WireCell)) : List PinEvent → List BusEvent
  | [] => []
  | .sel .asserted :: rest => busOfPins (some []) rest
  | .sel .deasserted :: rest =>
    match cur with
    | some cells => (busOfCells cells.reverse).toList ++ busOfPins none rest
    | none => busOfPins none rest
  | .datOut b :: rest => busOfPins (cur.map (.out b :: ·)) rest
  | .sample b :: rest => busOfPins (cur.map (.inp b :: ·)) rest
  | .clk _ :: rest => busOfPins cur rest
  | .wait _ :: rest => busOfPins cur rest
  | .datDir _ :: rest => busOfPins cur rest

/-! ### SimBank as a function of bus events (R86) -/

/-- The bank after a bus trace: `W(a, v)` sets cell a to v, a read changes nothing (R86). -/
def bankAfter (m : Memory) : List BusEvent → Memory
  | [] => m
  | .write a v :: rest => bankAfter (m.write a.toNat v) rest
  | .read _ _ :: rest => bankAfter m rest

/-- The content of a SimBank cell (R86): what the bank lists, else what the test's initial content is (entry 17). -/
def bankCell (m : Memory) (a : RegAddr) : Word := (m.read a.toNat).getD (Config.initialReg a)

/-- Every read of a bus trace returned the cell as it stood (R86: "`R(a)` returns cell a"). -/
def bankAnswers (m : Memory) : List BusEvent → Prop
  | [] => True
  | .write a v :: rest => bankAnswers (m.write a.toNat v) rest
  | .read a v :: rest => v = bankCell m a ∧ bankAnswers m rest

end Sys2Proof.Machine
end

