-- ==== Sys2Proof/Safety.lean ====
section
/-! DEFINITION. What holds in every safe state: the invariant that every step keeps, and what a call leaves alone. -/

namespace Sys2Proof.Machine

/-- The peer's front end is in a position that R90 gives it: at most 24 edges counted, bits 15 to 0 driven, and the line
released while deselected. -/
def Peer.ok (p : Peer) (sel : Select) : Prop :=
  p.edges ≤ 24 ∧ (∀ k, p.driveBit = some k → k ≤ 15) ∧ (sel = .deasserted → p.driveBit = none)

/-- What the position of `SEQ` says of the lines: idle lines while BBSL is idle or between two polls (R48), the direction
out between the primitives of an open transaction (R34), and at a pin event of an operation the same once the rest of its
step has run. -/
def State.seqOk (s : State) : Prop :=
  match s.seq with
  | .idle => s.linesIdle
  | .inTransaction => s.datDir = .out
  | .transmitPoll _ => s.linesIdle
  | .running op pos =>
    (runActs ((pieceActs s.cfg pos.piece).drop pos.event) s).datDir = .out ∧
      (restSeq op = .idle → (runActs ((pieceActs s.cfg pos.piece).drop pos.event) s).linesIdle)

/-- What is left of the step of an operation that `SEQ` stands in is over: its pin events, its bus event, and what the
step does after them. -/
def State.stepOver (op : Instr) (pos : Position) (s : State) : State :=
  finishStep op pos.step (completePiece pos.piece (runActs ((pieceActs s.cfg pos.piece).drop pos.event) s))

/-- `q` is where `SEQ` goes for step `k` of an operation that finds the state `u`: the first pin event of that step, or
rest if the operation has no such step. -/
def goesTo (c : Cfg) (op : Instr) (k polls : Nat) (u : State) (q : Seq) : Prop :=
  (∀ st, opStep c op k = some st → q = .running op ⟨k, st.piece u, 0, polls⟩) ∧ (opStep c op k = none → q = restSeq op)

/-- The invariant of BBSL: the configuration is well formed (R8), the lines stand as `SEQ` says (R34, R48), the register
bank keeps its canonical form (R70), and the peer's front end is in order (R90). -/
def State.Inv (s : State) : Prop :=
  s.cfg.wf = true ∧ s.seqOk ∧ s.peer.cells.wf = true ∧ s.peer.ok s.sel

/-- BBSL may take a host-level call (R256): it is idle, in a state that the invariant allows. -/
def State.callable (s : State) : Prop := s.seq = .idle ∧ s.Inv

/-- The parts of the state that no transaction touches: the configuration, the shadow, the session, the sequencer, the
host's calls and outputs. -/
def sameOutsideLink (s t : State) : Prop :=
  t.cfg = s.cfg ∧ t.gpioShadow = s.gpioShadow ∧ t.template = s.template ∧ t.savedMask = s.savedMask ∧
  t.seq = s.seq ∧ t.calls = s.calls ∧ t.output = s.output ∧ t.peer.kind = s.peer.kind

/-- BBSL is inside a transaction with the clock low and drives the data line: the precondition of shiftOut8, shiftOut16,
shiftIn16 and txnEnd (R143 to R146). -/
def State.shifting (s : State) : Prop := s.sel = .asserted ∧ s.clk = false ∧ s.datDir = .out

/-- What a primitive leaves alone, whatever it does to the lines, the datapath and the peer (R142 to R146). -/
def samePastPrimitive (s t : State) : Prop :=
  t.cfg = s.cfg ∧ t.gpioShadow = s.gpioShadow ∧ t.template = s.template ∧ t.savedMask = s.savedMask ∧
  t.calls = s.calls ∧ t.bus = s.bus ∧ t.peer.kind = s.peer.kind

/-- A cell the bank holds as it was: every address but those listed reads as before (R77, R83). -/
def sameCellsExcept (as : List RegAddr) (m m' : Memory) : Prop :=
  ∀ b : RegAddr, b ∉ as → m'.read b.toNat = m.read b.toNat

/-- The frame of the register bank, whatever the peer: every address but those listed reads as before, or the contract
chip has forgotten it (entry 10), which only the contract chip does. -/
def cellFrame (k : PeerKind) (as : List RegAddr) (m m' : Memory) : Prop :=
  ∀ b : RegAddr, b ∉ as → m'.read b.toNat = m.read b.toNat ∨ (k = .chip ∧ m'.read b.toNat = none)

/-- The outcome's next state, if it has one. -/
def nextState (o : Host.Outcome State Fault Refusal) : Option State :=
  match o with
  | .next s => some s
  | .fault _ => none
  | .refused _ => none

/-- A run of `k` steps that neither faults nor is refused. -/
def runSteps (k : Nat) (s : State) : Option State := nextState (Sys2Proof.core.run k s)

end Sys2Proof.Machine
end

