-- ==== Sys2Proof/Certificates/Slice0/Obligations.lean ====
section
/-! DEFINITION. The statements for the provers, each one a rule of spec/ or a promise of the whole machine. -/

open Sys2Proof Sys2Proof.Machine

/-! ### Reset and the invariant -/

/-- R271, R272: after reset the lines are idle, the shadow is `GPIO_SHADOW_INIT`, and no bus event has happened. -/
def Obligations.ResetLeavesIdleLinesAndInitialShadow : Prop :=
  ∀ c : Cfg, (State.resetOf c).linesIdle ∧ (State.resetOf c).gpioShadow = c.gpioShadowInit ∧
    (State.resetOf c).bus = [] ∧ (State.resetOf c).pins = [] ∧ (State.resetOf c).seq = .idle

/-- The invariant holds after reset, for every well-formed configuration and at the defaults. -/
def Obligations.ResetSatisfiesInvariant : Prop :=
  (∀ c : Cfg, c.wf = true → (State.resetOf c).Inv) ∧ State.reset.Inv

/-- Every step keeps the invariant, from every state that meets it. -/
def Obligations.StepKeepsInvariant : Prop :=
  ∀ s t : State, s.Inv → step s = .next t → t.Inv

/-- R48: whenever `SEQ` is idle the lines are idle; so it is after reset and after every step of a run from a state that
meets the invariant. -/
def Obligations.IdleMeansIdleLinesAlongRuns : Prop :=
  ∀ (s : State) (k : Nat) (t : State), s.Inv → runSteps k s = some t → t.seq = .idle → t.linesIdle

/-- No step changes the configuration or the traces already made; that none changes the kind of peer is the model's choice
(entry 11). -/
def Obligations.StepKeepsConfigurationAndHistory : Prop :=
  ∀ s t : State, step s = .next t →
    t.cfg = s.cfg ∧ t.peer.kind = s.peer.kind ∧ s.pins <:+ t.pins ∧ s.bus <:+ t.bus ∧ s.output <:+ t.output

/-- R39: `GPIO_SHADOW` is written by setOutputPin and by nothing else: no other operation's meaning changes it, no poll
does, and no step of the machine does but one that issues a call of setOutputPin. -/
def Obligations.OnlySetOutputPinWritesShadow : Prop :=
  (∀ (i : Instr) (s t : State), exec i s = .next t → (∀ p x, i ≠ .setOutputPin p x) → t.gpioShadow = s.gpioShadow) ∧
  (∀ (k : Nat) (s t : State), pollStatus k s = .next t → t.gpioShadow = s.gpioShadow) ∧
  (∀ s t : State, step s = .next t → t.gpioShadow ≠ s.gpioShadow →
    (s.seq = .idle ∨ s.seq = .inTransaction) ∧ ∃ c rest p x, s.calls = c :: rest ∧ c.instr = .ok (.setOutputPin p x))

/-- R40: the transmit session is written by transmit and by nothing else: no other operation's meaning changes it, and no
step of the machine does but one that issues a call of transmit or runs a pin event of it. -/
def Obligations.OnlyTransmitWritesSession : Prop :=
  (∀ (i : Instr) (s t : State), exec i s = .next t → (∀ p d, i ≠ .transmit p d) →
    t.template = s.template ∧ t.savedMask = s.savedMask) ∧
  (∀ s t : State, step s = .next t → t.template ≠ s.template ∨ t.savedMask ≠ s.savedMask →
    (∃ p d pos, s.seq = .running (.transmit p d) pos) ∨
    (s.seq = .idle ∧ ∃ c rest p d, s.calls = c :: rest ∧ c.instr = .ok (.transmit p d)))

/-! ### Steps -/

/-- A step issues the host's next call and runs the instruction it decodes to, with the call taken off the list; a call
that runs pin by pin is O56's. The list of calls, and a call written as cells, are the model's own (entries 2 and 3). -/
def Obligations.StepRunsTheNextCall : Prop :=
  ∀ (s : State) (c : Call) (rest : List Call) (i : Instr),
    (s.seq = .idle ∨ s.seq = .inTransaction) → s.calls = c :: rest → (∀ j, c ≠ .pinwise j) → c.instr = .ok i →
    step s = exec i { s with calls := rest }

/-- A coded call that the decoder rejects is refused with the decoder's reason; with no call, BBSL waits (R10). The
refusal is the model's own (entry 3). -/
def Obligations.StepWithoutInstruction : Prop :=
  (∀ (s : State) (cells : List WireCell) (rest : List Call) (e : DecodeError),
    (s.seq = .idle ∨ s.seq = .inTransaction) → s.calls = .coded cells :: rest → decode cells = .error e →
    step s = .refused (.undecodable e)) ∧
  (∀ s : State, (s.seq = .idle ∨ s.seq = .inTransaction) → s.calls = [] → step s = .next s)

/-! ### Encoding -/

/-- Decoding the cells of a well-formed instruction gives the operation back, at every value of every operand. -/
def Obligations.DecodeOfEncode : Prop :=
  ∀ (c : Cfg) (i : Instr) (cells : List WireCell),
    i.wellFormed c = true → encode i = some cells → decode cells = .ok i.underlying

/-- What the decoder accepts is what the encoder writes: whole lists of BBSL's cells, and read frames up to the cells
that are the chip's. -/
def Obligations.DecodeAcceptsOnlyEncodings : Prop :=
  ∀ (cells : List WireCell) (i : Instr), decode cells = .ok i →
    (∃ a v, i = .readRegister (a : RegAddr).toNat ∧ cells = readCells a v) ∨
    (∃ v, i = .shiftIn16 ∧ cells = inCells (v : Word)) ∨
    (encode i = some cells ∧ cells.all cellIsOut = true)

/-- R126: every 24-bit frame decodes; bit 23 selects the format, bits 22:16 are the address, bits 15:0 the data, BBSL's
for a write and the chip's for a read. -/
def Obligations.EveryFrameDecodes : Prop :=
  ∀ f : BitVec 24,
    (f.getLsbD 23 = false → busOfCells (outCells f) = some (.write (f.extractLsb' 16 7) (f.extractLsb' 0 16))) ∧
    (f.getLsbD 23 = true →
      busOfCells (outCells (f.extractLsb' 16 8) ++ inCells (f.extractLsb' 0 16)) =
        some (.read (f.extractLsb' 16 7) (f.extractLsb' 0 16)))

/-- A few words written out from the spec's encodings decode to what they stand for (V5, V7, V30; E1). -/
def Obligations.WrittenOutWordsDecode : Prop :=
  decodeTableWord 24 0x30A55A = some (.writeRegister 0x30 0xA55A) ∧
  decodeTableWord 24 0x598068 = some (.writeRegister 0x59 0x8068) ∧
  decodeTableWord 24 0xB00000 = some (.readRegister 0x30) ∧
  decodeTableWord 8 0xB0 = some (.shiftOut8 0xB0) ∧
  decodeTableWord 16 0xA55A = some (.shiftOut16 0xA55A) ∧
  decode (inCells (0x0068 : Word)) = .ok .shiftIn16 ∧
  decodeTableWord 23 0 = none

/-! ### The primitives -/

/-- R142: txnBegin from idle lines lowers the clock, waits one unit and selects; beside the two lines nothing of BBSL
changes but `SEQ`, which stands inside the transaction (entry 6), and nothing of the peer but its edge counter, which the
select clears (R90). -/
def Obligations.TxnBeginSelectsWithClockLow : Prop :=
  ∀ s : State, s.linesIdle → (s.seq = .idle ∨ s.seq = .inTransaction) →
    ∃ t, exec .txnBegin s = .next t ∧
      t.pinTrace = s.pinTrace ++ [.clk false, .wait 1, .sel .asserted] ∧
      t.sel = .asserted ∧ t.clk = false ∧ t.datOut = true ∧ t.datDir = .out ∧ t.seq = .inTransaction ∧
      t.sro = s.sro ∧ t.bitcnt = s.bitcnt ∧ t.acc = s.acc ∧ t.output = s.output ∧ t.env = s.env ∧
      t.peer = { s.peer with edges := 0 } ∧ samePastPrimitive s t

/-- R143: shiftOut8 sends b[7] to b[0], a bit cell each, and leaves the clock low with b[0] on the line; only the top
half of `SRO` was loaded, so its low half has moved up. That `SEQ` stands inside the transaction is the model's (entry 6).
The register frame allows what the contract chip forgets: on the access it commits (entry 10), and at an edge past the 24th
(entry 30). -/
def Obligations.ShiftOut8SendsMsbFirst : Prop :=
  ∀ (s : State) (b : Byte), s.shifting → (s.seq = .idle ∨ s.seq = .inTransaction) →
    ∃ t, exec (.shiftOut8 b) s = .next t ∧
      t.pinTrace = s.pinTrace ++ (outCellPins (b.getLsbD 7) ++ outCellPins (b.getLsbD 6) ++ outCellPins (b.getLsbD 5) ++
        outCellPins (b.getLsbD 4) ++ outCellPins (b.getLsbD 3) ++ outCellPins (b.getLsbD 2) ++ outCellPins (b.getLsbD 1) ++
        outCellPins (b.getLsbD 0)) ∧
      t.sel = .asserted ∧ t.clk = false ∧ t.datOut = b.getLsbD 0 ∧ t.datDir = .out ∧ t.seq = .inTransaction ∧
      t.sro = s.sro <<< 8 ∧ t.bitcnt = 0 ∧ t.acc = s.acc ∧ t.output = s.output ∧ samePastPrimitive s t ∧
      cellFrame s.peer.kind [commandAddr t.peer.cmd] s.peer.cells t.peer.cells

/-- R144: shiftOut16 sends w[15] to w[0] with the same bit timing. That `SEQ` stands inside the transaction is the
model's (entry 6). The register frame allows what the contract chip forgets: on the access it commits (entry 10), and at an
edge past the 24th (entry 30). -/
def Obligations.ShiftOut16SendsMsbFirst : Prop :=
  ∀ (s : State) (w : Word), s.shifting → (s.seq = .idle ∨ s.seq = .inTransaction) →
    ∃ t, exec (.shiftOut16 w) s = .next t ∧
      t.pinTrace = s.pinTrace ++ ((List.range 16).map fun i => outCellPins (w.getLsbD (15 - i))).flatten ∧
      t.sel = .asserted ∧ t.clk = false ∧ t.datOut = w.getLsbD 0 ∧ t.datDir = .out ∧ t.seq = .inTransaction ∧
      t.sro = 0 ∧ t.bitcnt = 0 ∧ t.acc = s.acc ∧ t.output = s.output ∧ samePastPrimitive s t ∧
      cellFrame s.peer.kind [commandAddr t.peer.cmd] s.peer.cells t.peer.cells

/-- R145: shiftIn16 switches the line to input, takes sixteen samples, the first of them bit 15, switches back, and
returns the accumulator; the output latch keeps the last command bit. With nothing driving the line the samples are the
environment's, whatever they are. That `SEQ` stands inside the transaction is the model's (entry 6). The register frame
allows what the contract chip forgets: on the access it commits (entry 10), and at an edge past the 24th (entry 30). -/
def Obligations.ShiftIn16ReturnsTheSamples : Prop :=
  (∀ s : State, s.shifting → (s.seq = .idle ∨ s.seq = .inTransaction) →
    ∃ t v, exec .shiftIn16 s = .next t ∧
      t.pinTrace = s.pinTrace ++ (.datDir .inp ::
        ((List.range 16).map fun i => inCellPins (v.getLsbD (15 - i))).flatten ++ [.datDir .out]) ∧
      t.acc = v ∧ t.output = .value v :: s.output ∧
      t.sel = .asserted ∧ t.clk = false ∧ t.datOut = s.datOut ∧ t.datDir = .out ∧ t.seq = .inTransaction ∧
      t.sro = s.sro ∧ t.bitcnt = 0 ∧ samePastPrimitive s t ∧
      cellFrame s.peer.kind [commandAddr t.peer.cmd] s.peer.cells t.peer.cells) ∧
  (∀ (s t : State) (v : Word), s.shifting → s.peer.kind = .absent → s.env.samples = bitsMsb v →
    exec .shiftIn16 s = .next t → t.acc = v)

/-- R146: txnEnd deselects, waits one unit, and leaves clock and data idle-high; `SEQ` is idle. The register bank is as
before, but that the contract chip forgets all of it after a frame of other than 24 pulses is the model's choice
(entry 30). -/
def Obligations.TxnEndLeavesIdleLines : Prop :=
  ∀ s : State, s.shifting → (s.seq = .idle ∨ s.seq = .inTransaction) →
    ∃ t, exec .txnEnd s = .next t ∧
      t.pinTrace = s.pinTrace ++ [.sel .deasserted, .wait 1, .clk true, .datOut true] ∧
      t.linesIdle ∧ t.seq = .idle ∧
      t.sro = s.sro ∧ t.bitcnt = s.bitcnt ∧ t.acc = s.acc ∧ t.output = s.output ∧ t.env = s.env ∧
      t.peer.cells = (if s.peer.kind = .chip ∧ s.peer.edges ≠ 24 then [] else s.peer.cells) ∧ samePastPrimitive s t

/-- The model's choice (entry 6): a primitive runs from every state of the lines, and is refused only while an operation
is under way. -/
def Obligations.PrimitivesRunUnlessPolling : Prop :=
  ∀ (i : Instr) (s : State), isHostLevel i = false →
    (s.seq = .idle ∨ s.seq = .inTransaction → ∃ t, exec i s = .next t) ∧
    (s.seq ≠ .idle → s.seq ≠ .inTransaction → exec i s = .refused .busy)

/-! ### The two transactions -/

/-- R149: writeRegister is one write transaction and leaves idle lines. -/
def Obligations.WriteRegisterIsOneWriteTransaction : Prop :=
  ∀ (s : State) (a : RegAddr) (v : Word), s.callable →
    ∃ t, exec (.writeRegister a.toNat v.toNat) s = .next t ∧
      t.busTrace = s.busTrace ++ [.write a v] ∧ t.pinTrace = s.pinTrace ++ writePins a v ∧
      t.linesIdle ∧ t.sro = 0 ∧ t.bitcnt = 0 ∧ t.acc = s.acc ∧ t.env = s.env ∧ sameOutsideLink s t ∧
      t.peer.cells = commitWrite s.cfg s.peer.kind s.peer.cells a v

/-- R150: readRegister is one read transaction, returns the value accumulated, and leaves idle lines; with a peer on the
bus the value is the peer's answer. -/
def Obligations.ReadRegisterIsOneReadTransaction : Prop :=
  ∀ (s : State) (a : RegAddr), s.callable →
    ∃ t v, exec (.readRegister a.toNat) s = .next t ∧
      t.busTrace = s.busTrace ++ [.read a v] ∧ t.pinTrace = s.pinTrace ++ readPins s.cfg.readFlag a v ∧
      t.acc = v ∧ t.outputTrace = s.outputTrace ++ [.value v] ∧ t.linesIdle ∧
      t.cfg = s.cfg ∧ t.gpioShadow = s.gpioShadow ∧ t.template = s.template ∧ t.savedMask = s.savedMask ∧
      t.seq = .idle ∧ t.calls = s.calls ∧
      (s.peer.kind ≠ .absent → v = (answerRead s.cfg s.peer.kind s.peer.cells a s.env).1) ∧
      t.peer.cells = commitRead s.cfg s.peer.kind s.peer.cells a

/-- R149, R150: the pin events, clock pulses and timing units of the two transactions. -/
def Obligations.TransactionSizes : Prop :=
  (∀ (a : RegAddr) (v : Word), (writePins a v).length = 151 ∧ timeUnits (writePins a v) = 74 ∧
    (selectedClocks false (writePins a v)).count true = 24) ∧
  (∀ (flag : Byte) (a : RegAddr) (v : Word), (readPins flag a v).length = 137 ∧ timeUnits (readPins flag a v) = 58 ∧
    (selectedClocks false (readPins flag a v)).count true = 24)

/-- R153: the waveform facts of every transaction: one select and one deselect, 24 alternating clock edges between them
beginning with a rise, the data line, the samples and the select still while the clock is high, input only between the
eighth falling edge and the deselect, and the idle levels at its end. -/
def Obligations.WaveformFacts : Prop :=
  ∀ (flag : Byte) (e : BusEvent),
    selectEvents (e.pins flag) = [.asserted, .deasserted] ∧
    selectedClocks false (e.pins flag) = (List.replicate 24 [true, false]).flatten ∧
    dataStable true true (e.pins flag) = true ∧ directionOk 0 false (e.pins flag) = true ∧
    linesAfter .deasserted true true .out (e.pins flag) = (.deasserted, true, true, .out)

/-- R180: regWrite and regRead are writeRegister and readRegister, call for call, refusals and all. -/
def Obligations.PassThroughNamesAreTheOperations : Prop :=
  ∀ (n v : Nat) (s : State),
    exec (.regWrite n v) s = exec (.writeRegister n v) s ∧ exec (.regRead n) s = exec (.readRegister n) s

/-- regWrite and regRead complete: one transaction each, as R180 says of them. -/
def Obligations.PassThroughNamesComplete : Prop :=
  ∀ (s : State) (a : RegAddr) (v : Word), s.callable →
    (∃ t, exec (.regWrite a.toNat v.toNat) s = .next t ∧ t.busTrace = s.busTrace ++ [.write a v]) ∧
    (∃ t u, exec (.regRead a.toNat) s = .next t ∧ t.busTrace = s.busTrace ++ [.read a u] ∧
      t.outputTrace = s.outputTrace ++ [.value u])

/-- R246, R116: the refused calls, each by its name. -/
def Obligations.CallsOutsideTheDomainAreRefused : Prop :=
  ∀ s : State, s.seq = .idle →
    (∀ a v, 128 ≤ a → exec (.writeRegister a v) s = .refused .addressOutOfRange) ∧
    (∀ a, 128 ≤ a → exec (.readRegister a) s = .refused .addressOutOfRange) ∧
    (∀ a b f, 128 ≤ a → exec (.pulseWrite a b f) s = .refused .addressOutOfRange) ∧
    (∀ lo hi, 128 ≤ lo ∨ 128 ≤ hi → exec (.readRegisterDiagnosticDump lo hi) s = .refused .addressOutOfRange) ∧
    (∀ a v, a < 128 → 65536 ≤ v → exec (.writeRegister a v) s = .refused .valueOutOfRange) ∧
    (∀ a b f, a < 128 → 65536 ≤ b → exec (.pulseWrite a b f) s = .refused .valueOutOfRange) ∧
    (∀ p x, s.cfg.pinBit.lookup p = none → exec (.setOutputPin p x) s = .refused .pinOutsideTable) ∧
    (∀ a b f, a < 128 → b < 65536 → (∀ i < 16, f ≠ 2 ^ i) → exec (.pulseWrite a b f) s = .refused .flagNotOneHot) ∧
    (∀ lo hi, lo < 128 → hi < 128 → hi < lo → exec (.readRegisterDiagnosticDump lo hi) s = .refused .emptyRange)

/-- R246, R256: any host-level call issued while `SEQ` is not idle is refused. -/
def Obligations.ReentrantCallsAreRefused : Prop :=
  ∀ (i : Instr) (s : State), isHostLevel i = true → s.seq ≠ .idle → exec i s = .refused .busy

/-- The completion of every host-level call in its typed domain: it answers a next state, unless it is a transmit whose
finite `POLL_LIMIT` is zero. -/
def Obligations.WellFormedCallsComplete : Prop :=
  ∀ (i : Instr) (s : State), isHostLevel i = true → s.seq = .idle → i.wellFormed s.cfg = true →
    s.cfg.pollLimit ≠ some 0 → ∃ t, exec i s = .next t

/-! ### The peer -/

/-- R86: under SimBank `W(a, v)` sets cell a to v and nothing else, and `R(a)` returns cell a. -/
def Obligations.SimBankStoresAndReturnsCells : Prop :=
  ∀ (s : State) (a : RegAddr) (v : Word), s.callable → s.peer.kind = .simBank →
    (∃ t, exec (.writeRegister a.toNat v.toNat) s = .next t ∧ t.peer.cells.read a.toNat = some v ∧
      sameCellsExcept [a] s.peer.cells t.peer.cells) ∧
    (takeAnswer a s.env.answers = none →
      ∃ t, exec (.readRegister a.toNat) s = .next t ∧ t.acc = bankCell s.peer.cells a ∧
        t.peer.cells = s.peer.cells ∧ t.env = s.env)

/-- R80, E6: under SimBank a write followed by a read of the same register returns what was written. -/
def Obligations.SimBankRoundTrip : Prop :=
  ∀ (s : State) (a : RegAddr) (v : Word), s.callable → s.peer.kind = .simBank →
    takeAnswer a s.env.answers = none →
    ∃ t u, exec (.writeRegister a.toNat v.toNat) s = .next t ∧ exec (.readRegister a.toNat) t = .next u ∧
      u.outputTrace = s.outputTrace ++ [.value v]

/-- R87: under the contract a plain register reads back as last written, FSK_CTRL in every bit but the clear flag; the
bits that are not plain are the oracle's. -/
def Obligations.ContractRoundTripOnPlainBits : Prop :=
  ∀ (s : State) (a : RegAddr) (v : Word), s.callable → s.peer.kind = .chip → plainMask s.cfg a ≠ 0 →
    ∃ t u, exec (.writeRegister a.toNat v.toNat) s = .next t ∧ exec (.readRegister a.toNat) t = .next u ∧
      u.acc &&& plainMask s.cfg a = v &&& plainMask s.cfg a ∧
      u.acc &&& ~~~(plainMask s.cfg a) = (oracleWord a s.env).1 &&& ~~~(plainMask s.cfg a)

/-- R88: a register that is not plain, or that nothing has written since reset, answers whatever the environment says:
for every word there is an environment that makes the read return it. -/
def Obligations.OracleAnswersAnyWord : Prop :=
  ∀ (s : State) (a : RegAddr) (v : Word), s.callable → s.peer.kind = .chip →
    (plainMask s.cfg a = 0 ∨ s.peer.cells.read a.toNat = none) →
    ∀ rest, s.env.answers = (a, v) :: rest → ∃ t, exec (.readRegister a.toNat) s = .next t ∧ t.acc = v

/-- R89, V10: with no peer a read returns whatever sixteen samples the line shows, and a write stores nothing; neither
reports anything. -/
def Obligations.AbsentChipIsInvisible : Prop :=
  ∀ (s : State) (a : RegAddr) (v : Word), s.callable → s.peer.kind = .absent →
    (∃ t, exec (.writeRegister a.toNat v.toNat) s = .next t ∧ t.peer.cells = s.peer.cells) ∧
    (∀ rest, s.env.samples = bitsMsb v ++ rest →
      ∃ t, exec (.readRegister a.toNat) s = .next t ∧ t.acc = v ∧ t.peer.cells = s.peer.cells)

/-- R184, R64, R80 (entry 10): under the contract a soft-reset pulse, a write to a register no rule describes and a read
of one leave no register known; the shadow keeps its value. -/
def Obligations.UndescribedActionsForgetTheBank : Prop :=
  ∀ (s : State) (base v : Word) (a : RegAddr), s.callable → s.peer.kind = .chip →
    (∃ t, exec (.pulseWrite s.cfg.addrSoftReset.toNat base.toNat s.cfg.softResetFlag.toNat) s = .next t ∧
      t.peer.cells = [] ∧ t.gpioShadow = s.gpioShadow) ∧
    (hasRole s.cfg a = false →
      (∃ t, exec (.writeRegister a.toNat v.toNat) s = .next t ∧ t.peer.cells = []) ∧
      (∃ t, exec (.readRegister a.toNat) s = .next t ∧ t.peer.cells = []))

/-- R152: the pins refine the bus. Every host-level operation's pin trace is the concatenation of its transactions'
traces, its abstraction is the operation's bus trace, and under SimBank the bank and the answers are those that rule R86
gives the bus events. -/
def Obligations.PinTraceRefinesBusTrace : Prop :=
  ∀ (i : Instr) (s t : State), s.callable → isHostLevel i = true → exec i s = .next t →
    ∃ evs : List BusEvent,
      t.busTrace = s.busTrace ++ evs ∧
      t.pinTrace = s.pinTrace ++ evs.flatMap (BusEvent.pins s.cfg.readFlag) ∧
      busOfPins none (evs.flatMap (BusEvent.pins s.cfg.readFlag)) = evs ∧
      (s.peer.kind = .simBank → s.env.answers = [] →
        t.peer.cells = bankAfter s.peer.cells evs ∧ bankAnswers s.peer.cells evs)

/-! ### setOutputPin -/

/-- R170, R172: setOutputPin updates the shadow and writes all of it once; the pin's bit is `active`, every other bit is
as before. -/
def Obligations.SetOutputPinWritesTheUpdatedShadow : Prop :=
  ∀ (s : State) (p : Nat) (b : Fin 16) (x : Bool), s.callable → s.cfg.pinBit.lookup p = some b →
    ∃ t, exec (.setOutputPin p x) s = .next t ∧
      t.gpioShadow = (if x then s.gpioShadow ||| (1#16 <<< b.val) else s.gpioShadow &&& ~~~(1#16 <<< b.val)) ∧
      t.busTrace = s.busTrace ++ [.write s.cfg.addrGpioOut t.gpioShadow] ∧
      (∀ i < 16, t.gpioShadow.getLsbD i = if i = b.val then x else s.gpioShadow.getLsbD i) ∧
      t.cfg = s.cfg ∧ t.template = s.template ∧ t.savedMask = s.savedMask ∧ t.seq = .idle ∧ t.calls = s.calls ∧
      t.output = s.output ∧ t.acc = s.acc ∧ t.env = s.env ∧ t.linesIdle ∧
      t.peer.cells = commitWrite s.cfg s.peer.kind s.peer.cells s.cfg.addrGpioOut t.gpioShadow

/-- R174: for disjoint pins the final shadow is the same in either order: both pins' bits as asked for, every other bit
as before both calls. The two bus traces differ in their intermediate value only. For the same pin the later call wins. -/
def Obligations.DisjointPinsCommute : Prop :=
  ∀ (s : State) (p q : Nat) (b d : Fin 16) (x y : Bool), s.callable →
    s.cfg.pinBit.lookup p = some b → s.cfg.pinBit.lookup q = some d →
    ∃ t1 t2 u1 u2, exec (.setOutputPin p x) s = .next t1 ∧ exec (.setOutputPin q y) t1 = .next t2 ∧
      exec (.setOutputPin q y) s = .next u1 ∧ exec (.setOutputPin p x) u1 = .next u2 ∧
      t2.busTrace = s.busTrace ++ [.write s.cfg.addrGpioOut t1.gpioShadow, .write s.cfg.addrGpioOut t2.gpioShadow] ∧
      u2.busTrace = s.busTrace ++ [.write s.cfg.addrGpioOut u1.gpioShadow, .write s.cfg.addrGpioOut u2.gpioShadow] ∧
      (p ≠ q → t2.gpioShadow = u2.gpioShadow ∧ t2.gpioShadow.getLsbD b.val = x ∧ t2.gpioShadow.getLsbD d.val = y ∧
        ∀ i < 16, i ≠ b.val → i ≠ d.val → t2.gpioShadow.getLsbD i = s.gpioShadow.getLsbD i) ∧
      (p = q → t2.gpioShadow = u1.gpioShadow)

/-- R173, V25: a direct write to the output register leaves the shadow alone, and the next setOutputPin writes the
shadow's bits over it. -/
def Obligations.DirectWriteLeavesTheShadow : Prop :=
  ∀ (s : State) (v : Word) (p : Nat) (b : Fin 16) (x : Bool), s.callable → s.cfg.pinBit.lookup p = some b →
    ∃ t u, exec (.writeRegister s.cfg.addrGpioOut.toNat v.toNat) s = .next t ∧ t.gpioShadow = s.gpioShadow ∧
      exec (.setOutputPin p x) t = .next u ∧
      u.busTrace = s.busTrace ++ [.write s.cfg.addrGpioOut v, .write s.cfg.addrGpioOut (shadowWith s.gpioShadow b x)]

/-- R49: after reset, and from then on over every call and every later poll of transmit while nothing but setOutputPin
writes `ADDR_GPIO_OUT`, the shadow is the value of the last write to that address, or `GPIO_SHADOW_INIT` if there was
none. -/
def Obligations.ShadowIsTheLastPinWrite : Prop :=
  (∀ c : Cfg, lastWrite c.addrGpioOut (some c.gpioShadowInit) (State.resetOf c).busTrace =
    some (State.resetOf c).gpioShadow) ∧
  (∀ (i : Instr) (s t : State) (evs : List BusEvent), s.Inv → exec i s = .next t → t.busTrace = s.busTrace ++ evs →
    ((∃ p x, i = .setOutputPin p x) ∨ ∀ v, .write s.cfg.addrGpioOut v ∉ evs) →
    lastWrite s.cfg.addrGpioOut (some s.cfg.gpioShadowInit) s.busTrace = some s.gpioShadow →
    lastWrite s.cfg.addrGpioOut (some s.cfg.gpioShadowInit) t.busTrace = some t.gpioShadow) ∧
  (∀ (k : Nat) (s t : State) (evs : List BusEvent), pollStatus k s = .next t → t.busTrace = s.busTrace ++ evs →
    (∀ v, .write s.cfg.addrGpioOut v ∉ evs) →
    lastWrite s.cfg.addrGpioOut (some s.cfg.gpioShadowInit) s.busTrace = some s.gpioShadow →
    lastWrite s.cfg.addrGpioOut (some s.cfg.gpioShadowInit) t.busTrace = some t.gpioShadow)

/-! ### Register Access -/

/-- R112, R182: pulseWrite is the two writes of the pulse pair and nothing between them. The register frame allows what
entry 10 says of the contract chip. -/
def Obligations.PulseWriteIsTwoConsecutiveWrites : Prop :=
  ∀ (s : State) (a : RegAddr) (base : Word) (k : Fin 16), s.callable →
    ∃ t, exec (.pulseWrite a.toNat base.toNat (2 ^ k.val)) s = .next t ∧
      t.busTrace = s.busTrace ++ [.write a (base ||| (1#16 <<< k.val)), .write a (base &&& ~~~(1#16 <<< k.val))] ∧
      t.linesIdle ∧ t.acc = s.acc ∧ t.env = s.env ∧ sameOutsideLink s t ∧
      cellFrame s.peer.kind [a] s.peer.cells t.peer.cells

/-- R185: the dump reads every address of the range once, ascending, and emits the pairs in that order. The register
frame allows what entry 10 says of the contract chip. -/
def Obligations.DumpReadsTheRangeAscending : Prop :=
  ∀ (s : State) (lo hi : Nat), s.callable → lo ≤ hi → hi < 128 →
    ∃ t, ∃ vs : List Word, exec (.readRegisterDiagnosticDump lo hi) s = .next t ∧ vs.length = hi - lo + 1 ∧
      t.busTrace = s.busTrace ++ (vs.zipIdx lo).map (fun x => .read (BitVec.ofNat 7 x.2) x.1) ∧
      t.outputTrace = s.outputTrace ++ (vs.zipIdx lo).map (fun x => .pair (BitVec.ofNat 7 x.2) x.1) ∧
      t.linesIdle ∧ t.cfg = s.cfg ∧ t.gpioShadow = s.gpioShadow ∧ t.template = s.template ∧
      t.savedMask = s.savedMask ∧ t.seq = .idle ∧ t.calls = s.calls ∧
      cellFrame s.peer.kind [] s.peer.cells t.peer.cells

/-! ### configure -/

/-- R110: the tone word is the exact product with 10.32444 rounded half up and cut to 16 bits; 1200 gives 0x3065; the
product leaves 16 bits from 6348 on; ties are the residue 12500 modulo 25000. -/
def Obligations.ToneWordIsTheRoundedProduct : Prop :=
  ∀ (c : Cfg) (b : Nat), c.kToneNum = 1032444 → c.kToneDen = 100000 →
    toneWord c b = BitVec.ofNat 16 ((b * 1032444 + 50000) / 100000) ∧
    toneWord c 1200 = 0x3065 ∧
    (65536 ≤ roundDiv (b * c.kToneNum) c.kToneDen ↔ 6348 ≤ b) ∧
    ((b * 1032444) % 100000 = 50000 ↔ b % 25000 = 12500)

/-- R109: each field of the mode word holds its parameter cut to its width, and every other bit is `MODE_BASE`'s. -/
def Obligations.ModeWordPlacesItsFields : Prop :=
  ∀ (c : Cfg) (p : ModemParameters), c.wf = true →
    (modeWord c p).extractLsb' c.txModeLsb 3 = BitVec.ofNat 3 p.txMode ∧
    (modeWord c p).extractLsb' c.rxModeLsb 3 = BitVec.ofNat 3 p.rxMode ∧
    (modeWord c p).extractLsb' c.preTypeLsb 2 = BitVec.ofNat 2 p.preambleType ∧
    (modeWord c p).extractLsb' c.rxBwLsb 3 = BitVec.ofNat 3 p.rxBandwidth ∧
    modeWord c p &&& ~~~(c.modeMasks.foldl (· ||| ·) 0) = c.modeBase

/-- R107: the length word holds bits 7:0 of the length in its 8-bit field, bits 10:8 in its 3-bit field, and zeros
elsewhere. -/
def Obligations.LengthWordSplitsTheLength : Prop :=
  ∀ (c : Cfg) (n : Nat), c.wf = true → n < 2048 →
    (lenWord c n).extractLsb' c.lenLo8Lsb 8 = BitVec.ofNat 8 n ∧
    (lenWord c n).extractLsb' c.lenHi3Lsb 3 = BitVec.ofNat 3 (n / 256) ∧
    lenWord c n &&& ~~~(fieldMask 8 c.lenLo8Lsb ||| fieldMask 3 c.lenHi3Lsb) = 0

/-- configure (R190, R196) writes its six registers in the fixed order, then the extra writes, reads nothing, and leaves
everything of BBSL but the link alone; no field value makes it refuse (R197). The order is the spec's own choice D19
(entry 21), the constant words D17, the mode fields D14, the cut of wide fields D43, and the extra writes stand in the
model's form of `CFG_EXTRA_WRITES` (entry 5). The register frame allows what entry 10 says of the contract chip. -/
def Obligations.ConfigureWritesSixRegistersInOrder : Prop :=
  ∀ (s : State) (p : ModemParameters), s.callable →
    ∃ t, exec (.configure p) s = .next t ∧
      t.busTrace = s.busTrace ++
        [.write s.cfg.addrToneEn s.cfg.toneEnValue,
         .write s.cfg.addrToneCtrl (toneWord s.cfg p.baudRate),
         .write s.cfg.addrFskMode (modeWord s.cfg p),
         .write s.cfg.addrFskSync0 (BitVec.ofNat 8 p.sync0 ++ BitVec.ofNat 8 p.sync1),
         .write s.cfg.addrFskSync1 (BitVec.ofNat 8 p.sync2 ++ BitVec.ofNat 8 p.sync3),
         .write s.cfg.addrFskCrc s.cfg.crcOffValue] ++
        (extraWrites s.cfg p).map (fun w => .write w.1 w.2) ∧
      t.linesIdle ∧ t.acc = s.acc ∧ t.env = s.env ∧ sameOutsideLink s t ∧
      cellFrame s.peer.kind (s.cfg.configureAddrs ++ (extraWrites s.cfg p).map Prod.fst) s.peer.cells t.peer.cells

/-- R201: under SimBank, with no extra writes, the six registers read back as configured and every other register is
unchanged. -/
def Obligations.ConfigureReadsBackUnderSimBank : Prop :=
  ∀ (s : State) (p : ModemParameters), s.callable → s.peer.kind = .simBank → extraWrites s.cfg p = [] →
    ∃ t, exec (.configure p) s = .next t ∧
      t.peer.cells.read s.cfg.addrToneEn.toNat = some s.cfg.toneEnValue ∧
      t.peer.cells.read s.cfg.addrToneCtrl.toNat = some (toneWord s.cfg p.baudRate) ∧
      t.peer.cells.read s.cfg.addrFskMode.toNat = some (modeWord s.cfg p) ∧
      t.peer.cells.read s.cfg.addrFskSync0.toNat = some (sync0Word p) ∧
      t.peer.cells.read s.cfg.addrFskSync1.toNat = some (sync1Word p) ∧
      t.peer.cells.read s.cfg.addrFskCrc.toNat = some s.cfg.crcOffValue ∧
      sameCellsExcept s.cfg.configureAddrs s.peer.cells t.peer.cells

/-- R198: configure's bus trace is a function of params and `Cfg` alone, without a read; a second identical call issues
the same events again, and under SimBank the registers are those the first call left. -/
def Obligations.ConfigureIsIdempotent : Prop :=
  ∃ evs : Cfg → ModemParameters → List BusEvent, ∀ (s : State) (p : ModemParameters), s.callable →
    (evs s.cfg p).length = 6 + (extraWrites s.cfg p).length ∧ readCount (evs s.cfg p) = 0 ∧
    ∃ t u, exec (.configure p) s = .next t ∧ exec (.configure p) t = .next u ∧
      t.busTrace = s.busTrace ++ evs s.cfg p ∧ u.busTrace = t.busTrace ++ evs s.cfg p ∧
      (s.peer.kind = .simBank → u.peer.cells = t.peer.cells)

/-! ### transmit -/

/-- R211: a rejected transmit is a return with no event and no change of state at all. -/
def Obligations.RejectedTransmitDoesNothing : Prop :=
  ∀ (s : State) (p : Option ModemParameters) (payload : List Byte), s.seq = .idle →
    p = none ∨ payload.length = 0 ∨ s.cfg.maxPayload < payload.length →
    exec (.transmit p payload) s = .next s

/-- An accepted transmit (R221, R223) issues the events of steps 1 to 6 and one poll; if the poll's answer has the status
bit it issues step 8 and returns, else it stands in step 7. `r` is the residual byte, which is whatever the environment
says. That one step holds all of this and leaves `SEQ` after one poll is the model's (entry 1); the length word, the
finished-only mask word and the unmasked template words are the spec's own choices D15, D26 and D27 (entries 20 and 22);
the register frame allows what entry 10 says of the contract chip. -/
def Obligations.AcceptedTransmitRunsItsSteps : Prop :=
  ∀ (s : State) (p : ModemParameters) (payload : List Byte), s.callable → s.cfg.pollLimit ≠ some 0 →
    0 < payload.length → payload.length ≤ s.cfg.maxPayload →
    ∃ t r v, exec (.transmit (some p) payload) s = .next t ∧
      t.busTrace = s.busTrace ++ transmitPrefix s.cfg payload t.template t.savedMask r ++
        [.read s.cfg.addrStatus v] ++
        (if v.getLsbD s.cfg.statusDoneBit.val then transmitSuffix s.cfg t.template else []) ∧
      t.seq = (if v.getLsbD s.cfg.statusDoneBit.val then .idle else .transmitPoll 1) ∧
      (∀ r0 rest, s.env.residuals = r0 :: rest → r = r0) ∧
      (s.peer.kind ≠ .absent →
        t.template = (answerRead s.cfg s.peer.kind s.peer.cells s.cfg.addrFskCtrl s.env).1) ∧
      t.linesIdle ∧ t.cfg = s.cfg ∧ t.gpioShadow = s.gpioShadow ∧ t.calls = s.calls ∧ t.output = s.output ∧
      cellFrame s.peer.kind
        [s.cfg.addrFskCtrl, s.cfg.addrFskLen, s.cfg.addrFskFifo, s.cfg.addrIntMask, s.cfg.addrStrobe]
        s.peer.cells t.peer.cells

/-- R218, R219: a poll is one read of the status register; with the status bit set step 8 follows and transmit returns,
else step 7 goes on. The pin trace grows by the pins of those transactions and nothing else (R152). A poll is a step of its
own (entry 1); the register frame allows what entry 10 says of the contract chip. -/
def Obligations.PollRepeatsUntilTheStatusBit : Prop :=
  ∀ (s : State) (k : Nat), s.Inv → s.seq = .transmitPoll k → pollFuelUsed s.cfg k = false →
    ∃ t v evs, step s = .next t ∧
      evs = .read s.cfg.addrStatus v :: (if v.getLsbD s.cfg.statusDoneBit.val then
          [.write s.cfg.addrStrobe s.cfg.strobeClearValue, .write s.cfg.addrFskCtrl s.template] else []) ∧
      t.busTrace = s.busTrace ++ evs ∧ t.pinTrace = s.pinTrace ++ evs.flatMap (BusEvent.pins s.cfg.readFlag) ∧
      t.seq = (if v.getLsbD s.cfg.statusDoneBit.val then .idle else .transmitPoll (k + 1)) ∧
      (s.peer.kind ≠ .absent → v = (answerRead s.cfg s.peer.kind s.peer.cells s.cfg.addrStatus s.env).1) ∧
      t.linesIdle ∧ t.cfg = s.cfg ∧ t.gpioShadow = s.gpioShadow ∧ t.template = s.template ∧
      t.savedMask = s.savedMask ∧ t.calls = s.calls ∧ t.output = s.output ∧
      cellFrame s.peer.kind [s.cfg.addrStrobe, s.cfg.addrFskCtrl] s.peer.cells t.peer.cells

/-- R222, R224: under SimBank, if the scripted answers of the status register have the status bit first at the k-th
poll, transmit returns after k polls, having made 7 + ceil(n/2) writes and 2 + k reads. That k polls are k steps, steps 1
to 6 and the first poll being one, is the model's (entry 1), and so is the script of answers (entry 12). -/
def Obligations.TransmitReturnsWhenTheChipCompletes : Prop :=
  ∀ (s : State) (p : ModemParameters) (payload : List Byte) (vs : List Word) (last : Word),
    s.callable → s.cfg.pollLimit = none → 0 < payload.length → payload.length ≤ s.cfg.maxPayload →
    s.peer.kind = .simBank → s.calls = [.named (.transmit (some p) payload)] →
    s.env.answers = (vs ++ [last]).map (fun v => (s.cfg.addrStatus, v)) →
    (∀ v ∈ vs, v.getLsbD s.cfg.statusDoneBit.val = false) → last.getLsbD s.cfg.statusDoneBit.val = true →
    ∃ t, runSteps (vs.length + 1) s = some t ∧ t.seq = .idle ∧ t.linesIdle ∧
      writeCount t.busTrace = writeCount s.busTrace + (7 + (payload.length + 1) / 2) ∧
      readCount t.busTrace = readCount s.busTrace + (2 + (vs.length + 1)) ∧
      t.env.answers = [] ∧ t.gpioShadow = s.gpioShadow

/-- R220: when transmit has returned, after however many polls, (a) the last write to FSK_CTRL carried the value read in
step 1, (b) the last write to INT_MASK the finished-only word, (c) the last write to FSK_LEN the length word, (d) the last
write to STROBE the clear value, (e) the shadow is unchanged and the lines are idle, (f) nothing was returned. -/
def Obligations.TransmitPostconditions : Prop :=
  ∀ (s : State) (p : ModemParameters) (payload : List Byte) (k : Nat) (t : State),
    s.callable → 0 < payload.length → payload.length ≤ s.cfg.maxPayload →
    s.calls = [.named (.transmit (some p) payload)] → runSteps (k + 1) s = some t → t.seq = .idle →
    (∃ rest, t.busTrace = s.busTrace ++ .read s.cfg.addrFskCtrl t.template :: rest) ∧
    lastWrite s.cfg.addrFskCtrl none t.busTrace = some t.template ∧
    lastWrite s.cfg.addrIntMask none t.busTrace = some s.cfg.intTxFinished ∧
    lastWrite s.cfg.addrFskLen none t.busTrace = some (lenWord s.cfg payload.length) ∧
    lastWrite s.cfg.addrStrobe none t.busTrace = some s.cfg.strobeClearValue ∧
    t.gpioShadow = s.gpioShadow ∧ t.linesIdle ∧ t.output = s.output

/-- R224, V57: while every poll answers without the status bit, transmit never returns: after any number of steps it
still polls, has sent nothing but the polls, and has a next step. So it is with every peer, the absent one and the contract
chip among them, whose first n answers lack the bit; and under SimBank with nothing scripted and the bit clear in the
cell, for ever. That a poll is one step is the model's (entry 1). -/
def Obligations.TransmitHangsWithoutCompletion : Prop :=
  (∀ (s : State) (k n : Nat), s.Inv → s.seq = .transmitPoll k → s.cfg.pollLimit = none →
    (∀ m < n, ∀ t, runSteps (m + 1) s = some t → t.acc.getLsbD s.cfg.statusDoneBit.val = false) →
    ∃ t, ∃ vs : List Word, runSteps n s = some t ∧ t.seq = .transmitPoll (k + n) ∧ vs.length = n ∧
      t.busTrace = s.busTrace ++ vs.map (.read s.cfg.addrStatus) ∧ t.linesIdle ∧ t.calls = s.calls ∧
      ∃ u, step t = .next u) ∧
  (∀ (s : State) (k n : Nat), s.Inv → s.seq = .transmitPoll k → s.cfg.pollLimit = none →
    s.peer.kind = .simBank → s.env.answers = [] →
    (bankCell s.peer.cells s.cfg.addrStatus).getLsbD s.cfg.statusDoneBit.val = false →
    ∃ t, runSteps n s = some t ∧ t.seq = .transmitPoll (k + n) ∧
      t.bus = List.replicate n (.read s.cfg.addrStatus (bankCell s.peer.cells s.cfg.addrStatus)) ++ s.bus ∧
      t.peer.cells = s.peer.cells)

/-- R225: a finite `POLL_LIMIT` is fuel: used up, the executor stops and reports it, and step 8 does not run; not used
up, the poll is the block's own. A transmit that runs pin by pin stops the same way before the poll's first pin event.
Polls as steps, and pin events as steps, are the model's (entries 1 and 23). -/
def Obligations.FinitePollLimitIsFuel : Prop :=
  (∀ (s : State) (k limit : Nat), s.seq = .transmitPoll k → s.cfg.pollLimit = some limit →
    (limit ≤ k → step s = .fault .pollLimitReached) ∧
    (k < limit → step s = .next (afterPoll k (memRead s.cfg.addrStatus s)))) ∧
  (∀ (s : State) (p : Option ModemParameters) (payload : List Byte) (piece : Piece) (k limit : Nat),
    s.seq = .running (.transmit p payload) ⟨pollStep payload, piece, 0, k⟩ → s.cfg.pollLimit = some limit →
    limit ≤ k → step s = .fault .pollLimitReached)

/-- R228: transmit uses params for the presence check alone. -/
def Obligations.TransmitIgnoresTheParameters : Prop :=
  ∀ (s : State) (p q : ModemParameters) (payload : List Byte),
    exec (.transmit (some p) payload) s = exec (.transmit (some q) payload) s

/-! ### The sequencer -/

/-- `SEQ` at every position (R41): a call run one pin event a step ends in the state the whole call's meaning gives, and is
refused where it is. A transmit that polls on stands at the poll's first pin event, and each later poll run pin by pin
ends as the poll's meaning says. That a step may be a whole call or one pin event is the model's (entry 1). -/
def Obligations.PinwiseRunIsTheWholeCall : Prop :=
  (∀ (s t : State) (i : Instr) (rest : List Call), (s.seq = .idle ∨ s.seq = .inTransaction) → s.calls = .pinwise i :: rest →
    exec i { s with calls := rest } = .next t →
    ((∀ k, t.seq ≠ .transmitPoll k) → ∃ n, runSteps (n + 1) s = some t) ∧
    (∀ p payload k, i = .transmit p payload → t.seq = .transmitPoll k →
      ∃ n, runSteps (n + 1) s = some (moveSeq (.running i ⟨pollStep payload, .read s.cfg.addrStatus, 0, k⟩) t))) ∧
  (∀ (s : State) (i : Instr) (rest : List Call) (r : Refusal), (s.seq = .idle ∨ s.seq = .inTransaction) →
    s.calls = .pinwise i :: rest → exec i { s with calls := rest } = .refused r → step s = .refused r) ∧
  (∀ (s t : State) (p : Option ModemParameters) (payload : List Byte) (k : Nat),
    transmitAccepted s.cfg p payload = true → pollStatus k s = .next t →
    ∃ n, runSteps (n + 1)
        (moveSeq (.running (.transmit p payload) ⟨pollStep payload, .read s.cfg.addrStatus, 0, k⟩) s) =
      some (if t.seq = .idle then t else
        moveSeq (.running (.transmit p payload) ⟨pollStep payload, .read s.cfg.addrStatus, 0, k + 1⟩) t))

/-- R41, R218: `SEQ` leaves idle for the first pin event of the operation's first step, without an event (entry 1), or
stays idle where transmit is rejected. From a position, a step is one pin event, and `SEQ` moves to the next event of the
same step; after the last one it goes to the poll again exactly if the step is the poll and its answer lacks the status
bit, and else to the step that follows in the operation's fixed order, or to rest if there is none. Where `SEQ` rests
after a primitive is the model's (entry 6). -/
def Obligations.SequencerMovesForward : Prop :=
  (∀ (s t : State) (i : Instr) (rest : List Call), (s.seq = .idle ∨ s.seq = .inTransaction) → s.calls = .pinwise i :: rest →
    step s = .next t → t.calls = rest ∧ t.pins = s.pins ∧ t.bus = s.bus ∧
      goesTo s.cfg i 0 0 { s with calls := rest } t.seq ∧
      (opStep s.cfg i 0 = none →
        t.seq = .idle ∧ ∃ p payload, i = .transmit p payload ∧ transmitAccepted s.cfg p payload = false)) ∧
  (∀ (s t : State) (op : Instr) (pos : Position), s.seq = .running op pos → step s = .next t →
    t.calls = s.calls ∧
    (pos.event < (pieceActs s.cfg pos.piece).length → ∃ e, t.pins = e :: s.pins) ∧
    (pos.event + 1 < (pieceActs s.cfg pos.piece).length → t.seq = .running op { pos with event := pos.event + 1 }) ∧
    ((pieceActs s.cfg pos.piece).length ≤ pos.event + 1 →
      (isPoll op pos.step = true ∧ t.acc.getLsbD s.cfg.statusDoneBit.val = false →
        goesTo s.cfg op pos.step (pos.polls + 1) (s.stepOver op pos) t.seq) ∧
      (isPoll op pos.step = false ∨ t.acc.getLsbD s.cfg.statusDoneBit.val = true →
        goesTo s.cfg op (pos.step + 1) pos.polls (s.stepOver op pos) t.seq)))
end

