-- ==== Sys2Proof/Laws/Bits.lean ====
section
/-! SUPPORT. Bits in wire order: shifting all the bits of a value in gives the value back, and the bits of a value
shifted in are the bits given. -/

namespace Sys2Proof

theorem getLsbD_pushBit {w : Nat} (x : BitVec w) (b : Bool) (i : Nat) :
    (pushBit x b).getLsbD i = (decide (i < w) && if i = 0 then b else x.getLsbD (i - 1)) := by
  unfold pushBit
  by_cases h : i < w
  · rcases i with _ | i
    · simp [h]
    · have hi : i < w := by omega
      simp [h, BitVec.getLsbD_eq_getElem hi]
  · simp [h, BitVec.getLsbD_of_ge _ _ (Nat.le_of_not_lt h)]

theorem getLsbD_foldl_pushBit {w : Nat} (l : List Bool) (x : BitVec w) (i : Nat) (hi : i < w) :
    (l.foldl pushBit x).getLsbD i =
      if i < l.length then l.getD (l.length - 1 - i) false else x.getLsbD (i - l.length) := by
  induction l generalizing x with
  | nil => simp
  | cons b l ih =>
    rw [List.foldl_cons, ih, getLsbD_pushBit]
    by_cases h1 : i < l.length
    · have h2 : l.length - i = (l.length - 1 - i) + 1 := by omega
      simp [h1, Nat.lt_succ_of_lt h1, h2]
    · by_cases h3 : i = l.length
      · subst h3; simp
        intro h; omega
      · have h4 : ¬ i < l.length + 1 := by omega
        have h5 : i - l.length ≠ 0 := by omega
        have h6 : i - l.length < w := by omega
        simp [h1, h4, h5, h6, Nat.sub_sub]

@[simp] theorem length_bitsMsb {w : Nat} (v : BitVec w) : (bitsMsb v).length = w := by simp [bitsMsb]

theorem getD_bitsMsb {w : Nat} (v : BitVec w) (i : Nat) (h : i < w) : (bitsMsb v).getD i false = v.getMsbD i := by
  simp [bitsMsb, h]

/-- Shifting the bits of a value in, most significant first, gives the value (R72, R105). -/
@[simp] theorem ofBitsMsb_bitsMsb {w : Nat} (v : BitVec w) : ofBitsMsb w (bitsMsb v) = v := by
  apply BitVec.eq_of_getLsbD_eq
  intro i hi
  rw [ofBitsMsb, getLsbD_foldl_pushBit _ _ _ hi]
  have h : w - 1 - i < w := by omega
  have h2 : w - 1 - (w - 1 - i) = i := by omega
  simp only [length_bitsMsb, hi, if_true, getD_bitsMsb v _ h, BitVec.getMsbD, h, decide_true, Bool.true_and, h2]

/-- A whole value shifted into a register replaces what it held (R38, R90). -/
theorem foldl_pushBit_bitsMsb {w : Nat} (v x : BitVec w) : (bitsMsb v).foldl pushBit x = v := by
  have h : (bitsMsb v).foldl pushBit x = ofBitsMsb w (bitsMsb v) := by
    apply BitVec.eq_of_getLsbD_eq
    intro i hi
    rw [ofBitsMsb, getLsbD_foldl_pushBit _ _ _ hi, getLsbD_foldl_pushBit _ _ _ hi]
    simp [hi]
  rw [h, ofBitsMsb_bitsMsb]

/-- The bits of a value made of given bits are those bits. -/
theorem bitsMsb_ofBitsMsb {w : Nat} (l : List Bool) (h : l.length = w) : bitsMsb (ofBitsMsb w l) = l := by
  subst h
  apply List.ext_getElem
  · simp
  · intro i h1 h2
    have h3 : l.length - 1 - i < l.length := by omega
    have h4 : l.length - 1 - (l.length - 1 - i) = i := by omega
    have h5 := getLsbD_foldl_pushBit l (0 : BitVec l.length) (l.length - 1 - i) h3
    rw [if_pos h3, h4, List.getD_eq_getElem _ _ h2] at h5
    simpa [bitsMsb, ofBitsMsb, BitVec.getMsbD, h2] using h5

/-- The bits of a concatenation are the bits of its parts (R101: "cmd = rw ++ addr"). -/
theorem bitsMsb_append {m n : Nat} (x : BitVec m) (y : BitVec n) : bitsMsb (x ++ y) = bitsMsb x ++ bitsMsb y := by
  apply List.ext_getElem
  · simp
  · intro i h1 h2
    simp at h1
    by_cases h : i < m
    · rw [List.getElem_append_left (by simpa using h)]
      have : n ≤ m + n - 1 - i := by omega
      have h5 : m + n - 1 - i - n = m - 1 - i := by omega
      have h6 : ¬ (m + n - 1 - i < n) := by omega
      simp [bitsMsb, BitVec.getMsbD, h1, h, BitVec.getLsbD_append, h5, h6]
    · rw [List.getElem_append_right (by simpa using Nat.le_of_not_lt h)]
      have h7 : i - m < n := by omega
      have h8 : m + n - 1 - i < n := by omega
      have h9 : m + n - 1 - i = n - 1 - (i - m) := by omega
      have h10 : n - 1 - (i - m) < n := by omega
      simp [bitsMsb, BitVec.getMsbD, h1, h7, BitVec.getLsbD_append, h9, h10]

/-- The top `k` bits of a value as a left-shifting register sends them (R143). -/
def topBits : Nat → Word → List Bool
  | 0, _ => []
  | k + 1, x => x.msb :: topBits k (x <<< 1)

theorem topBits_eq (k : Nat) (x : Word) (h : k ≤ 16) : topBits k x = (List.range k).map x.getMsbD := by
  induction k generalizing x with
  | zero => rfl
  | succ k ih =>
    rw [topBits, ih _ (by omega), List.range_succ_eq_map, List.map_cons, List.map_map]
    refine congrArg₂ List.cons (by simp [BitVec.msb]) (List.map_congr_left fun i _ => ?_)
    simp [BitVec.getMsbD_shiftLeft]

theorem topBits_16 (w : Word) : topBits 16 w = bitsMsb w := topBits_eq 16 w (Nat.le_refl _)

theorem topBits_8 (b low : Byte) : topBits 8 (b ++ low : BitVec 16) = bitsMsb b := by
  rw [topBits_eq 8 _ (by omega), bitsMsb]
  apply List.map_congr_left
  intro i hi
  have h : i < 8 := by simpa using hi
  have h6 : ¬ (15 - i < 8) := by omega
  have h5 : 15 - i - 8 = 7 - i := by omega
  have h16 : i < 16 := by omega
  have h7 := BitVec.getLsbD_append (x := b) (y := low) (i := 15 - i)
  rw [if_neg h6, h5] at h7
  simpa [BitVec.getMsbD, h, h16] using h7

end Sys2Proof
end

