-- ==== Sys2Proof/Laws/Memory.lean ====
section
/-! SUPPORT. The register bank: read after write, writes leave other cells alone, and every operation keeps the
canonical form (R50, R77). -/

namespace Sys2Proof.Machine

@[simp] theorem Memory.read_write_same (m : Memory) (a : Nat) (v : Word) : (m.write a v).read a = some v := by
  induction m with
  | nil => simp [Memory.write, Memory.read]
  | cons x m ih =>
    obtain ⟨b, w⟩ := x
    rw [Memory.write]
    split
    · simp [Memory.read]
    · split
      · simp [Memory.read]
      · next h1 h2 =>
        have : (a == b) = false := by simp [h2]
        simpa [Memory.read, List.lookup, this] using ih

theorem Memory.read_write_ne (m : Memory) {a b : Nat} (v : Word) (h : b ≠ a) : (m.write a v).read b = m.read b := by
  have hba : (b == a) = false := by simp [h]
  induction m with
  | nil => simp [Memory.write, Memory.read, List.lookup, hba]
  | cons x m ih =>
    obtain ⟨c, w⟩ := x
    rw [Memory.write]
    split
    · simp [Memory.read, List.lookup, hba]
    · split
      · next h1 h2 => subst h2; simp [Memory.read, List.lookup, hba]
      · simp only [Memory.read, List.lookup] at ih ⊢
        split <;> simp_all

theorem Memory.mem_write {m : Memory} {a : Nat} {v : Word} {x : Nat × Word} (h : x ∈ m.write a v) :
    x.1 = a ∨ x ∈ m := by
  induction m with
  | nil => simp [Memory.write] at h; simp [h]
  | cons y m ih =>
    obtain ⟨b, w⟩ := y
    rw [Memory.write] at h
    split at h
    · rcases List.mem_cons.1 h with h | h
      · simp [h]
      · exact .inr h
    · split at h
      · rcases List.mem_cons.1 h with h | h
        · simp [h]
        · exact .inr (List.mem_cons_of_mem _ h)
      · rcases List.mem_cons.1 h with h | h
        · exact .inr (by simp [h])
        · exact (ih h).imp id (List.mem_cons_of_mem _)

/-- A write keeps the canonical form. -/
theorem Memory.wf_write {m : Memory} {a : Nat} (v : Word) (h : m.wf = true) (ha : a < 128) :
    (m.write a v).wf = true := by
  simp only [Memory.wf, Bool.and_eq_true, decide_eq_true_eq, List.all_eq_true] at h ⊢
  obtain ⟨h1, h2⟩ := h
  refine ⟨?_, fun x hx => ?_⟩
  · induction m with
    | nil => simp [Memory.write]
    | cons y m ih =>
      obtain ⟨b, w⟩ := y
      have hm := ih (List.pairwise_cons.1 h1).2 (fun x hx => h2 x (List.mem_cons_of_mem _ hx))
      rw [Memory.write]
      split
      · next hab =>
        refine List.pairwise_cons.2 ⟨fun x hx => ?_, h1⟩
        rcases List.mem_cons.1 hx with rfl | hx
        · exact hab
        · exact Nat.lt_trans hab ((List.pairwise_cons.1 h1).1 x hx)
      · split
        · next hab => subst hab; exact List.pairwise_cons.2 ⟨(List.pairwise_cons.1 h1).1, (List.pairwise_cons.1 h1).2⟩
        · next h3 h4 =>
          refine List.pairwise_cons.2 ⟨fun x hx => ?_, hm⟩
          rcases Memory.mem_write hx with hx | hx
          · rw [hx]; omega
          · exact (List.pairwise_cons.1 h1).1 x hx
  · rcases Memory.mem_write hx with hx | hx
    · simpa [hx] using ha
    · exact h2 x hx

/-- Below the first entry of a canonical list nothing is listed. -/
theorem Memory.read_of_lt {m : Memory} {a : Nat} (h : ∀ x ∈ m, a < x.1) : m.read a = none := by
  induction m with
  | nil => rfl
  | cons x m ih =>
    obtain ⟨n, q⟩ := x
    have hn : a < n := h (n, q) (by simp)
    have hne : (a == n) = false := by simp; omega
    simp only [Memory.read, List.lookup, hne] at ih ⊢
    exact ih fun y hy => h y (by simp [hy])

/-- Canonical lists that read alike are equal (the point of the canonical form). -/
theorem Memory.ext : ∀ {m m' : Memory}, m.Pairwise (fun x y => x.1 < y.1) → m'.Pairwise (fun x y => x.1 < y.1) →
    (∀ a, m.read a = m'.read a) → m = m'
  | [], [], _, _, _ => rfl
  | [], (a, v) :: m', _, _, h => by have := h a; simp [Memory.read, List.lookup] at this
  | (a, v) :: m, [], _, _, h => by have := h a; simp [Memory.read, List.lookup] at this
  | (a, v) :: m, (b, w) :: m', h1, h2, h => by
    obtain ⟨h11, h12⟩ := List.pairwise_cons.1 h1
    obtain ⟨h21, h22⟩ := List.pairwise_cons.1 h2
    have low : ∀ {c d : Nat} {u : Word} {l : Memory}, c < d → (∀ x ∈ l, d < x.1) →
        Memory.read ((d, u) :: l) c = none := by
      intro c d u l hc hl
      apply Memory.read_of_lt
      intro x hx
      rcases List.mem_cons.1 hx with rfl | hx
      · exact hc
      · exact Nat.lt_trans hc (hl x hx)
    have hab : a = b := by
      rcases Nat.lt_trichotomy a b with hl | hl | hl
      · have := h a
        rw [low hl h21] at this
        simp [Memory.read, List.lookup] at this
      · exact hl
      · have := h b
        rw [low hl h11] at this
        simp [Memory.read, List.lookup] at this
    subst hab
    have hvw : v = w := by have := h a; simpa [Memory.read, List.lookup] using this
    subst hvw
    congr 1
    apply Memory.ext h12 h22
    intro x
    by_cases hx : x = a
    · subst hx
      rw [Memory.read_of_lt h11, Memory.read_of_lt h21]
    · have := h x
      have hne : (x == a) = false := by simp [hx]
      simpa [Memory.read, List.lookup, hne] using this

/-- A write that reaches the bank keeps its canonical form, whatever the peer (R78). -/
theorem commitWrite_wf (c : Cfg) (k : PeerKind) {m : Memory} (a : RegAddr) (v : Word) (h : m.wf = true) :
    (commitWrite c k m a v).wf = true := by
  have ha : a.toNat < 128 := a.isLt
  unfold commitWrite
  cases k
  · simp only
    split
    · rfl
    · split
      · exact h
      · exact Memory.wf_write v h ha
  · exact Memory.wf_write v h ha
  · exact h

/-- A read keeps the canonical form (R80). -/
theorem commitRead_wf (c : Cfg) (k : PeerKind) {m : Memory} (a : RegAddr) (h : m.wf = true) :
    (commitRead c k m a).wf = true := by
  unfold commitRead
  cases k
  · simp only
    split
    · exact h
    · rfl
  · exact h
  · exact h

end Sys2Proof.Machine
end

