-- ==== Sys2Proof/Laws/State.lean ====
section
/-! SUPPORT. Beside State: one lemma per field per named update, so that no proof unfolds a record update. -/

namespace Sys2Proof.Machine

variable (s : State)

@[simp] theorem waitUnits_cfg (n : Nat) : (waitUnits n s).cfg = s.cfg := rfl
@[simp] theorem waitUnits_sel (n : Nat) : (waitUnits n s).sel = s.sel := rfl
@[simp] theorem waitUnits_clk (n : Nat) : (waitUnits n s).clk = s.clk := rfl
@[simp] theorem waitUnits_datOut (n : Nat) : (waitUnits n s).datOut = s.datOut := rfl
@[simp] theorem waitUnits_datDir (n : Nat) : (waitUnits n s).datDir = s.datDir := rfl
@[simp] theorem waitUnits_sro (n : Nat) : (waitUnits n s).sro = s.sro := rfl
@[simp] theorem waitUnits_bitcnt (n : Nat) : (waitUnits n s).bitcnt = s.bitcnt := rfl
@[simp] theorem waitUnits_acc (n : Nat) : (waitUnits n s).acc = s.acc := rfl
@[simp] theorem waitUnits_gpioShadow (n : Nat) : (waitUnits n s).gpioShadow = s.gpioShadow := rfl
@[simp] theorem waitUnits_template (n : Nat) : (waitUnits n s).template = s.template := rfl
@[simp] theorem waitUnits_savedMask (n : Nat) : (waitUnits n s).savedMask = s.savedMask := rfl
@[simp] theorem waitUnits_seq (n : Nat) : (waitUnits n s).seq = s.seq := rfl
@[simp] theorem waitUnits_peer (n : Nat) : (waitUnits n s).peer = s.peer := rfl
@[simp] theorem waitUnits_env (n : Nat) : (waitUnits n s).env = s.env := rfl
@[simp] theorem waitUnits_calls (n : Nat) : (waitUnits n s).calls = s.calls := rfl
@[simp] theorem waitUnits_pins (n : Nat) : (waitUnits n s).pins = .wait n :: s.pins := rfl
@[simp] theorem waitUnits_bus (n : Nat) : (waitUnits n s).bus = s.bus := rfl
@[simp] theorem waitUnits_output (n : Nat) : (waitUnits n s).output = s.output := rfl

@[simp] theorem driveSel_cfg (x : Select) : (driveSel x s).cfg = s.cfg := rfl
@[simp] theorem driveSel_sel (x : Select) : (driveSel x s).sel = x := rfl
@[simp] theorem driveSel_clk (x : Select) : (driveSel x s).clk = s.clk := rfl
@[simp] theorem driveSel_datOut (x : Select) : (driveSel x s).datOut = s.datOut := rfl
@[simp] theorem driveSel_datDir (x : Select) : (driveSel x s).datDir = s.datDir := rfl
@[simp] theorem driveSel_sro (x : Select) : (driveSel x s).sro = s.sro := rfl
@[simp] theorem driveSel_bitcnt (x : Select) : (driveSel x s).bitcnt = s.bitcnt := rfl
@[simp] theorem driveSel_acc (x : Select) : (driveSel x s).acc = s.acc := rfl
@[simp] theorem driveSel_gpioShadow (x : Select) : (driveSel x s).gpioShadow = s.gpioShadow := rfl
@[simp] theorem driveSel_template (x : Select) : (driveSel x s).template = s.template := rfl
@[simp] theorem driveSel_savedMask (x : Select) : (driveSel x s).savedMask = s.savedMask := rfl
@[simp] theorem driveSel_seq (x : Select) : (driveSel x s).seq = s.seq := rfl
@[simp] theorem driveSel_env (x : Select) : (driveSel x s).env = s.env := rfl
@[simp] theorem driveSel_calls (x : Select) : (driveSel x s).calls = s.calls := rfl
@[simp] theorem driveSel_pins (x : Select) : (driveSel x s).pins = .sel x :: s.pins := rfl
@[simp] theorem driveSel_bus (x : Select) : (driveSel x s).bus = s.bus := rfl
@[simp] theorem driveSel_output (x : Select) : (driveSel x s).output = s.output := rfl

@[simp] theorem driveClk_cfg (b : Bool) : (driveClk b s).cfg = s.cfg := rfl
@[simp] theorem driveClk_sel (b : Bool) : (driveClk b s).sel = s.sel := rfl
@[simp] theorem driveClk_clk (b : Bool) : (driveClk b s).clk = b := rfl
@[simp] theorem driveClk_datOut (b : Bool) : (driveClk b s).datOut = s.datOut := rfl
@[simp] theorem driveClk_datDir (b : Bool) : (driveClk b s).datDir = s.datDir := rfl
@[simp] theorem driveClk_sro (b : Bool) : (driveClk b s).sro = s.sro := rfl
@[simp] theorem driveClk_bitcnt (b : Bool) : (driveClk b s).bitcnt = s.bitcnt := rfl
@[simp] theorem driveClk_acc (b : Bool) : (driveClk b s).acc = s.acc := rfl
@[simp] theorem driveClk_gpioShadow (b : Bool) : (driveClk b s).gpioShadow = s.gpioShadow := rfl
@[simp] theorem driveClk_template (b : Bool) : (driveClk b s).template = s.template := rfl
@[simp] theorem driveClk_savedMask (b : Bool) : (driveClk b s).savedMask = s.savedMask := rfl
@[simp] theorem driveClk_seq (b : Bool) : (driveClk b s).seq = s.seq := rfl
@[simp] theorem driveClk_peer (b : Bool) : (driveClk b s).peer = (clockEdge b s).1 := rfl
@[simp] theorem driveClk_env (b : Bool) : (driveClk b s).env = (clockEdge b s).2 := rfl
@[simp] theorem driveClk_calls (b : Bool) : (driveClk b s).calls = s.calls := rfl
@[simp] theorem driveClk_pins (b : Bool) : (driveClk b s).pins = .clk b :: s.pins := rfl
@[simp] theorem driveClk_bus (b : Bool) : (driveClk b s).bus = s.bus := rfl
@[simp] theorem driveClk_output (b : Bool) : (driveClk b s).output = s.output := rfl

@[simp] theorem driveDatOut_cfg (b : Bool) : (driveDatOut b s).cfg = s.cfg := rfl
@[simp] theorem driveDatOut_sel (b : Bool) : (driveDatOut b s).sel = s.sel := rfl
@[simp] theorem driveDatOut_clk (b : Bool) : (driveDatOut b s).clk = s.clk := rfl
@[simp] theorem driveDatOut_datOut (b : Bool) : (driveDatOut b s).datOut = b := rfl
@[simp] theorem driveDatOut_datDir (b : Bool) : (driveDatOut b s).datDir = s.datDir := rfl
@[simp] theorem driveDatOut_sro (b : Bool) : (driveDatOut b s).sro = s.sro := rfl
@[simp] theorem driveDatOut_bitcnt (b : Bool) : (driveDatOut b s).bitcnt = s.bitcnt := rfl
@[simp] theorem driveDatOut_acc (b : Bool) : (driveDatOut b s).acc = s.acc := rfl
@[simp] theorem driveDatOut_gpioShadow (b : Bool) : (driveDatOut b s).gpioShadow = s.gpioShadow := rfl
@[simp] theorem driveDatOut_template (b : Bool) : (driveDatOut b s).template = s.template := rfl
@[simp] theorem driveDatOut_savedMask (b : Bool) : (driveDatOut b s).savedMask = s.savedMask := rfl
@[simp] theorem driveDatOut_seq (b : Bool) : (driveDatOut b s).seq = s.seq := rfl
@[simp] theorem driveDatOut_peer (b : Bool) : (driveDatOut b s).peer = s.peer := rfl
@[simp] theorem driveDatOut_env (b : Bool) : (driveDatOut b s).env = s.env := rfl
@[simp] theorem driveDatOut_calls (b : Bool) : (driveDatOut b s).calls = s.calls := rfl
@[simp] theorem driveDatOut_pins (b : Bool) : (driveDatOut b s).pins = .datOut b :: s.pins := rfl
@[simp] theorem driveDatOut_bus (b : Bool) : (driveDatOut b s).bus = s.bus := rfl
@[simp] theorem driveDatOut_output (b : Bool) : (driveDatOut b s).output = s.output := rfl

@[simp] theorem driveDatDir_cfg (d : Dir) : (driveDatDir d s).cfg = s.cfg := rfl
@[simp] theorem driveDatDir_sel (d : Dir) : (driveDatDir d s).sel = s.sel := rfl
@[simp] theorem driveDatDir_clk (d : Dir) : (driveDatDir d s).clk = s.clk := rfl
@[simp] theorem driveDatDir_datOut (d : Dir) : (driveDatDir d s).datOut = s.datOut := rfl
@[simp] theorem driveDatDir_datDir (d : Dir) : (driveDatDir d s).datDir = d := rfl
@[simp] theorem driveDatDir_sro (d : Dir) : (driveDatDir d s).sro = s.sro := rfl
@[simp] theorem driveDatDir_bitcnt (d : Dir) : (driveDatDir d s).bitcnt = s.bitcnt := rfl
@[simp] theorem driveDatDir_acc (d : Dir) : (driveDatDir d s).acc = s.acc := rfl
@[simp] theorem driveDatDir_gpioShadow (d : Dir) : (driveDatDir d s).gpioShadow = s.gpioShadow := rfl
@[simp] theorem driveDatDir_template (d : Dir) : (driveDatDir d s).template = s.template := rfl
@[simp] theorem driveDatDir_savedMask (d : Dir) : (driveDatDir d s).savedMask = s.savedMask := rfl
@[simp] theorem driveDatDir_seq (d : Dir) : (driveDatDir d s).seq = s.seq := rfl
@[simp] theorem driveDatDir_peer (d : Dir) : (driveDatDir d s).peer = s.peer := rfl
@[simp] theorem driveDatDir_env (d : Dir) : (driveDatDir d s).env = s.env := rfl
@[simp] theorem driveDatDir_calls (d : Dir) : (driveDatDir d s).calls = s.calls := rfl
@[simp] theorem driveDatDir_pins (d : Dir) : (driveDatDir d s).pins = .datDir d :: s.pins := rfl
@[simp] theorem driveDatDir_bus (d : Dir) : (driveDatDir d s).bus = s.bus := rfl
@[simp] theorem driveDatDir_output (d : Dir) : (driveDatDir d s).output = s.output := rfl

@[simp] theorem giveHost_cfg (o : Output) : (giveHost o s).cfg = s.cfg := rfl
@[simp] theorem giveHost_sel (o : Output) : (giveHost o s).sel = s.sel := rfl
@[simp] theorem giveHost_clk (o : Output) : (giveHost o s).clk = s.clk := rfl
@[simp] theorem giveHost_datOut (o : Output) : (giveHost o s).datOut = s.datOut := rfl
@[simp] theorem giveHost_datDir (o : Output) : (giveHost o s).datDir = s.datDir := rfl
@[simp] theorem giveHost_sro (o : Output) : (giveHost o s).sro = s.sro := rfl
@[simp] theorem giveHost_bitcnt (o : Output) : (giveHost o s).bitcnt = s.bitcnt := rfl
@[simp] theorem giveHost_acc (o : Output) : (giveHost o s).acc = s.acc := rfl
@[simp] theorem giveHost_gpioShadow (o : Output) : (giveHost o s).gpioShadow = s.gpioShadow := rfl
@[simp] theorem giveHost_template (o : Output) : (giveHost o s).template = s.template := rfl
@[simp] theorem giveHost_savedMask (o : Output) : (giveHost o s).savedMask = s.savedMask := rfl
@[simp] theorem giveHost_seq (o : Output) : (giveHost o s).seq = s.seq := rfl
@[simp] theorem giveHost_peer (o : Output) : (giveHost o s).peer = s.peer := rfl
@[simp] theorem giveHost_env (o : Output) : (giveHost o s).env = s.env := rfl
@[simp] theorem giveHost_calls (o : Output) : (giveHost o s).calls = s.calls := rfl
@[simp] theorem giveHost_pins (o : Output) : (giveHost o s).pins = s.pins := rfl
@[simp] theorem giveHost_bus (o : Output) : (giveHost o s).bus = s.bus := rfl
@[simp] theorem giveHost_output (o : Output) : (giveHost o s).output = o :: s.output := rfl

@[simp] theorem logBus_cfg (e : BusEvent) : (logBus e s).cfg = s.cfg := rfl
@[simp] theorem logBus_sel (e : BusEvent) : (logBus e s).sel = s.sel := rfl
@[simp] theorem logBus_clk (e : BusEvent) : (logBus e s).clk = s.clk := rfl
@[simp] theorem logBus_datOut (e : BusEvent) : (logBus e s).datOut = s.datOut := rfl
@[simp] theorem logBus_datDir (e : BusEvent) : (logBus e s).datDir = s.datDir := rfl
@[simp] theorem logBus_sro (e : BusEvent) : (logBus e s).sro = s.sro := rfl
@[simp] theorem logBus_bitcnt (e : BusEvent) : (logBus e s).bitcnt = s.bitcnt := rfl
@[simp] theorem logBus_acc (e : BusEvent) : (logBus e s).acc = s.acc := rfl
@[simp] theorem logBus_gpioShadow (e : BusEvent) : (logBus e s).gpioShadow = s.gpioShadow := rfl
@[simp] theorem logBus_template (e : BusEvent) : (logBus e s).template = s.template := rfl
@[simp] theorem logBus_savedMask (e : BusEvent) : (logBus e s).savedMask = s.savedMask := rfl
@[simp] theorem logBus_seq (e : BusEvent) : (logBus e s).seq = s.seq := rfl
@[simp] theorem logBus_peer (e : BusEvent) : (logBus e s).peer = s.peer := rfl
@[simp] theorem logBus_env (e : BusEvent) : (logBus e s).env = s.env := rfl
@[simp] theorem logBus_calls (e : BusEvent) : (logBus e s).calls = s.calls := rfl
@[simp] theorem logBus_pins (e : BusEvent) : (logBus e s).pins = s.pins := rfl
@[simp] theorem logBus_bus (e : BusEvent) : (logBus e s).bus = e :: s.bus := rfl
@[simp] theorem logBus_output (e : BusEvent) : (logBus e s).output = s.output := rfl

@[simp] theorem logRead_cfg (a : RegAddr) : (logRead a s).cfg = s.cfg := rfl
@[simp] theorem logRead_sel (a : RegAddr) : (logRead a s).sel = s.sel := rfl
@[simp] theorem logRead_clk (a : RegAddr) : (logRead a s).clk = s.clk := rfl
@[simp] theorem logRead_datOut (a : RegAddr) : (logRead a s).datOut = s.datOut := rfl
@[simp] theorem logRead_datDir (a : RegAddr) : (logRead a s).datDir = s.datDir := rfl
@[simp] theorem logRead_sro (a : RegAddr) : (logRead a s).sro = s.sro := rfl
@[simp] theorem logRead_bitcnt (a : RegAddr) : (logRead a s).bitcnt = s.bitcnt := rfl
@[simp] theorem logRead_acc (a : RegAddr) : (logRead a s).acc = s.acc := rfl
@[simp] theorem logRead_gpioShadow (a : RegAddr) : (logRead a s).gpioShadow = s.gpioShadow := rfl
@[simp] theorem logRead_template (a : RegAddr) : (logRead a s).template = s.template := rfl
@[simp] theorem logRead_savedMask (a : RegAddr) : (logRead a s).savedMask = s.savedMask := rfl
@[simp] theorem logRead_seq (a : RegAddr) : (logRead a s).seq = s.seq := rfl
@[simp] theorem logRead_peer (a : RegAddr) : (logRead a s).peer = s.peer := rfl
@[simp] theorem logRead_env (a : RegAddr) : (logRead a s).env = s.env := rfl
@[simp] theorem logRead_calls (a : RegAddr) : (logRead a s).calls = s.calls := rfl
@[simp] theorem logRead_pins (a : RegAddr) : (logRead a s).pins = s.pins := rfl
@[simp] theorem logRead_bus (a : RegAddr) : (logRead a s).bus = .read a s.acc :: s.bus := rfl
@[simp] theorem logRead_output (a : RegAddr) : (logRead a s).output = s.output := rfl

@[simp] theorem moveSeq_cfg (q : Seq) : (moveSeq q s).cfg = s.cfg := rfl
@[simp] theorem moveSeq_sel (q : Seq) : (moveSeq q s).sel = s.sel := rfl
@[simp] theorem moveSeq_clk (q : Seq) : (moveSeq q s).clk = s.clk := rfl
@[simp] theorem moveSeq_datOut (q : Seq) : (moveSeq q s).datOut = s.datOut := rfl
@[simp] theorem moveSeq_datDir (q : Seq) : (moveSeq q s).datDir = s.datDir := rfl
@[simp] theorem moveSeq_sro (q : Seq) : (moveSeq q s).sro = s.sro := rfl
@[simp] theorem moveSeq_bitcnt (q : Seq) : (moveSeq q s).bitcnt = s.bitcnt := rfl
@[simp] theorem moveSeq_acc (q : Seq) : (moveSeq q s).acc = s.acc := rfl
@[simp] theorem moveSeq_gpioShadow (q : Seq) : (moveSeq q s).gpioShadow = s.gpioShadow := rfl
@[simp] theorem moveSeq_template (q : Seq) : (moveSeq q s).template = s.template := rfl
@[simp] theorem moveSeq_savedMask (q : Seq) : (moveSeq q s).savedMask = s.savedMask := rfl
@[simp] theorem moveSeq_seq (q : Seq) : (moveSeq q s).seq = q := rfl
@[simp] theorem moveSeq_peer (q : Seq) : (moveSeq q s).peer = s.peer := rfl
@[simp] theorem moveSeq_env (q : Seq) : (moveSeq q s).env = s.env := rfl
@[simp] theorem moveSeq_calls (q : Seq) : (moveSeq q s).calls = s.calls := rfl
@[simp] theorem moveSeq_pins (q : Seq) : (moveSeq q s).pins = s.pins := rfl
@[simp] theorem moveSeq_bus (q : Seq) : (moveSeq q s).bus = s.bus := rfl
@[simp] theorem moveSeq_output (q : Seq) : (moveSeq q s).output = s.output := rfl

@[simp] theorem keepTemplate_cfg : (keepTemplate s).cfg = s.cfg := rfl
@[simp] theorem keepTemplate_sel : (keepTemplate s).sel = s.sel := rfl
@[simp] theorem keepTemplate_clk : (keepTemplate s).clk = s.clk := rfl
@[simp] theorem keepTemplate_datOut : (keepTemplate s).datOut = s.datOut := rfl
@[simp] theorem keepTemplate_datDir : (keepTemplate s).datDir = s.datDir := rfl
@[simp] theorem keepTemplate_sro : (keepTemplate s).sro = s.sro := rfl
@[simp] theorem keepTemplate_bitcnt : (keepTemplate s).bitcnt = s.bitcnt := rfl
@[simp] theorem keepTemplate_acc : (keepTemplate s).acc = s.acc := rfl
@[simp] theorem keepTemplate_gpioShadow : (keepTemplate s).gpioShadow = s.gpioShadow := rfl
@[simp] theorem keepTemplate_template : (keepTemplate s).template = s.acc := rfl
@[simp] theorem keepTemplate_savedMask : (keepTemplate s).savedMask = s.savedMask := rfl
@[simp] theorem keepTemplate_seq : (keepTemplate s).seq = s.seq := rfl
@[simp] theorem keepTemplate_peer : (keepTemplate s).peer = s.peer := rfl
@[simp] theorem keepTemplate_env : (keepTemplate s).env = s.env := rfl
@[simp] theorem keepTemplate_calls : (keepTemplate s).calls = s.calls := rfl
@[simp] theorem keepTemplate_pins : (keepTemplate s).pins = s.pins := rfl
@[simp] theorem keepTemplate_bus : (keepTemplate s).bus = s.bus := rfl
@[simp] theorem keepTemplate_output : (keepTemplate s).output = s.output := rfl

@[simp] theorem keepMask_cfg : (keepMask s).cfg = s.cfg := rfl
@[simp] theorem keepMask_sel : (keepMask s).sel = s.sel := rfl
@[simp] theorem keepMask_clk : (keepMask s).clk = s.clk := rfl
@[simp] theorem keepMask_datOut : (keepMask s).datOut = s.datOut := rfl
@[simp] theorem keepMask_datDir : (keepMask s).datDir = s.datDir := rfl
@[simp] theorem keepMask_sro : (keepMask s).sro = s.sro := rfl
@[simp] theorem keepMask_bitcnt : (keepMask s).bitcnt = s.bitcnt := rfl
@[simp] theorem keepMask_acc : (keepMask s).acc = s.acc := rfl
@[simp] theorem keepMask_gpioShadow : (keepMask s).gpioShadow = s.gpioShadow := rfl
@[simp] theorem keepMask_template : (keepMask s).template = s.template := rfl
@[simp] theorem keepMask_savedMask : (keepMask s).savedMask = s.acc := rfl
@[simp] theorem keepMask_seq : (keepMask s).seq = s.seq := rfl
@[simp] theorem keepMask_peer : (keepMask s).peer = s.peer := rfl
@[simp] theorem keepMask_env : (keepMask s).env = s.env := rfl
@[simp] theorem keepMask_calls : (keepMask s).calls = s.calls := rfl
@[simp] theorem keepMask_pins : (keepMask s).pins = s.pins := rfl
@[simp] theorem keepMask_bus : (keepMask s).bus = s.bus := rfl
@[simp] theorem keepMask_output : (keepMask s).output = s.output := rfl

@[simp] theorem useResidual_cfg : (useResidual s).cfg = s.cfg := rfl
@[simp] theorem useResidual_sel : (useResidual s).sel = s.sel := rfl
@[simp] theorem useResidual_clk : (useResidual s).clk = s.clk := rfl
@[simp] theorem useResidual_datOut : (useResidual s).datOut = s.datOut := rfl
@[simp] theorem useResidual_datDir : (useResidual s).datDir = s.datDir := rfl
@[simp] theorem useResidual_sro : (useResidual s).sro = s.sro := rfl
@[simp] theorem useResidual_bitcnt : (useResidual s).bitcnt = s.bitcnt := rfl
@[simp] theorem useResidual_acc : (useResidual s).acc = s.acc := rfl
@[simp] theorem useResidual_gpioShadow : (useResidual s).gpioShadow = s.gpioShadow := rfl
@[simp] theorem useResidual_template : (useResidual s).template = s.template := rfl
@[simp] theorem useResidual_savedMask : (useResidual s).savedMask = s.savedMask := rfl
@[simp] theorem useResidual_seq : (useResidual s).seq = s.seq := rfl
@[simp] theorem useResidual_peer : (useResidual s).peer = s.peer := rfl
@[simp] theorem useResidual_env : (useResidual s).env = (drawByte s.env).2 := rfl
@[simp] theorem useResidual_calls : (useResidual s).calls = s.calls := rfl
@[simp] theorem useResidual_pins : (useResidual s).pins = s.pins := rfl
@[simp] theorem useResidual_bus : (useResidual s).bus = s.bus := rfl
@[simp] theorem useResidual_output : (useResidual s).output = s.output := rfl

@[simp] theorem updateShadow_cfg (b : Fin 16) (x : Bool) : (updateShadow b x s).cfg = s.cfg := rfl
@[simp] theorem updateShadow_sel (b : Fin 16) (x : Bool) : (updateShadow b x s).sel = s.sel := rfl
@[simp] theorem updateShadow_clk (b : Fin 16) (x : Bool) : (updateShadow b x s).clk = s.clk := rfl
@[simp] theorem updateShadow_datOut (b : Fin 16) (x : Bool) : (updateShadow b x s).datOut = s.datOut := rfl
@[simp] theorem updateShadow_datDir (b : Fin 16) (x : Bool) : (updateShadow b x s).datDir = s.datDir := rfl
@[simp] theorem updateShadow_sro (b : Fin 16) (x : Bool) : (updateShadow b x s).sro = s.sro := rfl
@[simp] theorem updateShadow_bitcnt (b : Fin 16) (x : Bool) : (updateShadow b x s).bitcnt = s.bitcnt := rfl
@[simp] theorem updateShadow_acc (b : Fin 16) (x : Bool) : (updateShadow b x s).acc = s.acc := rfl
@[simp] theorem updateShadow_gpioShadow (b : Fin 16) (x : Bool) : (updateShadow b x s).gpioShadow = shadowWith s.gpioShadow b x := rfl
@[simp] theorem updateShadow_template (b : Fin 16) (x : Bool) : (updateShadow b x s).template = s.template := rfl
@[simp] theorem updateShadow_savedMask (b : Fin 16) (x : Bool) : (updateShadow b x s).savedMask = s.savedMask := rfl
@[simp] theorem updateShadow_seq (b : Fin 16) (x : Bool) : (updateShadow b x s).seq = s.seq := rfl
@[simp] theorem updateShadow_peer (b : Fin 16) (x : Bool) : (updateShadow b x s).peer = s.peer := rfl
@[simp] theorem updateShadow_env (b : Fin 16) (x : Bool) : (updateShadow b x s).env = s.env := rfl
@[simp] theorem updateShadow_calls (b : Fin 16) (x : Bool) : (updateShadow b x s).calls = s.calls := rfl
@[simp] theorem updateShadow_pins (b : Fin 16) (x : Bool) : (updateShadow b x s).pins = s.pins := rfl
@[simp] theorem updateShadow_bus (b : Fin 16) (x : Bool) : (updateShadow b x s).bus = s.bus := rfl
@[simp] theorem updateShadow_output (b : Fin 16) (x : Bool) : (updateShadow b x s).output = s.output := rfl

/-- `SEL` becomes asserted: the peer's counter is cleared. -/
@[simp] theorem driveSel_peer_select (h : s.sel = .deasserted) : (driveSel .asserted s).peer = s.peer.select := by
  simp [driveSel, h]

/-- `SEL` becomes deasserted: the peer releases the line. -/
@[simp] theorem driveSel_peer_deselect (h : s.sel = .asserted) : (driveSel .deasserted s).peer = s.peer.deselect := by
  simp [driveSel, h]

end Sys2Proof.Machine
end

