-- ==== Sys2Proof/Laws/Pins.lean ====
section
/-! SUPPORT. What any sequence of pin events can do, said once: the lines, the datapath, the environment and the peer's
front end move, the pin trace grows, the bank stays canonical, and nothing else changes (R140 to R150). -/

namespace Sys2Proof.Machine

/-- The bank is canonical and the front end is in order. -/
def State.peerOk (s : State) : Prop := s.peer.cells.wf = true ∧ s.peer.ok s.sel

/-- `t` is reached from `s` by pin events. -/
structure PinStep (s t : State) : Prop where
  cfg      : t.cfg = s.cfg
  shadow   : t.gpioShadow = s.gpioShadow
  template : t.template = s.template
  mask     : t.savedMask = s.savedMask
  seq      : t.seq = s.seq
  calls    : t.calls = s.calls
  bus      : t.bus = s.bus
  output   : t.output = s.output
  kind     : t.peer.kind = s.peer.kind
  pins     : s.pins <:+ t.pins
  peerOk   : s.peerOk → t.peerOk

theorem PinStep.refl (s : State) : PinStep s s :=
  ⟨rfl, rfl, rfl, rfl, rfl, rfl, rfl, rfl, rfl, List.suffix_refl _, id⟩

theorem PinStep.trans {s t u : State} (h1 : PinStep s t) (h2 : PinStep t u) : PinStep s u :=
  ⟨h2.cfg.trans h1.cfg, h2.shadow.trans h1.shadow, h2.template.trans h1.template, h2.mask.trans h1.mask,
   h2.seq.trans h1.seq, h2.calls.trans h1.calls, h2.bus.trans h1.bus, h2.output.trans h1.output,
   h2.kind.trans h1.kind, h1.pins.trans h2.pins, h2.peerOk ∘ h1.peerOk⟩

theorem PinStep.wait (n : Nat) (s : State) : PinStep s (waitUnits n s) :=
  ⟨rfl, rfl, rfl, rfl, rfl, rfl, rfl, rfl, rfl, List.suffix_cons _ _, id⟩

theorem PinStep.datOut (b : Bool) (s : State) : PinStep s (driveDatOut b s) :=
  ⟨rfl, rfl, rfl, rfl, rfl, rfl, rfl, rfl, rfl, List.suffix_cons _ _, id⟩

theorem PinStep.datDir (d : Dir) (s : State) : PinStep s (driveDatDir d s) :=
  ⟨rfl, rfl, rfl, rfl, rfl, rfl, rfl, rfl, rfl, List.suffix_cons _ _, id⟩

theorem PinStep.sel (x : Select) (s : State) : PinStep s (driveSel x s) := by
  refine ⟨rfl, rfl, rfl, rfl, rfl, rfl, rfl, rfl, ?_, List.suffix_cons _ _, ?_⟩
  · cases x <;> cases h : s.sel <;> simp [driveSel, h, Peer.select, Peer.deselect]
  · intro h
    obtain ⟨h1, h2, h3, h4⟩ := h
    have hd : Memory.wf (if s.peer.kind = .chip ∧ ¬s.peer.edges = 24 then [] else s.peer.cells) = true := by
      split
      · rfl
      · exact h1
    cases x <;> cases hs : s.sel <;>
      simp_all [driveSel, State.peerOk, Peer.ok, Peer.select, Peer.deselect]

/-- What an edge of the clock keeps of a selected peer. -/
structure EdgeKeeps (p q : Peer) : Prop where
  kind : q.kind = p.kind
  wf   : p.cells.wf = true → q.cells.wf = true
  ok   : p.ok .asserted → q.ok .asserted

theorem EdgeKeeps.refl (p : Peer) : EdgeKeeps p p := ⟨rfl, id, id⟩

theorem rise_keeps (c : Cfg) (line : Option Bool) (p : Peer) (e : Env) : EdgeKeeps p (p.rise c line e).1 := by
  unfold Peer.rise
  split
  · exact .refl p
  · split
    · next h8 =>
      simp only [Peer.riseCommand]
      split
      · simp only [Peer.commandDone]
        split
        · exact ⟨rfl, fun h => commitRead_wf _ _ _ h, fun ⟨_, h⟩ => ⟨by simp; omega, h⟩⟩
        · exact ⟨rfl, id, fun ⟨_, h⟩ => ⟨by simp; omega, h⟩⟩
      · exact ⟨rfl, id, fun ⟨_, h⟩ => ⟨by simp; omega, h⟩⟩
    · split
      · next h24 =>
        split
        · exact ⟨rfl, id, fun ⟨_, h⟩ => ⟨by simp; omega, h⟩⟩
        · simp only [Peer.riseData]
          split
          · exact ⟨rfl, fun h => commitWrite_wf _ _ _ _ h, fun ⟨_, h⟩ => ⟨by simp; omega, h⟩⟩
          · exact ⟨rfl, id, fun ⟨_, h⟩ => ⟨by simp; omega, h⟩⟩
      · refine ⟨rfl, fun h => ?_, id⟩
        simp only [Peer.extraEdge]
        split
        · rfl
        · exact h

theorem fall_keeps (c : Cfg) (p : Peer) : EdgeKeeps p (p.fall c) := by
  unfold Peer.fall
  split
  · exact .refl p
  · split
    · split
      · exact ⟨rfl, id, fun ⟨h1, _, _⟩ => ⟨h1, by simp, by simp⟩⟩
      · next k hk =>
        refine ⟨rfl, id, fun ⟨h1, h2, _⟩ => ⟨h1, ?_, by simp⟩⟩
        intro j hj
        have := h2 _ hk
        simp at hj
        omega
      · exact .refl p
    · exact .refl p

theorem PinStep.clk (b : Bool) (s : State) : PinStep s (driveClk b s) := by
  have key : EdgeKeeps s.peer (clockEdge b s).1 ∨ (clockEdge b s).1 = s.peer := by
    unfold clockEdge
    split
    · exact .inl (rise_keeps _ _ _ _)
    · exact .inl (fall_keeps _ _)
    all_goals exact .inr rfl
  have hsel : s.sel = .deasserted → (clockEdge b s).1 = s.peer := by
    intro h; simp [clockEdge, h]
  refine ⟨rfl, rfl, rfl, rfl, rfl, rfl, rfl, rfl, ?_, List.suffix_cons _ _, ?_⟩
  · rcases key with h | h
    · exact h.kind
    · simp [h]
  · rintro ⟨h1, h2⟩
    cases hs : s.sel
    · rw [hs] at h2
      rcases key with h | h
      · exact ⟨h.wf h1, by simpa [hs] using h.ok h2⟩
      · exact ⟨by simpa [h] using h1, by simpa [h, hs] using h2⟩
    · have h := hsel hs
      exact ⟨by simpa [h] using h1, by simpa [h] using h2⟩

theorem PinStep.clockPulse (s : State) : PinStep s (clockPulse s) :=
  (((PinStep.clk true s).trans (.wait 1 _)).trans (.clk false _)).trans (.wait 1 _)

theorem PinStep.takeSample (s : State) : PinStep s (takeSample s) :=
  ⟨rfl, rfl, rfl, rfl, rfl, rfl, rfl, rfl, rfl, List.suffix_cons _ _, id⟩

theorem PinStep.shiftSro (s : State) : PinStep s (shiftSro s) :=
  ⟨rfl, rfl, rfl, rfl, rfl, rfl, rfl, rfl, rfl, List.suffix_refl _, id⟩

theorem PinStep.countCell (s : State) : PinStep s (countCell s) :=
  ⟨rfl, rfl, rfl, rfl, rfl, rfl, rfl, rfl, rfl, List.suffix_refl _, id⟩

theorem PinStep.outCell (s : State) : PinStep s (outCell s) :=
  ((((PinStep.datOut _ s).trans (.wait 1 _)).trans (.clockPulse _)).trans (.shiftSro _)).trans (.countCell _)

theorem PinStep.inCell (s : State) : PinStep s (inCell s) :=
  ((PinStep.takeSample s).trans (.clockPulse _)).trans (.countCell _)

theorem PinStep.outLoop (k : Nat) (s : State) : PinStep s (outLoop k s) := by
  induction k generalizing s with
  | zero => exact .refl s
  | succ k ih => exact (PinStep.outCell s).trans (ih _)

theorem PinStep.inLoop (k : Nat) (s : State) : PinStep s (inLoop k s) := by
  induction k generalizing s with
  | zero => exact .refl s
  | succ k ih => exact (PinStep.inCell s).trans (ih _)

theorem PinStep.loadSro (w : Word) (k : BitVec 5) (s : State) : PinStep s (loadSro w k s) :=
  ⟨rfl, rfl, rfl, rfl, rfl, rfl, rfl, rfl, rfl, List.suffix_refl _, id⟩

theorem PinStep.clearAcc (s : State) : PinStep s (clearAcc s) :=
  ⟨rfl, rfl, rfl, rfl, rfl, rfl, rfl, rfl, rfl, List.suffix_refl _, id⟩

theorem PinStep.shiftOut8 (b : Byte) (s : State) : PinStep s (shiftOut8 b s) :=
  (PinStep.loadSro _ 8 s).trans (.outLoop 8 _)

theorem PinStep.shiftOut16 (w : Word) (s : State) : PinStep s (shiftOut16 w s) :=
  (PinStep.loadSro w 16 s).trans (.outLoop 16 _)

theorem PinStep.shiftIn16 (s : State) : PinStep s (shiftIn16 s) :=
  (((PinStep.datDir .inp s).trans (.clearAcc _)).trans (.inLoop 16 _)).trans (.datDir .out _)

theorem PinStep.txnBegin (s : State) : PinStep s (txnBegin s) :=
  ((PinStep.clk false s).trans (.wait 1 _)).trans (.sel .asserted _)

theorem PinStep.txnEnd (s : State) : PinStep s (txnEnd s) :=
  (((PinStep.sel .deasserted s).trans (.wait 1 _)).trans (.clk true _)).trans (.datOut true _)

/-! Direction and lines: every primitive leaves the data line's direction out if it was out (R34). -/

@[simp] theorem clockPulse_datDir (s : State) : (clockPulse s).datDir = s.datDir := rfl

theorem outLoop_datDir (k : Nat) (s : State) : (outLoop k s).datDir = s.datDir := by
  induction k generalizing s with
  | zero => rfl
  | succ k ih => exact (ih _).trans rfl

@[simp] theorem shiftOut8_datDir (b : Byte) (s : State) : (shiftOut8 b s).datDir = s.datDir := outLoop_datDir 8 _

@[simp] theorem shiftOut16_datDir (w : Word) (s : State) : (shiftOut16 w s).datDir = s.datDir := outLoop_datDir 16 _

@[simp] theorem shiftIn16_datDir (s : State) : (shiftIn16 s).datDir = .out := rfl

@[simp] theorem txnBegin_datDir (s : State) : (txnBegin s).datDir = s.datDir := rfl

@[simp] theorem txnEnd_datDir (s : State) : (txnEnd s).datDir = s.datDir := rfl

/-- txnEnd leaves idle lines from wherever the direction is out (R146). -/
theorem txnEnd_linesIdle {s : State} (h : s.datDir = .out) : (txnEnd s).linesIdle := ⟨rfl, rfl, rfl, h⟩

end Sys2Proof.Machine
end

