-- ==== Sys2Proof/Laws/Calls.lean ====
section
/-! SUPPORT. The shared operations above the primitives, said once: when a call runs and what it was if it answered a
next state, what a transaction keeps, and what the steps of transmit and of the dump keep. Proofs about exec cite these
and unfold no transaction. -/

namespace Sys2Proof.Machine

/-! ### How a call starts -/

theorem hostCall_idle {s : State} (h : s.seq = .idle) (run : State → Host.Outcome State Fault Refusal) :
    hostCall s run = run s := by simp [hostCall, hostMayCall, h]

theorem hostCall_busy {s : State} (h : s.seq ≠ .idle) (run : State → Host.Outcome State Fault Refusal) :
    hostCall s run = .refused .busy := by simp [hostCall, hostMayCall, h]

theorem of_hostCall_next {s t : State} {run : State → Host.Outcome State Fault Refusal}
    (h : hostCall s run = .next t) : s.seq = .idle ∧ run s = .next t := by
  by_cases hq : s.seq = .idle
  · exact ⟨hq, by rwa [hostCall_idle hq] at h⟩
  · rw [hostCall_busy hq] at h; cases h

/-- A call of a primitive runs from the two positions in which the host may issue calls. -/
theorem primitiveMayRun_iff {q : Seq} : primitiveMayRun q = true ↔ q = .idle ∨ q = .inTransaction := by
  cases q <;> simp [primitiveMayRun]

theorem primitiveCall_next {s : State} (h : primitiveMayRun s.seq = true) (after : Seq) (run : State → State) :
    primitiveCall s after run = .next (moveSeq after (run s)) := by rw [primitiveCall, if_pos h]

theorem primitiveCall_busy {s : State} (h : primitiveMayRun s.seq = false) (after : Seq) (run : State → State) :
    primitiveCall s after run = .refused .busy := by simp [primitiveCall, h]

theorem of_primitiveCall_next {s t : State} {after : Seq} {run : State → State}
    (h : primitiveCall s after run = .next t) : primitiveMayRun s.seq = true ∧ t = moveSeq after (run s) := by
  by_cases hq : primitiveMayRun s.seq = true
  · rw [primitiveCall_next hq] at h
    exact ⟨hq, (Host.Outcome.next.inj h).symm⟩
  · rw [primitiveCall, if_neg hq] at h; cases h

theorem of_withOperand_next {α : Type} {x : Except Refusal α} {run : α → Host.Outcome State Fault Refusal} {t : State}
    (h : withOperand x run = .next t) : ∃ a, x = .ok a ∧ run a = .next t := by
  cases x with
  | ok a => exact ⟨a, rfl, h⟩
  | error r => cases h

@[simp] theorem withOperand_ok {α : Type} (a : α) (run : α → Host.Outcome State Fault Refusal) :
    withOperand (.ok a) run = run a := rfl

@[simp] theorem withOperand_error {α : Type} (r : Refusal) (run : α → Host.Outcome State Fault Refusal) :
    withOperand (.error r) run = .refused r := rfl

/-! ### Operands -/

@[simp] theorem addressOperand_toNat (a : RegAddr) : addressOperand a.toNat = .ok a := by
  have : wfAddress a.toNat = true := by simpa [wfAddress] using a.isLt
  rw [addressOperand, if_pos this, BitVec.ofNat_toNat]; rfl

@[simp] theorem valueOperand_toNat (v : Word) : valueOperand v.toNat = .ok v := by
  have : wfValue v.toNat = true := by simpa [wfValue] using v.isLt
  rw [valueOperand, if_pos this, BitVec.ofNat_toNat]; rfl

theorem pinOperand_of_lookup {c : Cfg} {p : Nat} {b : Fin 16} (h : c.pinBit.lookup p = some b) :
    pinOperand c p = .ok b := by rw [pinOperand, h]

theorem flagOperand_oneHot (k : Fin 16) : flagOperand (2 ^ k.val) = .ok (1#16 <<< k.val) := by
  revert k; decide

theorem rangeOperand_of_le {lo hi : Nat} (h : lo ≤ hi) (h2 : hi < 128) :
    rangeOperand lo hi = .ok (addressRange lo hi) := by
  have h3 : lo < 128 := by omega
  simp [rangeOperand, wfAddress, h, h2, h3]

/-! ### exec in its domain, one equation per operation -/

section
variable {s : State}

theorem exec_txnBegin (h : primitiveMayRun s.seq = true) :
    exec .txnBegin s = .next (moveSeq .inTransaction (txnBegin s)) := primitiveCall_next h _ _

theorem exec_shiftOut8 (h : primitiveMayRun s.seq = true) (b : Byte) :
    exec (.shiftOut8 b) s = .next (moveSeq .inTransaction (shiftOut8 b s)) := primitiveCall_next h _ _

theorem exec_shiftOut16 (h : primitiveMayRun s.seq = true) (w : Word) :
    exec (.shiftOut16 w) s = .next (moveSeq .inTransaction (shiftOut16 w s)) := primitiveCall_next h _ _

theorem exec_shiftIn16 (h : primitiveMayRun s.seq = true) :
    exec .shiftIn16 s =
      .next (moveSeq .inTransaction (giveHost (.value (shiftIn16 s).acc) (shiftIn16 s))) :=
  primitiveCall_next h .inTransaction fun s0 => giveHost (.value (shiftIn16 s0).acc) (shiftIn16 s0)

theorem exec_txnEnd (h : primitiveMayRun s.seq = true) :
    exec .txnEnd s = .next (moveSeq .idle (txnEnd s)) := primitiveCall_next h _ _

theorem exec_writeRegister (h : s.seq = .idle) (a : RegAddr) (v : Word) :
    exec (.writeRegister a.toNat v.toNat) s = .next (memWrite a v s) := by
  simp only [exec, execWriteRegister, hostCall_idle h, addressOperand_toNat, valueOperand_toNat, withOperand_ok]

theorem exec_readRegister (h : s.seq = .idle) (a : RegAddr) :
    exec (.readRegister a.toNat) s = .next (giveHost (.value (memRead a s).acc) (memRead a s)) := by
  simp only [exec, execReadRegister, hostCall_idle h, addressOperand_toNat, withOperand_ok]

theorem exec_setOutputPin (h : s.seq = .idle) {p : Nat} {b : Fin 16} (hp : s.cfg.pinBit.lookup p = some b) (x : Bool) :
    exec (.setOutputPin p x) s = .next (writeShadow (updateShadow b x s)) := by
  simp only [exec, execSetOutputPin, hostCall_idle h, pinOperand_of_lookup hp, withOperand_ok]

theorem exec_pulseWrite (h : s.seq = .idle) (a : RegAddr) (v : Word) (k : Fin 16) :
    exec (.pulseWrite a.toNat v.toNat (2 ^ k.val)) s =
      .next (memWrites [(a, v ||| (1#16 <<< k.val)), (a, v &&& ~~~(1#16 <<< k.val))] s) := by
  simp only [exec, execPulseWrite, hostCall_idle h, addressOperand_toNat, valueOperand_toNat, flagOperand_oneHot,
    withOperand_ok]

theorem exec_dump (h : s.seq = .idle) {lo hi : Nat} (h1 : lo ≤ hi) (h2 : hi < 128) :
    exec (.readRegisterDiagnosticDump lo hi) s = .next (dumpAll (addressRange lo hi) s) := by
  simp only [exec, execReadRegisterDiagnosticDump, hostCall_idle h, rangeOperand_of_le h1 h2, withOperand_ok]

theorem exec_configure (h : s.seq = .idle) (p : ModemParameters) :
    exec (.configure p) s = .next (memWrites (configureWrites s.cfg p) s) := by
  simp only [exec, execConfigure, hostCall_idle h]

theorem exec_transmit (h : s.seq = .idle) {p : Option ModemParameters} {payload : List Byte}
    (ha : transmitAccepted s.cfg p payload = true) :
    exec (.transmit p payload) s = pollStatus 0 (startTransmit payload s) := by
  simp only [exec, execTransmit, hostCall_idle h, if_pos ha]

end

/-! ### What a transaction keeps -/

/-- `t` is reached from `s` by reads and writes, and by changes of the session and the outputs between them. -/
structure Kept (s t : State) : Prop where
  cfg    : t.cfg = s.cfg
  shadow : t.gpioShadow = s.gpioShadow
  calls  : t.calls = s.calls
  kind   : t.peer.kind = s.peer.kind
  pins   : s.pins <:+ t.pins
  bus    : s.bus <:+ t.bus
  output : s.output <:+ t.output
  peerOk : s.peerOk → t.peerOk
  datDir : s.datDir = .out → t.datDir = .out

theorem Kept.refl (s : State) : Kept s s :=
  ⟨rfl, rfl, rfl, rfl, List.suffix_refl _, List.suffix_refl _, List.suffix_refl _, id, id⟩

theorem Kept.trans {s t u : State} (h1 : Kept s t) (h2 : Kept t u) : Kept s u :=
  ⟨h2.cfg.trans h1.cfg, h2.shadow.trans h1.shadow, h2.calls.trans h1.calls, h2.kind.trans h1.kind,
   h1.pins.trans h2.pins, h1.bus.trans h2.bus, h1.output.trans h2.output, h2.peerOk ∘ h1.peerOk, h2.datDir ∘ h1.datDir⟩

/-- Pin events that leave the direction out are such a change. -/
theorem Kept.of_pins {s t : State} (h : PinStep s t) (hd : s.datDir = .out → t.datDir = .out) : Kept s t :=
  ⟨h.cfg, h.shadow, h.calls, h.kind, h.pins, by rw [h.bus], by rw [h.output], h.peerOk, hd⟩

/-- A change of the sequencer, the session, the draws or the outputs alone. -/
theorem Kept.of_eq {s t : State} (h1 : t.cfg = s.cfg) (h2 : t.gpioShadow = s.gpioShadow) (h3 : t.calls = s.calls)
    (h4 : t.peer = s.peer) (h5 : t.pins = s.pins) (h6 : s.bus <:+ t.bus) (h7 : s.output <:+ t.output)
    (h8 : t.sel = s.sel) (h9 : t.datDir = s.datDir) : Kept s t :=
  ⟨h1, h2, h3, by rw [h4], by rw [h5], h6, h7, by unfold State.peerOk; rw [h4, h8]; exact id, by rw [h9]; exact id⟩

theorem Kept.moveSeq (q : Seq) (s : State) : Kept s (moveSeq q s) :=
  .of_eq rfl rfl rfl rfl rfl (List.suffix_refl _) (List.suffix_refl _) rfl rfl

theorem Kept.giveHost (o : Output) (s : State) : Kept s (giveHost o s) :=
  .of_eq rfl rfl rfl rfl rfl (List.suffix_refl _) (List.suffix_cons _ _) rfl rfl

theorem Kept.logBus (e : BusEvent) (s : State) : Kept s (logBus e s) :=
  .of_eq rfl rfl rfl rfl rfl (List.suffix_cons _ _) (List.suffix_refl _) rfl rfl

theorem Kept.keepTemplate (s : State) : Kept s (keepTemplate s) :=
  .of_eq rfl rfl rfl rfl rfl (List.suffix_refl _) (List.suffix_refl _) rfl rfl

theorem Kept.keepMask (s : State) : Kept s (keepMask s) :=
  .of_eq rfl rfl rfl rfl rfl (List.suffix_refl _) (List.suffix_refl _) rfl rfl

theorem Kept.useResidual (s : State) : Kept s (useResidual s) :=
  .of_eq rfl rfl rfl rfl rfl (List.suffix_refl _) (List.suffix_refl _) rfl rfl

/-- The pins of a write transaction (R149). -/
theorem pinStep_writeFrame (a : RegAddr) (v : Word) (s : State) :
    PinStep s (txnEnd (shiftOut16 v (shiftOut8 (writeCommand a) (txnBegin s)))) := by
  have h1 := PinStep.txnBegin s
  have h2 := PinStep.shiftOut8 (writeCommand a) (txnBegin s)
  have h3 := PinStep.shiftOut16 v (shiftOut8 (writeCommand a) (txnBegin s))
  exact ((h1.trans h2).trans h3).trans (PinStep.txnEnd _)

/-- The pins of a read transaction (R150). -/
theorem pinStep_readFrame (b : Byte) (s : State) : PinStep s (txnEnd (shiftIn16 (shiftOut8 b (txnBegin s)))) := by
  have h1 := PinStep.txnBegin s
  have h2 := PinStep.shiftOut8 b (txnBegin s)
  have h3 := PinStep.shiftIn16 (shiftOut8 b (txnBegin s))
  exact ((h1.trans h2).trans h3).trans (PinStep.txnEnd _)

theorem writeFrame_datDir (a : RegAddr) (v : Word) (s : State) :
    (txnEnd (shiftOut16 v (shiftOut8 (writeCommand a) (txnBegin s)))).datDir = s.datDir :=
  (txnEnd_datDir _).trans ((shiftOut16_datDir _ _).trans ((shiftOut8_datDir _ _).trans (txnBegin_datDir s)))

theorem readFrame_datDir (b : Byte) (s : State) :
    (txnEnd (shiftIn16 (shiftOut8 b (txnBegin s)))).datDir = .out :=
  (txnEnd_datDir _).trans (shiftIn16_datDir _)

theorem Kept.memWrite (a : RegAddr) (v : Word) (s : State) : Kept s (memWrite a v s) := by
  unfold Machine.memWrite
  exact (Kept.of_pins (pinStep_writeFrame a v s) (writeFrame_datDir a v s).trans).trans (.logBus _ _)

theorem Kept.memRead (a : RegAddr) (s : State) : Kept s (memRead a s) := by
  unfold Machine.memRead logRead
  exact (Kept.of_pins (pinStep_readFrame _ s) (fun _ => readFrame_datDir _ s)).trans (.logBus _ _)

/-- A write leaves the session, the sequencer and the outputs alone, from any state. -/
theorem memWrite_outside (a : RegAddr) (v : Word) (s : State) :
    (memWrite a v s).template = s.template ∧ (memWrite a v s).savedMask = s.savedMask ∧ (memWrite a v s).seq = s.seq ∧
    (memWrite a v s).output = s.output := by
  have h := pinStep_writeFrame a v s
  unfold memWrite
  exact ⟨h.template, h.mask, h.seq, h.output⟩

/-- A read leaves the session, the sequencer and the outputs alone, from any state. -/
theorem memRead_outside (a : RegAddr) (s : State) :
    (memRead a s).template = s.template ∧ (memRead a s).savedMask = s.savedMask ∧ (memRead a s).seq = s.seq ∧
    (memRead a s).output = s.output := by
  have h := pinStep_readFrame (readCommand s.cfg.readFlag a) s
  unfold memRead logRead
  exact ⟨h.template, h.mask, h.seq, h.output⟩

theorem linesIdle_logBus (e : BusEvent) {s : State} (h : s.linesIdle) : (logBus e s).linesIdle := h

theorem linesIdle_giveHost (o : Output) {s : State} (h : s.linesIdle) : (giveHost o s).linesIdle := h

theorem linesIdle_moveSeq (q : Seq) {s : State} (h : s.linesIdle) : (moveSeq q s).linesIdle := h

/-- A write leaves idle lines, if the direction was out (R48, R149). -/
theorem memWrite_linesIdle (a : RegAddr) (v : Word) {s : State} (h : s.datDir = .out) : (memWrite a v s).linesIdle := by
  unfold memWrite
  refine linesIdle_logBus _ (txnEnd_linesIdle ?_)
  rw [shiftOut16_datDir, shiftOut8_datDir, txnBegin_datDir, h]

/-- A read leaves idle lines (R48, R150). -/
theorem memRead_linesIdle (a : RegAddr) (s : State) : (memRead a s).linesIdle := by
  unfold memRead logRead
  exact linesIdle_logBus _ (txnEnd_linesIdle (shiftIn16_datDir _))

theorem Kept.memWrites (ws : List (RegAddr × Word)) (s : State) : Kept s (memWrites ws s) := by
  induction ws generalizing s with
  | nil => exact .refl s
  | cons w ws ih => exact (Kept.memWrite w.1 w.2 s).trans (ih _)

theorem memWrites_outside (ws : List (RegAddr × Word)) (s : State) :
    (memWrites ws s).template = s.template ∧ (memWrites ws s).savedMask = s.savedMask ∧ (memWrites ws s).seq = s.seq ∧
    (memWrites ws s).output = s.output := by
  induction ws generalizing s with
  | nil => exact ⟨rfl, rfl, rfl, rfl⟩
  | cons w ws ih =>
    obtain ⟨a1, b1, c1, d1⟩ := memWrite_outside w.1 w.2 s
    obtain ⟨a2, b2, c2, d2⟩ := ih (memWrite w.1 w.2 s)
    exact ⟨a2.trans a1, b2.trans b1, c2.trans c1, d2.trans d1⟩

theorem memWrites_linesIdle (ws : List (RegAddr × Word)) {s : State} (h : s.linesIdle) :
    (memWrites ws s).linesIdle := by
  induction ws generalizing s with
  | nil => exact h
  | cons w ws ih => exact ih (memWrite_linesIdle w.1 w.2 h.2.2.2)

/-! ### The dump (R185) -/

theorem Kept.dumpAll (as : List RegAddr) (s : State) : Kept s (dumpAll as s) := by
  induction as generalizing s with
  | nil => exact .refl s
  | cons a as ih => exact ((Kept.memRead a s).trans (.giveHost _ _)).trans (ih _)

theorem dumpAll_outside (as : List RegAddr) (s : State) :
    (dumpAll as s).template = s.template ∧ (dumpAll as s).savedMask = s.savedMask ∧ (dumpAll as s).seq = s.seq := by
  induction as generalizing s with
  | nil => exact ⟨rfl, rfl, rfl⟩
  | cons a as ih =>
    obtain ⟨a1, b1, c1, _⟩ := memRead_outside a s
    obtain ⟨a2, b2, c2⟩ := ih (dumpOne a s)
    simp only [dumpOne, giveHost_template, giveHost_savedMask, giveHost_seq] at a2 b2 c2
    exact ⟨a2.trans a1, b2.trans b1, c2.trans c1⟩

theorem dumpAll_linesIdle (as : List RegAddr) {s : State} (h : s.linesIdle) : (dumpAll as s).linesIdle := by
  induction as generalizing s with
  | nil => exact h
  | cons a as ih => exact ih (linesIdle_giveHost _ (memRead_linesIdle a s))

/-! ### The steps of transmit (R212 to R219) -/

theorem Kept.fillFifo (payload : List Byte) (s : State) : Kept s (fillFifo payload s) := by
  induction payload, s using fillFifo.induct with
  | case1 s => exact .refl s
  | case2 hi s => rw [Machine.fillFifo]; exact (Kept.useResidual s).trans (.memWrite _ _ _)
  | case3 hi lo rest s ih => rw [Machine.fillFifo]; exact (Kept.memWrite _ _ _).trans ih

theorem Kept.readTemplate (s : State) : Kept s (readTemplate s) :=
  (Kept.memRead _ s).trans (.keepTemplate _)

theorem Kept.clearFifo (s : State) : Kept s (clearFifo s) := .memWrites _ s

theorem Kept.writeLength (n : Nat) (s : State) : Kept s (writeLength n s) := .memWrite _ _ s

theorem Kept.narrowMask (s : State) : Kept s (narrowMask s) :=
  ((Kept.memRead _ s).trans (.keepMask _)).trans (.memWrite _ _ _)

theorem Kept.enableTransmit (s : State) : Kept s (enableTransmit s) := .memWrite _ _ s

theorem Kept.startTransmit (payload : List Byte) (s : State) : Kept s (startTransmit payload s) :=
  (((((Kept.readTemplate s).trans (.clearFifo _)).trans (.writeLength _ _)).trans (.fillFifo _ _)).trans
    (.narrowMask _)).trans (.enableTransmit _)

theorem Kept.afterPoll (polls : Nat) (s : State) : Kept s (afterPoll polls s) := by
  unfold Machine.afterPoll
  split
  · exact (Kept.memWrites _ s).trans (.moveSeq _ _)
  · exact .moveSeq _ s

theorem afterPoll_linesIdle (polls : Nat) {s : State} (h : s.linesIdle) : (afterPoll polls s).linesIdle := by
  unfold afterPoll
  split
  · exact linesIdle_moveSeq _ (memWrites_linesIdle _ h)
  · exact linesIdle_moveSeq _ h

/-- After a poll transmit has returned or polls on (R218, R219). -/
theorem afterPoll_seq (polls : Nat) (s : State) :
    (afterPoll polls s).seq = if statusDone s.cfg s.acc then .idle else .transmitPoll (polls + 1) := by
  unfold afterPoll
  split <;> rfl

theorem of_pollStatus_next {polls : Nat} {s t : State} (h : pollStatus polls s = .next t) :
    t = afterPoll polls (memRead s.cfg.addrStatus s) := by
  unfold pollStatus at h
  by_cases hf : pollFuelUsed s.cfg polls = true
  · rw [if_pos hf] at h; cases h
  · rw [if_neg hf] at h; exact (Host.Outcome.next.inj h).symm

theorem pollStatus_of_none {polls : Nat} {s : State} (h : s.cfg.pollLimit = none) :
    pollStatus polls s = .next (afterPoll polls (memRead s.cfg.addrStatus s)) := by
  simp [pollStatus, pollFuelUsed, h]

/-! ### Runs -/

theorem runSteps_zero (s : State) : runSteps 0 s = some s := rfl

/-- A run of any machine, one step taken. -/
theorem run_succ (M : Host.Core) (k : Nat) (s : M.State) :
    M.run (k + 1) s = match M.step s with
      | .next u => M.run k u
      | .fault r => .fault r
      | .refused r => .refused r := rfl

theorem runSteps_succ_of_next {k : Nat} {s u : State} (h : step s = .next u) : runSteps (k + 1) s = runSteps k u := by
  have hr := run_succ Sys2Proof.core k s
  rw [show Sys2Proof.core.step s = .next u from h] at hr
  exact congrArg nextState hr

theorem runSteps_add {j k : Nat} {s u : State} (h : runSteps j s = some u) : runSteps (j + k) s = runSteps k u := by
  induction j generalizing s with
  | zero => obtain rfl := Option.some.inj h; rw [Nat.zero_add]
  | succ j ih =>
    have hr := run_succ Sys2Proof.core j s
    unfold runSteps at h
    rw [hr] at h
    cases hs : step s with
    | next w =>
      rw [show Sys2Proof.core.step s = .next w from hs] at h
      rw [Nat.succ_add, runSteps_succ_of_next hs, ih h]
    | fault r => rw [show Sys2Proof.core.step s = .fault r from hs] at h; cases h
    | refused r => rw [show Sys2Proof.core.step s = .refused r from hs] at h; cases h

theorem of_runSteps_succ {k : Nat} {s t : State} (h : runSteps (k + 1) s = some t) :
    ∃ u, step s = .next u ∧ runSteps k u = some t := by
  have hr := run_succ Sys2Proof.core k s
  unfold runSteps at h
  rw [hr] at h
  cases hs : step s with
  | next u => exact ⟨u, rfl, by rw [show Sys2Proof.core.step s = .next u from hs] at h; exact h⟩
  | fault r => rw [show Sys2Proof.core.step s = .fault r from hs] at h; cases h
  | refused r => rw [show Sys2Proof.core.step s = .refused r from hs] at h; cases h

end Sys2Proof.Machine
end

