-- ==== Sys2Proof/Laws/Decode.lean ====
section
/-! SUPPORT. The decoder on the cells of each encoding (R100 to R105, R126). -/

namespace Sys2Proof

@[simp] theorem cellIsOut_out (b : Bool) : cellIsOut (.out b) = true := rfl
@[simp] theorem cellIsOut_inp (b : Bool) : cellIsOut (.inp b) = false := rfl
@[simp] theorem cellBit_out (b : Bool) : cellBit (.out b) = b := rfl
@[simp] theorem cellBit_inp (b : Bool) : cellBit (.inp b) = b := rfl

theorem map_cellBit_out (l : List Bool) : (l.map WireCell.out).map cellBit = l := by simp [Function.comp_def]

theorem map_cellBit_inp (l : List Bool) : (l.map WireCell.inp).map cellBit = l := by simp [Function.comp_def]

/-- Outgoing cells and then incoming cells split into their bits. -/
theorem splitDrivers_append (o i : List Bool) : splitDrivers (o.map WireCell.out ++ i.map WireCell.inp) = some (o, i) := by
  have ht : (o.map WireCell.out ++ i.map WireCell.inp).takeWhile cellIsOut = o.map WireCell.out := by
    induction o with
    | nil => cases i <;> simp
    | cons b o ih => simp [List.takeWhile_cons, ih]
  have hd : (o.map WireCell.out ++ i.map WireCell.inp).dropWhile cellIsOut = i.map WireCell.inp := by
    clear ht
    induction o with
    | nil => cases i <;> simp
    | cons b o ih => simpa [List.dropWhile_cons] using ih
  have ha : (i.map WireCell.inp).any cellIsOut = false := by simp
  simp only [splitDrivers, ht, hd, ha, map_cellBit_out, map_cellBit_inp]
  rfl

theorem splitDrivers_out (o : List Bool) : splitDrivers (o.map WireCell.out) = some (o, []) := by
  simpa using splitDrivers_append o []

theorem splitDrivers_inp (i : List Bool) : splitDrivers (i.map WireCell.inp) = some ([], i) := by
  simpa using splitDrivers_append [] i

/-- Whatever splits is outgoing cells and then incoming ones. -/
theorem eq_of_splitDrivers {cells : List WireCell} {o i : List Bool} (h : splitDrivers cells = some (o, i)) :
    cells = o.map WireCell.out ++ i.map WireCell.inp := by
  simp only [splitDrivers] at h
  split at h
  · cases h
  · next hn =>
    cases h
    have h1 : ∀ l : List WireCell, (l.takeWhile cellIsOut).map (WireCell.out ∘ cellBit) = l.takeWhile cellIsOut := by
      intro l
      induction l with
      | nil => rfl
      | cons c l ih => cases c <;> simp [List.takeWhile_cons, ih]
    have h2 : ∀ l : List WireCell, l.any cellIsOut = false → l.map (WireCell.inp ∘ cellBit) = l := by
      intro l
      induction l with
      | nil => intro _; rfl
      | cons c l ih => cases c <;> simp_all
    rw [List.map_map, List.map_map, h1, h2 _ (by simpa using hn), List.takeWhile_append_dropWhile]

theorem decode_out8 (b : Byte) : decode (outCells b) = .ok (.shiftOut8 b) := by
  simp [decode, outCells, splitDrivers_out]

theorem decode_out16 (w : Word) : decode (outCells w) = .ok (.shiftOut16 w) := by
  simp [decode, outCells, splitDrivers_out]

theorem decode_in16 (w : Word) : decode (inCells w) = .ok .shiftIn16 := by
  simp [decode, inCells, splitDrivers_inp]

/-- A frame that BBSL drives whole and whose bit 23 is 0 is a write (R126). -/
theorem decode_out24 (f : BitVec 24) (h : frameRw f = false) : decode (outCells f) = .ok (decodeFrame f) := by
  simp [decode, outCells, splitDrivers_out, h]

/-- A command byte with bit 7 set and sixteen incoming cells are a read (R126). -/
theorem decode_out8_in16 (b : Byte) (v : Word) (h : b.getLsbD 7 = true) :
    decode (outCells b ++ inCells v) = .ok (.readRegister ((b.setWidth 7 : RegAddr)).toNat) := by
  have hb : ofBitsMsb 24 (bitsMsb b ++ bitsMsb v) = b ++ v := by
    rw [← bitsMsb_append]; exact ofBitsMsb_bitsMsb (b ++ v)
  have h1 : frameRw (b ++ v) = true := by
    have := BitVec.getLsbD_append (x := b) (y := v) (i := 23)
    rw [frameRw, this]; simpa using h
  have h2 : frameAddr (b ++ v) = b.setWidth 7 := by
    apply BitVec.eq_of_getLsbD_eq
    intro i hi
    have := BitVec.getLsbD_append (x := b) (y := v) (i := 16 + i)
    simp only [frameAddr, BitVec.getLsbD_extractLsb', hi, decide_true, Bool.true_and, BitVec.getLsbD_setWidth]
    rw [this]
    simp
  simp [decode, outCells, inCells, splitDrivers_append, hb, h1, decodeFrame, h2]

theorem frameRw_writeFrame (a : RegAddr) (v : Word) : frameRw (writeFrame a v) = false := by
  have := BitVec.getLsbD_append (x := writeCommand a) (y := v) (i := 23)
  rw [frameRw, writeFrame, this]; simp [writeCommand]

theorem frameAddr_writeFrame (a : RegAddr) (v : Word) : frameAddr (writeFrame a v) = a := by
  apply BitVec.eq_of_getLsbD_eq
  intro i hi
  have := BitVec.getLsbD_append (x := writeCommand a) (y := v) (i := 16 + i)
  simp only [frameAddr, writeFrame, BitVec.getLsbD_extractLsb', hi, decide_true, Bool.true_and]
  rw [this]
  have : i < 8 := by omega
  simp [writeCommand, this]

theorem frameData_writeFrame (a : RegAddr) (v : Word) : frameData (writeFrame a v) = v := by
  apply BitVec.eq_of_getLsbD_eq
  intro i hi
  have := BitVec.getLsbD_append (x := writeCommand a) (y := v) (i := i)
  simp only [frameData, writeFrame, BitVec.getLsbD_extractLsb', hi, decide_true, Bool.true_and, Nat.zero_add]
  rw [this]
  simp [hi]

/-- The cells of a write frame decode to the write (R100, R126). -/
theorem decode_writeFrame (a : RegAddr) (v : Word) :
    decode (outCells (writeFrame a v)) = .ok (.writeRegister a.toNat v.toNat) := by
  rw [decode_out24 _ (frameRw_writeFrame a v), decodeFrame, frameRw_writeFrame, frameAddr_writeFrame,
    frameData_writeFrame]
  rfl

/-- The cells of a read frame decode to the read, whatever the chip answered (R100, R126). -/
theorem decode_readCells (a : RegAddr) (v : Word) : decode (readCells a v) = .ok (.readRegister a.toNat) := by
  have h : ∀ a : RegAddr, (readCommand 0x80 a).getLsbD 7 = true ∧ ((readCommand 0x80 a).setWidth 7 : RegAddr) = a := by
    decide
  rw [readCells, decode_out8_in16 _ _ (h a).1, (h a).2]

end Sys2Proof
end

