-- ==== Sys2Proof/Laws/Link.lean ====
section
/-! SUPPORT. The primitives and the two transactions in closed form: what each does to the lines, the datapath, the
traces and the peer, said once (R142 to R150). -/

namespace Sys2Proof.Machine

/-- A clock pulse at the peer while BBSL drives the line with `b` (R90). -/
def Peer.pulse (c : Cfg) (x : Peer × Env) (b : Bool) : Peer × Env :=
  ((x.1.rise c (some b) x.2).1.fall c, (x.1.rise c (some b) x.2).2)

/-- The clock pulses of a list of outgoing bits. -/
def Peer.pulses (c : Cfg) (x : Peer × Env) (bits : List Bool) : Peer × Env := bits.foldl (Peer.pulse c) x

theorem outCell_eq {s : State} (h : s.shifting) :
    outCell s = { s with
      datOut := s.sro.msb, sro := s.sro <<< 1, bitcnt := s.bitcnt - 1,
      pins := (outCellPins s.sro.msb).reverse ++ s.pins,
      peer := (Peer.pulse s.cfg (s.peer, s.env) s.sro.msb).1,
      env := (Peer.pulse s.cfg (s.peer, s.env) s.sro.msb).2 } := by
  obtain ⟨h1, h2, h3⟩ := h
  cases s
  simp only at h1 h2 h3
  subst h1 h2 h3
  rfl

theorem outLoop_eq (k : Nat) {s : State} (h : s.shifting) :
    outLoop k s = { s with
      datOut := (topBits k s.sro).getLastD s.datOut, sro := s.sro <<< k, bitcnt := s.bitcnt - BitVec.ofNat 5 k,
      pins := ((topBits k s.sro).flatMap outCellPins).reverse ++ s.pins,
      peer := (Peer.pulses s.cfg (s.peer, s.env) (topBits k s.sro)).1,
      env := (Peer.pulses s.cfg (s.peer, s.env) (topBits k s.sro)).2 } := by
  induction k generalizing s with
  | zero => simp [outLoop, topBits, Peer.pulses]
  | succ k ih =>
    have hc : s.bitcnt - 1 - BitVec.ofNat 5 k = s.bitcnt - BitVec.ofNat 5 (1 + k) := by
      rw [BitVec.sub_sub, BitVec.ofNat_add]; rfl
    rw [outLoop, outCell_eq h, ih (by exact h)]
    simp only [topBits, Peer.pulses, List.foldl_cons, List.flatMap_cons, List.reverse_append, List.append_assoc,
      BitVec.shiftLeft_add, Nat.add_comm k 1, Prod.eta, List.getLastD_cons, hc]

theorem getLastD_bitsMsb {w : Nat} (v : BitVec (w + 1)) (d : Bool) : (bitsMsb v).getLastD d = v.getLsbD 0 := by
  simp [bitsMsb, List.range_succ, BitVec.getMsbD]

/-- shiftOut8 in closed form (R143): the byte most significant bit first, eight pulses. -/
theorem shiftOut8_eq (b : Byte) {s : State} (h : s.shifting) :
    shiftOut8 b s = { s with
      datOut := b.getLsbD 0, sro := (b ++ s.sro.setWidth 8 : BitVec 16) <<< 8, bitcnt := 0,
      pins := (shiftOutPins b).reverse ++ s.pins,
      peer := (Peer.pulses s.cfg (s.peer, s.env) (bitsMsb b)).1,
      env := (Peer.pulses s.cfg (s.peer, s.env) (bitsMsb b)).2 } := by
  rw [shiftOut8, outLoop_eq 8 (by exact h)]
  simp only [loadSro, topBits_8, shiftOutPins, getLastD_bitsMsb]
  rfl

/-- shiftOut16 in closed form (R144). -/
theorem shiftOut16_eq (w : Word) {s : State} (h : s.shifting) :
    shiftOut16 w s = { s with
      datOut := w.getLsbD 0, sro := 0, bitcnt := 0,
      pins := (shiftOutPins w).reverse ++ s.pins,
      peer := (Peer.pulses s.cfg (s.peer, s.env) (bitsMsb w)).1,
      env := (Peer.pulses s.cfg (s.peer, s.env) (bitsMsb w)).2 } := by
  rw [shiftOut16, outLoop_eq 16 (by exact h)]
  have hw : w <<< 16 = 0 := by simp
  simp only [loadSro, topBits_16, shiftOutPins, getLastD_bitsMsb, hw]
  rfl

/-- An incoming cell at the environment and the peer: the sampled bit, then the pulse (R105, R90). -/
def Peer.sampleCell (c : Cfg) (x : Peer × Env) : Bool × (Peer × Env) :=
  let r := match x.1.level with
    | some b => (b, x.2)
    | none => drawBit x.2
  let q := x.1.rise c none r.2
  (r.1, (q.1.fall c, q.2))

/-- The bits that `k` incoming cells sample, and the peer and environment after them. -/
def Peer.sampleCells (c : Cfg) : Nat → Peer × Env → List Bool × (Peer × Env)
  | 0, x => ([], x)
  | k + 1, x =>
    let r := Peer.sampleCell c x
    let q := Peer.sampleCells c k r.2
    (r.1 :: q.1, q.2)

theorem inCell_eq {s : State} (h1 : s.sel = .asserted) (h2 : s.clk = false) (h3 : s.datDir = .inp) :
    inCell s = { s with
      acc := pushBit s.acc (Peer.sampleCell s.cfg (s.peer, s.env)).1, bitcnt := s.bitcnt - 1,
      pins := (inCellPins (Peer.sampleCell s.cfg (s.peer, s.env)).1).reverse ++ s.pins,
      peer := (Peer.sampleCell s.cfg (s.peer, s.env)).2.1,
      env := (Peer.sampleCell s.cfg (s.peer, s.env)).2.2 } := by
  cases s
  simp only at h1 h2 h3
  subst h1 h2 h3
  rfl

theorem inLoop_eq (k : Nat) {s : State} (h1 : s.sel = .asserted) (h2 : s.clk = false) (h3 : s.datDir = .inp) :
    inLoop k s = { s with
      acc := (Peer.sampleCells s.cfg k (s.peer, s.env)).1.foldl pushBit s.acc, bitcnt := s.bitcnt - BitVec.ofNat 5 k,
      pins := ((Peer.sampleCells s.cfg k (s.peer, s.env)).1.flatMap inCellPins).reverse ++ s.pins,
      peer := (Peer.sampleCells s.cfg k (s.peer, s.env)).2.1,
      env := (Peer.sampleCells s.cfg k (s.peer, s.env)).2.2 } := by
  induction k generalizing s with
  | zero => simp [inLoop, Peer.sampleCells]
  | succ k ih =>
    rw [inLoop, inCell_eq h1 h2 h3, ih (by exact h1) (by exact h2) (by exact h3)]
    simp only [Peer.sampleCells, List.foldl_cons, List.flatMap_cons, List.reverse_append, List.append_assoc, Prod.eta]
    congr 1
    rw [BitVec.sub_sub]
    congr 1
    apply BitVec.eq_of_toNat_eq
    simp [BitVec.toNat_ofNat, Nat.add_comm 1 k]

theorem length_sampleCells (c : Cfg) (k : Nat) (x : Peer × Env) : (Peer.sampleCells c k x).1.length = k := by
  induction k generalizing x with
  | zero => rfl
  | succ k ih => simp [Peer.sampleCells, ih]

/-- The word that sixteen incoming cells make up (R145). -/
def Peer.sampleWord (c : Cfg) (x : Peer × Env) : Word := ofBitsMsb 16 (Peer.sampleCells c 16 x).1

/-- shiftIn16 in closed form (R145): sixteen samples, first one bit 15. -/
theorem shiftIn16_eq {s : State} (h : s.shifting) :
    shiftIn16 s = { s with
      acc := Peer.sampleWord s.cfg (s.peer, s.env), bitcnt := 0,
      pins := (shiftInPins (Peer.sampleWord s.cfg (s.peer, s.env))).reverse ++ s.pins,
      peer := (Peer.sampleCells s.cfg 16 (s.peer, s.env)).2.1,
      env := (Peer.sampleCells s.cfg 16 (s.peer, s.env)).2.2 } := by
  obtain ⟨h1, h2, h3⟩ := h
  rw [shiftIn16, inLoop_eq 16 (by exact h1) (by exact h2) (by rfl)]
  simp only [driveDatDir, shiftInPins, Peer.sampleWord,
    bitsMsb_ofBitsMsb (w := 16) _ (length_sampleCells s.cfg 16 (s.peer, s.env))]
  cases s
  simp only at h1 h2 h3
  subst h1 h2 h3
  simp [ofBitsMsb, clearAcc]

/-- txnBegin in closed form (R142): the chip sees the select with the clock low. -/
theorem txnBegin_eq {s : State} (h : s.sel = .deasserted) :
    txnBegin s = { s with
      sel := .asserted, clk := false, pins := beginPins.reverse ++ s.pins, peer := s.peer.select } := by
  cases s
  simp only at h
  subst h
  rfl

/-- txnEnd in closed form (R146): the lines are idle. -/
theorem txnEnd_eq {s : State} (h : s.sel = .asserted) :
    txnEnd s = { s with
      sel := .deasserted, clk := true, datOut := true, pins := endPins.reverse ++ s.pins, peer := s.peer.deselect } := by
  cases s
  simp only at h
  subst h
  rfl

/-! ### The peer over a whole frame (R90) -/

theorem pulses_concat (c : Cfg) (x : Peer × Env) (l : List Bool) (b : Bool) :
    Peer.pulses c x (l ++ [b]) = Peer.pulse c (Peer.pulses c x l) b := by simp [Peer.pulses]

theorem pulse_command {c : Cfg} {p : Peer} (e : Env) (b : Bool) (hk : p.kind ≠ .absent) (h : p.edges < 7) :
    Peer.pulse c (p, e) b = ({ p with cmd := pushBit p.cmd b, edges := p.edges + 1 }, e) := by
  have h8 : p.edges < 8 := by omega
  have h9 : p.edges ≠ 7 := by omega
  have h10 : ¬ (8 ≤ p.edges + 1) := by omega
  simp [Peer.pulse, Peer.rise, Peer.riseCommand, lineBit, Peer.fall, hk, h8, h9, h10]

theorem pulses_command {c : Cfg} (l : List Bool) {p : Peer} (e : Env) (hk : p.kind ≠ .absent)
    (h : p.edges + l.length ≤ 7) :
    Peer.pulses c (p, e) l = ({ p with cmd := l.foldl pushBit p.cmd, edges := p.edges + l.length }, e) := by
  induction l generalizing p with
  | nil => rfl
  | cons b l ih =>
    simp only [List.length_cons] at h
    have := pulse_command (c := c) e b hk (by omega)
    rw [Peer.pulses, List.foldl_cons, this, ← Peer.pulses, ih (by exact hk) (by simp; omega)]
    simp [Nat.add_comm, Nat.add_left_comm]

theorem pulse_data {c : Cfg} {p : Peer} (e : Env) (b : Bool) (hk : p.kind ≠ .absent) (h8 : 8 ≤ p.edges)
    (h : p.edges < 23) (hw : isReadCommand c p.cmd = false) :
    Peer.pulse c (p, e) b = ({ p with data := pushBit p.data b, edges := p.edges + 1 }, e) := by
  have h1 : ¬ (p.edges < 8) := by omega
  have h2 : p.edges < 24 := by omega
  have h3 : p.edges ≠ 23 := by omega
  simp [Peer.pulse, Peer.rise, Peer.riseData, lineBit, Peer.fall, hk, h1, h2, h3, hw]

theorem pulses_data {c : Cfg} (l : List Bool) {p : Peer} (e : Env) (hk : p.kind ≠ .absent) (h8 : 8 ≤ p.edges)
    (h : p.edges + l.length ≤ 23) (hw : isReadCommand c p.cmd = false) :
    Peer.pulses c (p, e) l = ({ p with data := l.foldl pushBit p.data, edges := p.edges + l.length }, e) := by
  induction l generalizing p with
  | nil => rfl
  | cons b l ih =>
    simp only [List.length_cons] at h
    have := pulse_data (c := c) e b hk h8 (by omega) hw
    rw [Peer.pulses, List.foldl_cons, this, ← Peer.pulses, ih (by exact hk) (by simp; omega) (by simp; omega) (by exact hw)]
    simp [Nat.add_comm, Nat.add_left_comm]

theorem bitsMsb_split {w : Nat} (v : BitVec (w + 1)) :
    ∃ l b, bitsMsb v = l ++ [b] ∧ l.length = w := by
  have h : bitsMsb v ≠ [] := by
    intro h; have := congrArg List.length h; simp at this
  refine ⟨(bitsMsb v).dropLast, (bitsMsb v).getLast h, (List.dropLast_append_getLast h).symm, by simp⟩

/-- The peer after the command byte of a write: it has the byte and counts eight edges (R90). -/
theorem pulses_writeCommand {c : Cfg} (b : Byte) {p : Peer} (e : Env) (hk : p.kind ≠ .absent) (h : p.edges = 0)
    (hw : isReadCommand c b = false) :
    Peer.pulses c (p, e) (bitsMsb b) = ({ p with cmd := b, edges := 8 }, e) := by
  obtain ⟨l, x, hl, hn⟩ := bitsMsb_split b
  have hb : (l ++ [x]).foldl pushBit p.cmd = b := by rw [← hl]; exact foldl_pushBit_bitsMsb b p.cmd
  rw [List.foldl_append] at hb
  simp only [List.foldl_cons, List.foldl_nil] at hb
  rw [hl, pulses_concat, pulses_command l e hk (by omega)]
  simp [Peer.pulse, Peer.rise, Peer.riseCommand, Peer.commandDone, lineBit, Peer.fall, hk, h, hn, hb, hw]

/-- The peer after the data of a write: the bank has the word (R78, R90). -/
theorem pulses_writeData {c : Cfg} (v : Word) {p : Peer} (e : Env) (hk : p.kind ≠ .absent) (h : p.edges = 8)
    (hw : isReadCommand c p.cmd = false) :
    Peer.pulses c (p, e) (bitsMsb v) =
      ({ p with data := v, edges := 24, cells := commitWrite c p.kind p.cells (commandAddr p.cmd) v }, e) := by
  obtain ⟨l, x, hl, hn⟩ := bitsMsb_split v
  have hb : (l ++ [x]).foldl pushBit p.data = v := by rw [← hl]; exact foldl_pushBit_bitsMsb v p.data
  rw [List.foldl_append] at hb
  simp only [List.foldl_cons, List.foldl_nil] at hb
  rw [hl, pulses_concat, pulses_data l e hk (by omega) (by omega) hw]
  simp [Peer.pulse, Peer.rise, Peer.riseData, lineBit, Peer.fall, hk, h, hn, hb, hw]

/-- The peer after the command byte of a read: it has answered, and drives bit 15 (R90). -/
theorem pulses_readCommand {c : Cfg} (b : Byte) {p : Peer} (e : Env) (hk : p.kind ≠ .absent) (h : p.edges = 0)
    (hd : p.driveBit = none) (hr : isReadCommand c b = true) :
    Peer.pulses c (p, e) (bitsMsb b) =
      ({ p with
        cmd := b, edges := 8, outReg := (answerRead c p.kind p.cells (commandAddr b) e).1,
        cells := commitRead c p.kind p.cells (commandAddr b), driveBit := some 15 },
       (answerRead c p.kind p.cells (commandAddr b) e).2) := by
  obtain ⟨l, x, hl, hn⟩ := bitsMsb_split b
  have hb : (l ++ [x]).foldl pushBit p.cmd = b := by rw [← hl]; exact foldl_pushBit_bitsMsb b p.cmd
  rw [List.foldl_append] at hb
  simp only [List.foldl_cons, List.foldl_nil] at hb
  rw [hl, pulses_concat, pulses_command l e hk (by omega)]
  simp [Peer.pulse, Peer.rise, Peer.riseCommand, Peer.commandDone, lineBit, Peer.fall, hk, h, hn, hb, hr, hd]

/-- An absent peer does nothing at any edge (R89). -/
theorem pulses_absent {c : Cfg} (l : List Bool) {p : Peer} (e : Env) (hk : p.kind = .absent) :
    Peer.pulses c (p, e) l = (p, e) := by
  induction l with
  | nil => rfl
  | cons b l ih =>
    have : Peer.pulse c (p, e) b = (p, e) := by simp [Peer.pulse, Peer.rise, Peer.fall, hk]
    rw [Peer.pulses, List.foldl_cons, this, ← Peer.pulses, ih]

theorem level_driving {p : Peer} (hk : p.kind ≠ .absent) (k : Nat) (h : p.driveBit = some k) :
    p.level = some (p.outReg.getLsbD k) := by
  unfold Peer.level
  cases hk' : p.kind <;> simp_all

/-- The samples of a read while the peer drives its output register from bit `k` down (R90). -/
theorem sampleCells_driving {c : Cfg} (j : Nat) {p : Peer} (e : Env) (hk : p.kind ≠ .absent) (k : Nat)
    (h8 : 8 ≤ p.edges) (hj : p.edges + j ≤ 24) (hjk : j ≤ k + 1) (hd : p.driveBit = some k)
    (hr : isReadCommand c p.cmd = true) :
    Peer.sampleCells c j (p, e) =
      ((List.range j).map fun i => p.outReg.getLsbD (k - i),
       ({ p with edges := p.edges + j, driveBit := some (k - j) }, e)) := by
  induction j generalizing p k with
  | zero => cases p; simp_all [Peer.sampleCells]
  | succ j ih =>
    have h1 : ¬ (p.edges < 8) := by omega
    have h2 : p.edges < 24 := by omega
    have hcell : Peer.sampleCell c (p, e) =
        (p.outReg.getLsbD k, ({ p with edges := p.edges + 1, driveBit := some (k - 1) }, e)) := by
      cases k with
      | zero => simp [Peer.sampleCell, level_driving hk 0 hd, Peer.rise, Peer.fall, hk, h1, h2, hr, hd]
      | succ k => simp [Peer.sampleCell, level_driving hk _ hd, Peer.rise, Peer.fall, hk, h1, h2, hr, hd]; omega
    rw [Peer.sampleCells, hcell]
    simp only
    cases j with
    | zero => simp [Peer.sampleCells]
    | succ j =>
      rw [ih (k := k - 1) (by exact hk) (by simp; omega) (by simp; omega) (by omega) rfl (by exact hr)]
      simp only [List.range_succ_eq_map (n := j + 1), List.map_cons, List.map_map, Nat.sub_zero]
      refine Prod.ext ?_ ?_
      · simp only [List.cons.injEq, true_and]
        apply List.map_congr_left
        intro i _
        simp only [Function.comp]
        congr 1; omega
      · simp only [Prod.mk.injEq, and_true]
        congr 1
        · omega
        · congr 1; omega

/-! ### The transactions in closed form (R149, R150) -/

/-- A well-formed read flag is bit 7 (R8, R102). -/
theorem readFlag_of_wf {c : Cfg} (h : c.wf = true) : c.readFlag = 0x80 := by
  have h1 : isOneHot c.readFlag = true ∧ (c.readFlag &&& 0x7F == 0) = true := by
    simp only [Cfg.wf, Bool.and_eq_true] at h
    tauto
  have h2 : ∀ f : Byte, isOneHot f = true ∧ (f &&& 0x7F == 0) = true → f = 0x80 := by decide
  exact h2 _ h1

theorem isReadCommand_writeCommand {c : Cfg} (h : c.wf = true) (a : RegAddr) :
    isReadCommand c (writeCommand a) = false := by
  have h2 : ∀ a : RegAddr, (writeCommand a &&& 0x80 != 0) = false := by decide
  rw [isReadCommand, readFlag_of_wf h]
  exact h2 a

theorem isReadCommand_readCommand {c : Cfg} (h : c.wf = true) (a : RegAddr) :
    isReadCommand c (readCommand c.readFlag a) = true := by
  have h2 : ∀ a : RegAddr, (readCommand 0x80 a &&& 0x80 != 0) = true := by decide
  rw [isReadCommand, readFlag_of_wf h]
  exact h2 a

@[simp] theorem commandAddr_writeCommand (a : RegAddr) : commandAddr (writeCommand a) = a := by
  have h : ∀ a : RegAddr, commandAddr (writeCommand a) = a := by decide
  exact h a

theorem commandAddr_readCommand {c : Cfg} (h : c.wf = true) (a : RegAddr) :
    commandAddr (readCommand c.readFlag a) = a := by
  have h2 : ∀ a : RegAddr, commandAddr (readCommand 0x80 a) = a := by decide
  rw [readFlag_of_wf h]
  exact h2 a

/-- The peer after a write transaction. -/
def Peer.afterWrite (c : Cfg) (p : Peer) (a : RegAddr) (v : Word) : Peer :=
  if p.kind = .absent then { p with edges := 0, driveBit := none }
  else { p with
    edges := 24, cmd := writeCommand a, data := v, cells := commitWrite c p.kind p.cells a v, driveBit := none }

/-- `k` draws of an undriven line. -/
def drawBits : Nat → Env → List Bool × Env
  | 0, e => ([], e)
  | k + 1, e => ((drawBit e).1 :: (drawBits k (drawBit e).2).1, (drawBits k (drawBit e).2).2)

/-- The value a read transaction returns: the peer's answer, or sixteen draws (R86 to R89). -/
def readValue (c : Cfg) (p : Peer) (e : Env) (a : RegAddr) : Word :=
  if p.kind = .absent then ofBitsMsb 16 (drawBits 16 e).1 else (answerRead c p.kind p.cells a e).1

/-- The environment after a read transaction. -/
def envAfterRead (c : Cfg) (p : Peer) (e : Env) (a : RegAddr) : Env :=
  if p.kind = .absent then (drawBits 16 e).2 else (answerRead c p.kind p.cells a e).2

/-- The peer after a read transaction. -/
def Peer.afterRead (c : Cfg) (p : Peer) (e : Env) (a : RegAddr) : Peer :=
  if p.kind = .absent then { p with edges := 0, driveBit := none }
  else { p with
    edges := 24, cmd := readCommand c.readFlag a, outReg := (answerRead c p.kind p.cells a e).1,
    cells := commitRead c p.kind p.cells a, driveBit := none }

theorem sampleCells_absent {c : Cfg} (k : Nat) {p : Peer} (e : Env) (hk : p.kind = .absent) :
    Peer.sampleCells c k (p, e) = ((drawBits k e).1, (p, (drawBits k e).2)) := by
  induction k generalizing e with
  | zero => rfl
  | succ k ih =>
    have : Peer.sampleCell c (p, e) = ((drawBit e).1, (p, (drawBit e).2)) := by
      simp [Peer.sampleCell, Peer.level, Peer.rise, Peer.fall, hk]
    rw [Peer.sampleCells, this]
    simp [ih, drawBits]

/-- A deselect after a whole frame, or with no peer, changes no register. -/
theorem deselect_of_whole {p : Peer} (h : p.kind = .absent ∨ p.edges = 24) : p.deselect = { p with driveBit := none } := by
  have : ¬(p.kind = .chip ∧ p.edges ≠ 24) := by rintro ⟨h1, h2⟩; rcases h with h | h <;> simp_all
  rw [Peer.deselect, if_neg this]

/-- MemWrite in closed form (R149): from idle lines, one write frame, idle lines again. -/
theorem memWrite_eq (a : RegAddr) (v : Word) {s : State} (hc : s.cfg.wf = true) (hs : s.sel = .deasserted)
    (hd : s.datDir = .out) :
    memWrite a v s = { s with
      sel := .deasserted, clk := true, datOut := true, sro := 0, bitcnt := 0,
      pins := (writePins a v).reverse ++ s.pins, bus := .write a v :: s.bus,
      peer := s.peer.afterWrite s.cfg a v } := by
  have h1 : ∀ {t : State}, t.sel = .asserted → t.clk = false → t.datDir = .out → t.shifting :=
    fun h1 h2 h3 => ⟨h1, h2, h3⟩
  rw [memWrite, txnBegin_eq hs, shiftOut8_eq _ (h1 rfl rfl (by exact hd)), shiftOut16_eq _ (h1 rfl rfl (by exact hd)), txnEnd_eq rfl]
  simp only [logBus, writePins, List.reverse_append, List.append_assoc]
  by_cases hk : s.peer.kind = .absent
  · have e1 := pulses_absent (c := s.cfg) (bitsMsb (writeCommand a)) (p := s.peer.select) s.env (by exact hk)
    have e2 := pulses_absent (c := s.cfg) (bitsMsb v) (p := s.peer.select) s.env (by exact hk)
    simp only [e1, e2, Peer.afterWrite, if_pos hk]
    rw [deselect_of_whole (p := s.peer.select) (.inl hk)]
    rfl
  · have hw := isReadCommand_writeCommand hc a
    have e1 := pulses_writeCommand (c := s.cfg) (writeCommand a) (p := s.peer.select) s.env (by exact hk) rfl hw
    rw [e1]
    have e2 := pulses_writeData (c := s.cfg) v (p := { s.peer.select with cmd := writeCommand a, edges := 8 }) s.env
      (by exact hk) rfl hw
    simp only [e2, Peer.afterWrite, if_neg hk, commandAddr_writeCommand]
    rw [deselect_of_whole (.inr rfl)]
    rfl

/-- MemRead in closed form (R150): from idle lines, one read frame, the value in `ACC`, idle lines again. -/
theorem memRead_eq (a : RegAddr) {s : State} (hc : s.cfg.wf = true) (hs : s.sel = .deasserted)
    (hd : s.datDir = .out) (hb : s.peer.driveBit = none) :
    memRead a s = { s with
      sel := .deasserted, clk := true, datOut := true, bitcnt := 0,
      sro := (readCommand s.cfg.readFlag a ++ s.sro.setWidth 8 : BitVec 16) <<< 8,
      acc := readValue s.cfg s.peer s.env a,
      pins := (readPins s.cfg.readFlag a (readValue s.cfg s.peer s.env a)).reverse ++ s.pins,
      bus := .read a (readValue s.cfg s.peer s.env a) :: s.bus,
      peer := s.peer.afterRead s.cfg s.env a, env := envAfterRead s.cfg s.peer s.env a } := by
  have h1 : ∀ {t : State}, t.sel = .asserted → t.clk = false → t.datDir = .out → t.shifting :=
    fun h1 h2 h3 => ⟨h1, h2, h3⟩
  rw [memRead, txnBegin_eq hs, shiftOut8_eq _ (h1 rfl rfl (by exact hd)), shiftIn16_eq (h1 rfl rfl (by exact hd)), txnEnd_eq rfl]
  simp only [logRead, logBus, readPins, List.reverse_append, List.append_assoc]
  by_cases hk : s.peer.kind = .absent
  · have e1 := pulses_absent (c := s.cfg) (bitsMsb (readCommand s.cfg.readFlag a)) (p := s.peer.select) s.env (by exact hk)
    have e2 := sampleCells_absent (c := s.cfg) 16 (p := s.peer.select) s.env (by exact hk)
    simp only [e1, e2, Peer.sampleWord, Peer.afterRead, envAfterRead, readValue, if_pos hk]
    rw [deselect_of_whole (p := s.peer.select) (.inl hk)]
    rfl
  · have hr := isReadCommand_readCommand hc a
    have e1 := pulses_readCommand (c := s.cfg) (readCommand s.cfg.readFlag a) (p := s.peer.select) s.env (by exact hk) rfl
      (by exact hb) hr
    have e2 := sampleCells_driving (c := s.cfg) 16
      (p := { s.peer.select with
        cmd := readCommand s.cfg.readFlag a, edges := 8,
        outReg := (answerRead s.cfg s.peer.kind s.peer.cells a s.env).1,
        cells := commitRead s.cfg s.peer.kind s.peer.cells a, driveBit := some 15 })
      (answerRead s.cfg s.peer.kind s.peer.cells a s.env).2 (by exact hk) 15 (by simp) (by simp) (by omega) rfl hr
    have e3 : ∀ w : Word, ofBitsMsb 16 ((List.range 16).map fun i => w.getLsbD (15 - i)) = w := by
      intro w
      have : ((List.range 16).map fun i => w.getLsbD (15 - i)) = bitsMsb w := by
        rw [bitsMsb]
        apply List.map_congr_left
        intro i hi
        have : i < 16 := by simpa using hi
        simp [BitVec.getMsbD, this]
      rw [this, ofBitsMsb_bitsMsb]
    rw [commandAddr_readCommand hc] at e1
    simp only [Peer.select] at e1 e2
    simp only [Peer.select, e1, e2, e3, Peer.sampleWord, Peer.afterRead, envAfterRead, readValue, if_neg hk]
    rw [deselect_of_whole (.inr rfl)]

end Sys2Proof.Machine
end

