-- ==== Sys2Proof/Laws/Frames.lean ====
section
/-! SUPPORT. The frame of the register bank: what clock pulses, samples and whole transactions may change of it (R77, R83,
R90), and scripted draws. -/

namespace Sys2Proof.Machine

theorem cellFrame.refl (k : PeerKind) (as : List RegAddr) (m : Memory) : cellFrame k as m m := fun _ _ => .inl rfl

theorem cellFrame.trans {k : PeerKind} {as : List RegAddr} {m1 m2 m3 : Memory} (h1 : cellFrame k as m1 m2)
    (h2 : cellFrame k as m2 m3) : cellFrame k as m1 m3 := by
  intro b hb
  rcases h2 b hb with h | h
  · rw [h]; exact h1 b hb
  · exact .inr h

theorem cellFrame.mono {k : PeerKind} {as bs : List RegAddr} {m m' : Memory} (h : cellFrame k as m m')
    (hs : ∀ a ∈ as, a ∈ bs) : cellFrame k bs m m' := fun b hb => h b fun x => hb (hs _ x)

/-- A write that reaches the bank touches its own address alone, or makes the contract chip forget (R77). -/
theorem cellFrame_commitWrite (c : Cfg) (k : PeerKind) (m : Memory) (a : RegAddr) (v : Word) :
    cellFrame k [a] m (commitWrite c k m a v) := by
  intro b hb
  have hne : b.toNat ≠ a.toNat := fun h => hb (by simp [BitVec.eq_of_toNat_eq h])
  have hw := Memory.read_write_ne m v hne
  unfold commitWrite
  cases k
  · simp only
    by_cases h1 : (isSoftReset c a v || !hasRole c a) = true
    · rw [if_pos h1]; exact .inr ⟨trivial, rfl⟩
    · rw [if_neg h1]
      by_cases h2 : plainMask c a = 0
      · rw [if_pos h2]; exact .inl rfl
      · rw [if_neg h2]; exact .inl hw
  · exact .inl hw
  · exact .inl rfl

/-- A read changes no cell, or makes the contract chip forget (R80). -/
theorem cellFrame_commitRead (c : Cfg) (k : PeerKind) (m : Memory) (a : RegAddr) :
    cellFrame k [] m (commitRead c k m a) := by
  intro b _
  unfold commitRead
  cases k
  · simp only
    by_cases h1 : hasRole c a = true
    · rw [if_pos h1]; exact .inl rfl
    · rw [if_neg h1]; exact .inr ⟨trivial, rfl⟩
  · exact .inl rfl
  · exact .inl rfl

/-- What any number of clock edges of one selection does to the peer's bank: the counter only grows, the command byte
stands once it is complete, and the only cell that changes is the command's. -/
structure EdgeFrame (p q : Peer) : Prop where
  kind  : q.kind = p.kind
  edges : p.edges ≤ q.edges
  cmd   : 8 ≤ p.edges → q.cmd = p.cmd
  cells : cellFrame p.kind [commandAddr q.cmd] p.cells q.cells
  early : q.edges < 24 → cellFrame p.kind [] p.cells q.cells

theorem EdgeFrame.refl (p : Peer) : EdgeFrame p p :=
  ⟨rfl, Nat.le_refl _, fun _ => rfl, .refl _ _ _, fun _ => .refl _ _ _⟩

theorem EdgeFrame.trans {p q r : Peer} (h1 : EdgeFrame p q) (h2 : EdgeFrame q r) : EdgeFrame p r where
  kind := h2.kind.trans h1.kind
  edges := Nat.le_trans h1.edges h2.edges
  cmd := fun h8 => (h2.cmd (Nat.le_trans h8 h1.edges)).trans (h1.cmd h8)
  cells := by
    have e2 := h2.cells
    rw [h1.kind] at e2
    by_cases h8 : 8 ≤ q.edges
    · have e1 := h1.cells
      rw [← h2.cmd h8] at e1
      exact e1.trans e2
    · exact ((h1.early (by omega)).mono (by simp)).trans e2
  early := fun h24 => by
    have e2 := h2.early h24
    rw [h1.kind] at e2
    exact (h1.early (Nat.lt_of_le_of_lt h2.edges h24)).trans e2

theorem edgeFrame_rise (c : Cfg) (line : Option Bool) (p : Peer) (e : Env) : EdgeFrame p (p.rise c line e).1 := by
  unfold Peer.rise
  split
  · exact .refl p
  · split
    · simp only [Peer.riseCommand]
      split
      · simp only [Peer.commandDone]
        split
        · exact ⟨rfl, by simp, fun _ => by omega, (cellFrame_commitRead _ _ _ _).mono (by simp),
            fun _ => cellFrame_commitRead _ _ _ _⟩
        · exact ⟨rfl, by simp, fun _ => by omega, .refl _ _ _, fun _ => .refl _ _ _⟩
      · exact ⟨rfl, by simp, fun _ => by omega, .refl _ _ _, fun _ => .refl _ _ _⟩
    · split
      · split
        · exact ⟨rfl, by simp, fun _ => rfl, .refl _ _ _, fun _ => .refl _ _ _⟩
        · simp only [Peer.riseData]
          split
          · next h => exact ⟨rfl, by simp, fun _ => rfl, cellFrame_commitWrite _ _ _ _ _, fun h2 => by
              simp only at h h2; omega⟩
          · exact ⟨rfl, by simp, fun _ => rfl, .refl _ _ _, fun _ => .refl _ _ _⟩
      · have hx : ∀ as, cellFrame p.kind as p.cells p.extraEdge.cells := by
          intro as b _
          simp only [Peer.extraEdge]
          split
          · next h => exact .inr ⟨h, rfl⟩
          · exact .inl rfl
        exact ⟨rfl, Nat.le_refl _, fun _ => rfl, hx _, fun _ => hx _⟩

theorem edgeFrame_fall (c : Cfg) (p : Peer) : EdgeFrame p (p.fall c) := by
  unfold Peer.fall
  split
  · exact .refl p
  · split
    · split <;> exact ⟨rfl, Nat.le_refl _, fun _ => rfl, .refl _ _ _, fun _ => .refl _ _ _⟩
    · exact .refl p

/-- The pulses of outgoing cells. -/
theorem edgeFrame_pulses (c : Cfg) (l : List Bool) (p : Peer) (e : Env) : EdgeFrame p (Peer.pulses c (p, e) l).1 := by
  induction l generalizing p e with
  | nil => exact .refl p
  | cons b l ih =>
    exact ((edgeFrame_rise c (some b) p e).trans (edgeFrame_fall c _)).trans
      (ih (Peer.pulse c (p, e) b).1 (Peer.pulse c (p, e) b).2)

/-- The pulses of incoming cells. -/
theorem edgeFrame_sampleCells (c : Cfg) (k : Nat) (p : Peer) (e : Env) :
    EdgeFrame p (Peer.sampleCells c k (p, e)).2.1 := by
  induction k generalizing p e with
  | zero => exact .refl p
  | succ k ih =>
    exact ((edgeFrame_rise c none p _).trans (edgeFrame_fall c _)).trans
      (ih (Peer.sampleCell c (p, e)).2.1 (Peer.sampleCell c (p, e)).2.2)

/-- Scripted levels are what an undriven line shows (R35). -/
theorem drawBits_scripted (k : Nat) {l rest : List Bool} {e : Env} (h : e.samples = l ++ rest) (hl : l.length = k) :
    drawBits k e = (l, { e with samples := rest }) := by
  induction k generalizing l e with
  | zero =>
    obtain rfl := List.length_eq_zero_iff.1 hl
    cases e
    simp_all [drawBits]
  | succ k ih =>
    cases l with
    | nil => simp at hl
    | cons b l =>
      have hd : drawBit e = (b, { e with samples := l ++ rest }) := by simp [drawBit, h]
      simp only [drawBits, hd]
      rw [ih rfl (by simpa using hl)]

end Sys2Proof.Machine
end

