-- ==== Sys2Proof/Laws/PerInstr.lean ====
section
/-! SUPPORT. Statements about every instruction as syntax, one lemma per constructor: the cells of its encoding, where it
has one, are a whole frame or a whole shift, and BBSL drives them before the chip does (R77, R100, R117). -/

namespace Sys2Proof.Laws.EncodedCells

/-- The encoding of an instruction, if it has one, is 8, 16 or 24 cells, and no cell of BBSL follows one of the chip. -/
def Statement (i : Instr) : Prop :=
  ∀ cells, encode i = some cells →
    (cells.length = 8 ∨ cells.length = 16 ∨ cells.length = 24) ∧ (splitDrivers cells).isSome = true

theorem of_out {w : Nat} (v : BitVec w) (h : w = 8 ∨ w = 16 ∨ w = 24) :
    ((outCells v).length = 8 ∨ (outCells v).length = 16 ∨ (outCells v).length = 24) ∧
      (splitDrivers (outCells v)).isSome = true := by
  refine ⟨by simpa [outCells] using h, ?_⟩
  rw [outCells, splitDrivers_out]
  rfl

theorem of_readCells (a : RegAddr) (v : Word) :
    ((readCells a v).length = 8 ∨ (readCells a v).length = 16 ∨ (readCells a v).length = 24) ∧
      (splitDrivers (readCells a v)).isSome = true := by
  refine ⟨by simp [readCells, outCells, inCells], ?_⟩
  rw [readCells, outCells, inCells, splitDrivers_append]
  rfl

theorem writeRegister (a v : Nat) : Statement (.writeRegister a v) := by
  rintro _ ⟨⟩; exact of_out _ (by decide)

theorem readRegister (a : Nat) : Statement (.readRegister a) := by
  rintro _ ⟨⟩; exact of_readCells _ _

theorem regWrite (n v : Nat) : Statement (.regWrite n v) := by
  rintro _ ⟨⟩; exact of_out _ (by decide)

theorem regRead (n : Nat) : Statement (.regRead n) := by
  rintro _ ⟨⟩; exact of_readCells _ _

theorem txnBegin : Statement .txnBegin := by rintro _ ⟨⟩

theorem shiftOut8 (b : Byte) : Statement (.shiftOut8 b) := by
  rintro _ ⟨⟩; exact of_out _ (by decide)

theorem shiftOut16 (w : Word) : Statement (.shiftOut16 w) := by
  rintro _ ⟨⟩; exact of_out _ (by decide)

theorem shiftIn16 : Statement .shiftIn16 := by
  rintro _ ⟨⟩
  refine ⟨by simp [inCells], ?_⟩
  rw [inCells, splitDrivers_inp]
  rfl

theorem txnEnd : Statement .txnEnd := by rintro _ ⟨⟩

theorem setOutputPin (p : Nat) (x : Bool) : Statement (.setOutputPin p x) := by rintro _ ⟨⟩

theorem pulseWrite (a b f : Nat) : Statement (.pulseWrite a b f) := by rintro _ ⟨⟩

theorem readRegisterDiagnosticDump (lo hi : Nat) : Statement (.readRegisterDiagnosticDump lo hi) := by rintro _ ⟨⟩

theorem configure (p : ModemParameters) : Statement (.configure p) := by rintro _ ⟨⟩

theorem transmit (p : Option ModemParameters) (d : List Byte) : Statement (.transmit p d) := by rintro _ ⟨⟩

end Sys2Proof.Laws.EncodedCells
end

