-- ==== Sys2Proof/Laws/Sequencer.lean ====
section
/-! SUPPORT. The positions of `SEQ` (R41): the pin events of a step, run one after another, are the transaction or the
primitive they belong to; no pin event reads or writes `SEQ`; and running a step event by event ends where its next step
begins. -/

namespace Sys2Proof.Machine

/-! ### The pin events of a step, together -/

@[simp] theorem runActs_nil (s : State) : runActs [] s = s := rfl

@[simp] theorem runActs_cons (f : State → State) (acts : List (State → State)) (s : State) :
    runActs (f :: acts) s = runActs acts (f s) := rfl

theorem runActs_append (xs ys : List (State → State)) (s : State) :
    runActs (xs ++ ys) s = runActs ys (runActs xs s) := List.foldl_append

theorem runActs_withLoad (load : State → State) {acts : List (State → State)} (h : acts ≠ []) (s : State) :
    runActs (withLoad load acts) s = runActs acts (load s) := by
  cases acts with
  | nil => exact absurd rfl h
  | cons f acts => rfl

theorem runActs_outCells (k : Nat) (s : State) : runActs (List.replicate k outCellActs).flatten s = outLoop k s := by
  induction k generalizing s with
  | zero => rfl
  | succ k ih =>
    rw [List.replicate_succ, List.flatten_cons, runActs_append, ih]
    rfl

theorem runActs_inCells (k : Nat) (s : State) : runActs (List.replicate k inCellActs).flatten s = inLoop k s := by
  induction k generalizing s with
  | zero => rfl
  | succ k ih =>
    rw [List.replicate_succ, List.flatten_cons, runActs_append, ih]
    rfl

theorem runActs_select (s : State) : runActs selectActs s = txnBegin s := rfl

theorem runActs_deselect (s : State) : runActs deselectActs s = txnEnd s := rfl

theorem runActs_sendByte (b : Byte) (s : State) : runActs (sendByteActs b) s = shiftOut8 b s := by
  rw [sendByteActs, runActs_withLoad _ (by simp [outCellActs]), runActs_outCells]
  rfl

theorem runActs_sendWord (w : Word) (s : State) : runActs (sendWordActs w) s = shiftOut16 w s := by
  rw [sendWordActs, runActs_withLoad _ (by simp [outCellActs]), runActs_outCells]
  rfl

theorem runActs_sampleWord (s : State) : runActs sampleWordActs s = shiftIn16 s := by
  rw [sampleWordActs, List.cons_append, runActs_cons, runActs_append, runActs_inCells]
  rfl

/-- What a step's pin events do together (R142 to R150). -/
theorem runActs_piece (c : Cfg) (p : Piece) (s : State) :
    runActs (pieceActs c p) s = match p with
      | .write a v => txnEnd (shiftOut16 v (shiftOut8 (writeCommand a) (txnBegin s)))
      | .read a => txnEnd (shiftIn16 (shiftOut8 (readCommand c.readFlag a) (txnBegin s)))
      | .select => txnBegin s
      | .sendByte b => shiftOut8 b s
      | .sendWord w => shiftOut16 w s
      | .sampleWord => shiftIn16 s
      | .deselect => txnEnd s := by
  cases p <;> simp only [pieceActs, runActs_append, runActs_select, runActs_deselect, runActs_sendByte, runActs_sendWord,
    runActs_sampleWord]

/-- A write step, its bus event included, is a write transaction (R149). -/
theorem complete_write (c : Cfg) (a : RegAddr) (v : Word) (s : State) :
    completePiece (.write a v) (runActs (pieceActs c (.write a v)) s) = memWrite a v s := by
  rw [runActs_piece, completePiece, memWrite]

/-- A read step, its bus event included, is a read transaction (R150). -/
theorem complete_read (a : RegAddr) (s : State) :
    completePiece (.read a) (runActs (pieceActs s.cfg (.read a)) s) = memRead a s := by
  rw [runActs_piece, completePiece, memRead]

/-- What holds of every kind of pin event, with the datapath's moves beside it, holds of every act of a step. -/
theorem pieceActs_all {P : (State → State) → Prop} (clk : ∀ b, P (driveClk b)) (wait : ∀ n, P (waitUnits n))
    (sel : ∀ x, P (driveSel x)) (bit : P fun s => driveDatOut s.sro.msb s) (datOut : ∀ b, P (driveDatOut b))
    (dir : ∀ d, P (driveDatDir d)) (sample : P takeSample)
    (lastOut : P fun s => countCell (shiftSro (waitUnits 1 s))) (lastIn : P fun s => countCell (waitUnits 1 s))
    (firstOut : ∀ (f : State → Word) (k : BitVec 5), (∀ q s, f (moveSeq q s) = f s) →
      P fun s => driveDatOut (f s).msb (loadSro (f s) k s))
    (firstIn : P fun s => clearAcc (driveDatDir .inp s)) (c : Cfg) (p : Piece) : ∀ f ∈ pieceActs c p, P f := by
  have hsel : ∀ f ∈ selectActs, P f := by simp [selectActs, clk, wait, sel]
  have hend : ∀ f ∈ deselectActs, P f := by simp [deselectActs, clk, wait, sel, datOut]
  have hout : ∀ f ∈ outCellActs, P f := by simp [outCellActs, clk, wait, bit, lastOut]
  have hin : ∀ f ∈ inCellActs, P f := by simp [inCellActs, clk, wait, sample, lastIn]
  have hcells : ∀ {k : Nat} {cell : List (State → State)}, (∀ f ∈ cell, P f) →
      ∀ f ∈ (List.replicate k cell).flatten, P f := by
    intro k cell h f hf
    obtain ⟨l, hl, hfl⟩ := List.mem_flatten.1 hf
    rw [List.eq_of_mem_replicate hl] at hfl
    exact h f hfl
  have hload : ∀ {load : State → State} (k : Nat), P (fun s => driveDatOut (load s).sro.msb (load s)) →
      ∀ f ∈ withLoad load (List.replicate (k + 1) outCellActs).flatten, P f := by
    intro load k h
    have hall := hcells (k := k + 1) hout
    rw [List.replicate_succ, List.flatten_cons, outCellActs, List.cons_append] at hall ⊢
    simp only [withLoad, List.mem_cons, forall_eq_or_imp] at hall ⊢
    exact ⟨h, hall.2⟩
  have hbyte : ∀ b, ∀ f ∈ sendByteActs b, P f := fun b => 
    hload 7 (firstOut (fun s => b ++ s.sro.setWidth 8) 8 fun _ _ => rfl)
  have hword : ∀ w, ∀ f ∈ sendWordActs w, P f := fun w => 
    hload 15 (firstOut (fun _ => w) 16 fun _ _ => rfl)
  have hsample : ∀ f ∈ sampleWordActs, P f := by
    intro f hf
    simp only [sampleWordActs, List.cons_append, List.mem_cons, List.mem_append, List.not_mem_nil, or_false] at hf
    rcases hf with rfl | hf | rfl
    · exact firstIn
    · exact hcells hin f hf
    · exact dir .out
  cases p <;> simp only [pieceActs, List.forall_mem_append]
  case write => exact ⟨⟨⟨hsel, hbyte _⟩, hword _⟩, hend⟩
  case read => exact ⟨⟨⟨hsel, hbyte _⟩, hsample⟩, hend⟩
  case select => exact hsel
  case sendByte => exact hbyte _
  case sendWord => exact hword _
  case sampleWord => exact hsample
  case deselect => exact hend

/-- A pin event changes what pin events change. -/
theorem pieceActs_pinStep (c : Cfg) (p : Piece) : ∀ f ∈ pieceActs c p, ∀ s, PinStep s (f s) :=
  pieceActs_all .clk .wait .sel (fun s => .datOut _ s) .datOut .datDir .takeSample
    (fun s => ((PinStep.wait 1 s).trans (.shiftSro _)).trans (.countCell _))
    (fun s => (PinStep.wait 1 s).trans (.countCell _))
    (fun f k _ s => (PinStep.loadSro (f s) k s).trans (.datOut _ _))
    (fun s => (PinStep.datDir .inp s).trans (.clearAcc _)) c p

/-- No pin event reads or writes `SEQ`. -/
theorem pieceActs_moveSeq (c : Cfg) (p : Piece) : ∀ f ∈ pieceActs c p, ∀ q s, f (moveSeq q s) = moveSeq q (f s) := by
  exact pieceActs_all (fun _ _ _ => rfl) (fun _ _ _ => rfl) (fun _ _ _ => rfl) (fun _ _ => rfl) (fun _ _ _ => rfl)
    (fun _ _ _ => rfl) (fun _ _ => rfl) (fun _ _ => rfl) (fun _ _ => rfl)
    (fun f k hf q s => by simp only [hf]; rfl) (fun _ _ => rfl) c p

/-- Every act of a step is one pin event. -/
theorem pieceActs_event (c : Cfg) (p : Piece) : ∀ f ∈ pieceActs c p, ∀ s, ∃ e, (f s).pins = e :: s.pins :=
  pieceActs_all (fun _ _ => ⟨_, rfl⟩) (fun _ _ => ⟨_, rfl⟩) (fun _ _ => ⟨_, rfl⟩) (fun _ => ⟨_, rfl⟩) (fun _ _ => ⟨_, rfl⟩)
    (fun _ _ => ⟨_, rfl⟩) (fun _ => ⟨_, rfl⟩) (fun _ => ⟨_, rfl⟩) (fun _ => ⟨_, rfl⟩) (fun _ _ _ _ => ⟨_, rfl⟩)
    (fun _ => ⟨_, rfl⟩) c p

/-- Pin events one after another change what pin events change. -/
theorem PinStep.runActs {acts : List (State → State)} (h : ∀ f ∈ acts, ∀ s, PinStep s (f s)) (s : State) :
    PinStep s (runActs acts s) := by
  induction acts generalizing s with
  | nil => exact .refl s
  | cons f acts ih => exact (h f (by simp) s).trans (ih (fun g hg => h g (by simp [hg])) (f s))

theorem runActs_moveSeq {acts : List (State → State)} (h : ∀ f ∈ acts, ∀ q s, f (moveSeq q s) = moveSeq q (f s))
    (q : Seq) (s : State) : runActs acts (moveSeq q s) = moveSeq q (runActs acts s) := by
  induction acts generalizing s with
  | nil => rfl
  | cons f acts ih => rw [runActs_cons, h f (by simp), ih (fun g hg => h g (by simp [hg])), runActs_cons]

/-- A step of an operation has pin events. -/
theorem pieceActs_ne_nil (c : Cfg) (p : Piece) : pieceActs c p ≠ [] := by
  cases p <;> simp [pieceActs, selectActs, sampleWordActs, deselectActs, sendByteActs, sendWordActs, withLoad,
    List.replicate_succ, outCellActs]

/-- The pin events of the two transactions are as many as R149 and R150 count. -/
theorem pieceActs_length (c : Cfg) (a : RegAddr) (v : Word) :
    (pieceActs c (.write a v)).length = 151 ∧ (pieceActs c (.read a)).length = 137 := ⟨rfl, rfl⟩

/-- Does the step end with the select line deasserted. -/
def Piece.closes : Piece → Bool
  | .write _ _ => true
  | .read _ => true
  | .deselect => true
  | .select => false
  | .sendByte _ => false
  | .sendWord _ => false
  | .sampleWord => false

/-- A step leaves the data line's direction out if it was out (R34), and one that deselects leaves idle lines (R48). -/
theorem runActs_lines (c : Cfg) (p : Piece) {s : State} (h : s.datDir = .out) :
    (runActs (pieceActs c p) s).datDir = .out ∧
    (p.closes = true → (runActs (pieceActs c p) s).linesIdle) := by
  rw [runActs_piece]
  cases p with
  | write a v =>
    have hd := (shiftOut16_datDir v _).trans ((shiftOut8_datDir (writeCommand a) _).trans ((txnBegin_datDir s).trans h))
    exact ⟨(txnEnd_datDir _).trans hd, fun _ => txnEnd_linesIdle hd⟩
  | read a => exact ⟨rfl, fun _ => txnEnd_linesIdle rfl⟩
  | select => exact ⟨(txnBegin_datDir s).trans h, fun hc => nomatch hc⟩
  | sendByte b => exact ⟨(shiftOut8_datDir b s).trans h, fun hc => nomatch hc⟩
  | sendWord w => exact ⟨(shiftOut16_datDir w s).trans h, fun hc => nomatch hc⟩
  | sampleWord => exact ⟨rfl, fun hc => nomatch hc⟩
  | deselect => exact ⟨(txnEnd_datDir s).trans h, fun _ => txnEnd_linesIdle h⟩

/-! ### The steps of an operation -/

/-- Every step of an operation has one of these forms. -/
theorem opSteps_all {P : OpStep → Prop} {op : Instr} (plain : ∀ p, (restSeq op = .idle → p.closes = true) → P (.plain p))
    (answer : ∀ p f, (restSeq op = .idle → p.closes = true) → P (.answer p f))
    (pin : ∀ a b x, (∃ p y, op = .setOutputPin p y) →
      P ⟨fun s => .write a (shadowWith s.gpioShadow b x), updateShadow b x, id⟩)
    (odd : ∀ a hi, P ⟨fun s => .write a (packBytes hi (drawByte s.env).1), useResidual, id⟩)
    (template : ∀ a, (∃ p d, op = .transmit p d) → P ⟨fun _ => .read a, id, keepTemplate⟩)
    (mask : ∀ a, (∃ p d, op = .transmit p d) → P ⟨fun _ => .read a, id, keepMask⟩)
    (control : ∀ (a : RegAddr) (f : Word → Word), P ⟨fun s => .write a (f s.template), id, id⟩) {c : Cfg} {steps : List OpStep}
    (h : opSteps c op = .ok steps) : ∀ st ∈ steps, P st := by
  have hw : ∀ ws : List (RegAddr × Word), ∀ st ∈ plainWrites ws, P st := by
    intro ws st hst
    obtain ⟨w, _, rfl⟩ := List.mem_map.1 hst
    exact plain _ fun _ => rfl
  have hfill : ∀ payload : List Byte, ∀ st ∈ fillSteps c payload, P st := by
    intro payload
    induction payload using fillSteps.induct with
    | case1 => simp [fillSteps]
    | case2 hi => simp only [fillSteps, List.mem_singleton, forall_eq]; exact odd _ _
    | case3 hi lo rest ih => simp only [fillSteps, List.mem_cons, forall_eq_or_imp]; exact ⟨plain _ fun _ => rfl, ih⟩
  have one : ∀ {st0 : OpStep}, P st0 → ∀ st ∈ [st0], P st := fun h0 => by simpa using h0
  have bind_ok : ∀ {α β : Type} {x : Except Refusal α} {f : α → Except Refusal β} {b : β}, (x >>= f) = .ok b →
      ∃ a, x = .ok a ∧ f a = .ok b := by
    intro α β x f b hb
    cases x with
    | ok a => exact ⟨a, rfl, hb⟩
    | error e => cases hb
  cases op <;> simp only [opSteps] at h
  case writeRegister =>
    obtain ⟨a, _, h⟩ := bind_ok h
    obtain ⟨v, _, h⟩ := bind_ok h
    cases h; exact one (plain _ fun _ => rfl)
  case regWrite =>
    obtain ⟨a, _, h⟩ := bind_ok h
    obtain ⟨v, _, h⟩ := bind_ok h
    cases h; exact one (plain _ fun _ => rfl)
  case readRegister => obtain ⟨a, _, h⟩ := bind_ok h; cases h; exact one (answer _ _ fun _ => rfl)
  case regRead => obtain ⟨a, _, h⟩ := bind_ok h; cases h; exact one (answer _ _ fun _ => rfl)
  case txnBegin => cases h; exact one (plain _ nofun)
  case shiftOut8 => cases h; exact one (plain _ nofun)
  case shiftOut16 => cases h; exact one (plain _ nofun)
  case shiftIn16 => cases h; exact one (answer _ _ nofun)
  case txnEnd => cases h; exact one (plain _ fun _ => rfl)
  case setOutputPin => obtain ⟨b, _, h⟩ := bind_ok h; cases h; exact one (pin _ _ _ ⟨_, _, rfl⟩)
  case pulseWrite =>
    obtain ⟨a, _, h⟩ := bind_ok h
    obtain ⟨v, _, h⟩ := bind_ok h
    obtain ⟨f, _, h⟩ := bind_ok h
    cases h; exact hw _
  case readRegisterDiagnosticDump =>
    obtain ⟨as, _, h⟩ := bind_ok h
    cases h
    intro st hst
    obtain ⟨a, _, rfl⟩ := List.mem_map.1 hst
    exact answer _ _ fun _ => rfl
  case configure => cases h; exact hw _
  case transmit p payload =>
    cases h
    split
    · simp only [transmitSteps, startSteps, List.forall_mem_append]
      refine ⟨⟨⟨?_, hfill payload⟩, ?_⟩, ?_⟩
      · simp only [List.mem_cons, List.not_mem_nil, or_false, forall_eq_or_imp, forall_eq]
        exact ⟨template _ ⟨_, _, rfl⟩, control _ (· ||| c.ctrlTxFifoClear), control _ id, plain _ fun _ => rfl⟩
      · simp only [List.mem_cons, List.not_mem_nil, or_false, forall_eq_or_imp, forall_eq]
        exact ⟨mask _ ⟨_, _, rfl⟩, plain _ fun _ => rfl, control _ (· ||| c.ctrlTxEnable)⟩
      · simp only [List.mem_cons, List.not_mem_nil, or_false, forall_eq_or_imp, forall_eq]
        exact ⟨plain _ fun _ => rfl, plain _ fun _ => rfl, control _ id⟩
    · simp

/-- What a step does beside its pin events: nothing to the lines, the peer, the traces, the calls, nor to `SEQ`, which it
does not read either. -/
structure OffLink (f : State → State) : Prop where
  seq    : ∀ q s, f (moveSeq q s) = moveSeq q (f s)
  cfg    : ∀ s, (f s).cfg = s.cfg
  sel    : ∀ s, (f s).sel = s.sel
  clk    : ∀ s, (f s).clk = s.clk
  datOut : ∀ s, (f s).datOut = s.datOut
  datDir : ∀ s, (f s).datDir = s.datDir
  acc    : ∀ s, (f s).acc = s.acc
  peer   : ∀ s, (f s).peer = s.peer
  calls  : ∀ s, (f s).calls = s.calls
  pins   : ∀ s, (f s).pins = s.pins
  bus    : ∀ s, s.bus <:+ (f s).bus
  output : ∀ s, s.output <:+ (f s).output

theorem OffLink.id : OffLink id := by constructor <;> intros <;> rfl

theorem OffLink.updateShadow (b : Fin 16) (x : Bool) : OffLink (updateShadow b x) := by
  constructor <;> intros <;> rfl

theorem OffLink.useResidual : OffLink useResidual := by
  constructor <;> intros <;> rfl

theorem OffLink.keepTemplate : OffLink keepTemplate := by
  constructor <;> intros <;> rfl

theorem OffLink.keepMask : OffLink keepMask := by
  constructor <;> intros <;> rfl

theorem OffLink.answer (f : Word → Output) : OffLink fun s => giveHost (f s.acc) s := by
  constructor <;> intros <;> first | rfl | exact List.suffix_cons _ _

theorem OffLink.completePiece (p : Piece) : OffLink (completePiece p) := by
  cases p <;> constructor <;> intros <;> first | rfl | exact List.suffix_cons _ _

/-- The parts of a step beside its pin events are off the link, and its operands do not depend on `SEQ`. -/
structure OpStep.Ok (st : OpStep) : Prop where
  piece  : ∀ q s, st.piece (moveSeq q s) = st.piece s
  before : OffLink st.before
  after  : OffLink st.after

theorem opSteps_ok {c : Cfg} {op : Instr} {steps : List OpStep} (h : opSteps c op = .ok steps) : ∀ st ∈ steps, st.Ok :=
  opSteps_all (fun _ _ => ⟨fun _ _ => rfl, .id, .id⟩) (fun _ f _ => ⟨fun _ _ => rfl, .id, .answer f⟩)
    (fun _ b x _ => ⟨fun _ _ => rfl, .updateShadow b x, .id⟩) (fun _ _ => ⟨fun _ _ => rfl, .useResidual, .id⟩)
    (fun _ _ => ⟨fun _ _ => rfl, .id, .keepTemplate⟩) (fun _ _ => ⟨fun _ _ => rfl, .id, .keepMask⟩)
    (fun _ _ => ⟨fun _ _ => rfl, .id, .id⟩) h

/-- Every step of an operation that ends idle leaves the device deselected (R48). -/
theorem opSteps_closes {c : Cfg} {op : Instr} {steps : List OpStep} (h : opSteps c op = .ok steps)
    (hr : restSeq op = .idle) : ∀ st ∈ steps, ∀ s, (st.piece s).closes = true :=
  opSteps_all (fun _ hp _ => hp hr) (fun _ _ hp _ => hp hr) (fun _ _ _ _ _ => rfl) (fun _ _ _ => rfl)
    (fun _ _ _ => rfl) (fun _ _ _ => rfl) (fun _ _ _ => rfl) h

/-- A primitive is one step. -/
theorem opSteps_primitive {c : Cfg} {op : Instr} {steps : List OpStep} (h : opSteps c op = .ok steps)
    (hr : restSeq op ≠ .idle) : steps.length = 1 := by
  cases op <;> first | exact absurd rfl hr | (cases h; rfl)

/-- The shadow is written before a step of setOutputPin alone (R39). -/
theorem opSteps_shadow {c : Cfg} {op : Instr} {steps : List OpStep} (h : opSteps c op = .ok steps)
    (ho : ∀ p x, op ≠ .setOutputPin p x) : ∀ st ∈ steps, ∀ s, (st.before s).gpioShadow = s.gpioShadow :=
  opSteps_all (fun _ _ _ => rfl) (fun _ _ _ _ => rfl) (fun _ _ _ ⟨p, x, e⟩ => absurd e (ho p x)) (fun _ _ _ => rfl)
    (fun _ _ _ => rfl) (fun _ _ _ => rfl) (fun _ _ _ => rfl) h

/-- The session is written after a step of transmit alone (R40). -/
theorem opSteps_session {c : Cfg} {op : Instr} {steps : List OpStep} (h : opSteps c op = .ok steps)
    (ho : ∀ p d, op ≠ .transmit p d) :
    ∀ st ∈ steps, ∀ s, (st.after s).template = s.template ∧ (st.after s).savedMask = s.savedMask :=
  opSteps_all (fun _ _ _ => ⟨rfl, rfl⟩) (fun _ _ _ _ => ⟨rfl, rfl⟩) (fun _ _ _ _ _ => ⟨rfl, rfl⟩)
    (fun _ _ _ => ⟨rfl, rfl⟩) (fun _ ⟨p, d, e⟩ => absurd e (ho p d)) (fun _ ⟨p, d, e⟩ => absurd e (ho p d))
    (fun _ _ _ => ⟨rfl, rfl⟩) h

/-- No step writes the session before its pin events, and none the shadow after them. -/
theorem opSteps_else {c : Cfg} {op : Instr} {steps : List OpStep} (h : opSteps c op = .ok steps) :
    ∀ st ∈ steps, ∀ s, (st.before s).template = s.template ∧ (st.before s).savedMask = s.savedMask ∧
      (st.after s).gpioShadow = s.gpioShadow :=
  opSteps_all (fun _ _ _ => ⟨rfl, rfl, rfl⟩) (fun _ _ _ _ => ⟨rfl, rfl, rfl⟩) (fun _ _ _ _ _ => ⟨rfl, rfl, rfl⟩)
    (fun _ _ _ => ⟨rfl, rfl, rfl⟩) (fun _ _ _ => ⟨rfl, rfl, rfl⟩) (fun _ _ _ => ⟨rfl, rfl, rfl⟩)
    (fun _ _ _ => ⟨rfl, rfl, rfl⟩) h

/-- setOutputPin is one step. -/
theorem opSteps_setOutputPin {c : Cfg} {p : Nat} {x : Bool} {steps : List OpStep}
    (h : opSteps c (.setOutputPin p x) = .ok steps) : steps.length = 1 := by
  simp only [opSteps] at h
  cases hb : pinOperand c p with
  | error r => rw [hb] at h; cases h
  | ok b => rw [hb] at h; cases h; rfl

/-- A whole step of an operation: its transaction or primitive, and what stands around it. -/
def OpStep.run (st : OpStep) (s : State) : State :=
  st.after (completePiece (st.piece s) (runActs (pieceActs s.cfg (st.piece s)) (st.before s)))

theorem OpStep.Ok.run_cfg {st : OpStep} (h : st.Ok) (s : State) : (st.run s).cfg = s.cfg := by
  rw [OpStep.run, h.after.cfg, (OffLink.completePiece _).cfg, (PinStep.runActs (pieceActs_pinStep _ _) _).cfg, h.before.cfg]

theorem OpStep.Ok.run_moveSeq {st : OpStep} (h : st.Ok) (q : Seq) (s : State) :
    st.run (moveSeq q s) = moveSeq q (st.run s) := by
  rw [OpStep.run, h.piece, h.before.seq, moveSeq_cfg, runActs_moveSeq (pieceActs_moveSeq _ _),
    (OffLink.completePiece _).seq, h.after.seq, OpStep.run]

/-- Steps one after another. -/
def runOps (steps : List OpStep) (s : State) : State := steps.foldl (fun t st => st.run t) s

@[simp] theorem runOps_nil (s : State) : runOps [] s = s := rfl

@[simp] theorem runOps_cons (st : OpStep) (steps : List OpStep) (s : State) :
    runOps (st :: steps) s = runOps steps (st.run s) := rfl

theorem runOps_append (xs ys : List OpStep) (s : State) : runOps (xs ++ ys) s = runOps ys (runOps xs s) :=
  List.foldl_append

/-! ### The moves of `SEQ` -/

theorem opStep_eq {c : Cfg} {op : Instr} {steps : List OpStep} (h : opSteps c op = .ok steps) (k : Nat) :
    opStep c op k = steps[k]? := by
  simp only [opStep, h]

/-- A step an operation has is one of its steps. -/
theorem of_opStep {c : Cfg} {op : Instr} {k : Nat} {st : OpStep} (h : opStep c op k = some st) :
    ∃ steps, opSteps c op = .ok steps ∧ st ∈ steps := by
  cases ho : opSteps c op with
  | ok steps => exact ⟨steps, rfl, List.mem_of_getElem? (opStep_eq ho k ▸ h)⟩
  | error r => simp only [opStep, ho] at h; cases h

theorem opStep_ok {c : Cfg} {op : Instr} {k : Nat} {st : OpStep} (h : opStep c op k = some st) : st.Ok := by
  obtain ⟨steps, ho, hm⟩ := of_opStep h
  exact opSteps_ok ho st hm

theorem enterStep_some {op : Instr} {k : Nat} {s : State} {steps : List OpStep} {st : OpStep} (polls : Nat)
    (h : opSteps s.cfg op = .ok steps) (hk : steps[k]? = some st) :
    enterStep op k polls s = moveSeq (.running op ⟨k, st.piece s, 0, polls⟩) (st.before s) := by
  simp only [enterStep, opStep_eq h, hk]

theorem enterStep_none {op : Instr} {k : Nat} {s : State} {steps : List OpStep} (polls : Nat)
    (h : opSteps s.cfg op = .ok steps) (hk : steps[k]? = none) : enterStep op k polls s = moveSeq (restSeq op) s := by
  simp only [enterStep, opStep_eq h, hk]

theorem finishStep_some {op : Instr} {k : Nat} {s : State} {steps : List OpStep} {st : OpStep}
    (h : opSteps s.cfg op = .ok steps) (hk : steps[k]? = some st) : finishStep op k s = st.after s := by
  simp only [finishStep, opStep_eq h, hk]

/-- Entering a step does not look at `SEQ`. -/
theorem enterStep_moveSeq (op : Instr) (k polls : Nat) (q : Seq) (s : State) :
    enterStep op k polls (moveSeq q s) = enterStep op k polls s := by
  simp only [enterStep, moveSeq_cfg]
  cases hk : opStep s.cfg op k with
  | none => rfl
  | some st => simp only [(opStep_ok hk).piece, (opStep_ok hk).before.seq]; rfl

theorem finishStep_moveSeq (op : Instr) (k : Nat) (q : Seq) (s : State) :
    finishStep op k (moveSeq q s) = moveSeq q (finishStep op k s) := by
  simp only [finishStep, moveSeq_cfg]
  cases hk : opStep s.cfg op k with
  | none => rfl
  | some st => exact (opStep_ok hk).after.seq q s

/-- Where `SEQ` goes after step `k`, which left `s` (R41, R218). -/
def afterStep (op : Instr) (k polls : Nat) (s : State) : State :=
  if isPoll op k && !statusDone s.cfg s.acc then enterStep op k (polls + 1) s else enterStep op (k + 1) polls s

theorem afterStep_moveSeq (op : Instr) (k polls : Nat) (q : Seq) (s : State) :
    afterStep op k polls (moveSeq q s) = afterStep op k polls s := by
  simp only [afterStep, moveSeq_cfg, moveSeq_acc, enterStep_moveSeq]

theorem leaveStep_eq (op : Instr) (pos : Position) (s : State) :
    leaveStep op pos s = afterStep op pos.step pos.polls (finishStep op pos.step (completePiece pos.piece s)) := rfl

theorem leaveStep_moveSeq (op : Instr) (pos : Position) (q : Seq) (s : State) :
    leaveStep op pos (moveSeq q s) = leaveStep op pos s := by
  rw [leaveStep_eq, leaveStep_eq, (OffLink.completePiece _).seq, finishStep_moveSeq, afterStep_moveSeq]

/-- A position's step of the machine, where the executor's fuel is not used up. -/
theorem step_running {op : Instr} {pos : Position} {s : State} (hq : s.seq = .running op pos)
    (hf : (isPoll op pos.step && pos.event == 0 && pollFuelUsed s.cfg pos.polls) = false) :
    step s = .next (runEvent op pos ((pieceActs s.cfg pos.piece).drop pos.event) s) := by
  simp only [step, hq, pinStep, hf]
  rfl

/-- The rest of a step, event by event: it ends where the step is left (R41). -/
theorem runSteps_rest {op : Instr} {left : List (State → State)} (hne : left ≠ []) :
    ∀ {pos : Position} {s : State}, (pieceActs s.cfg pos.piece).drop pos.event = left →
      (isPoll op pos.step && pos.event == 0 && pollFuelUsed s.cfg pos.polls) = false →
      runSteps left.length (moveSeq (.running op pos) s) = some (leaveStep op pos (runActs left s)) := by
  induction left with
  | nil => exact absurd rfl hne
  | cons f rest ih =>
    intro pos s hl hf
    have hmem : ∀ g ∈ f :: rest, g ∈ pieceActs s.cfg pos.piece := fun g hg => List.mem_of_mem_drop (hl ▸ hg)
    have hfq := pieceActs_moveSeq s.cfg pos.piece f (hmem f (by simp))
    have hfc := (pieceActs_pinStep s.cfg pos.piece f (hmem f (by simp)) s).cfg
    have hs := step_running (s := moveSeq (.running op pos) s) rfl hf
    rw [moveSeq_cfg, hl] at hs
    rw [List.length_cons, runSteps_succ_of_next hs]
    cases rest with
    | nil => rw [runEvent, hfq, leaveStep_moveSeq]; rfl
    | cons g rest =>
      have hd : (pieceActs (f s).cfg pos.piece).drop (pos.event + 1) = g :: rest := by
        rw [hfc, ← List.drop_drop, hl]; rfl
      have := ih (by simp) (pos := { pos with event := pos.event + 1 }) (s := f s) hd (by simp)
      rw [runEvent, hfq]
      · exact this
      · simp

/-- A whole step, event by event, from where `SEQ` enters it (R41). -/
theorem runSteps_step {op : Instr} {k polls : Nat} {s : State} {steps : List OpStep} {st : OpStep}
    (h : opSteps s.cfg op = .ok steps) (hk : steps[k]? = some st)
    (hf : isPoll op k = false ∨ pollFuelUsed s.cfg polls = false) :
    runSteps (pieceActs s.cfg (st.piece s)).length (enterStep op k polls s) = some (afterStep op k polls (st.run s)) := by
  have ho := opSteps_ok h st (List.mem_of_getElem? hk)
  have hc := ho.before.cfg s
  have hrc : (completePiece (st.piece s) (runActs (pieceActs s.cfg (st.piece s)) (st.before s))).cfg = s.cfg := by
    rw [(OffLink.completePiece _).cfg, (PinStep.runActs (pieceActs_pinStep _ _) _).cfg, hc]
  have hr := runSteps_rest (op := op) (pieceActs_ne_nil s.cfg (st.piece s)) (pos := ⟨k, st.piece s, 0, polls⟩)
    (s := st.before s) (by rw [hc]; rfl) (by rw [hc]; rcases hf with hf | hf <;> simp [hf])
  rw [enterStep_some polls h hk, hr, leaveStep_eq]
  simp only
  rw [finishStep_some (hrc.symm ▸ h) hk]
  rfl

/-- Steps that are no polls, event by event (R41). -/
theorem runSteps_ops {op : Instr} {steps ops : List OpStep} :
    ∀ {k polls : Nat} {s : State}, opSteps s.cfg op = .ok steps → ops <+: steps.drop k →
      (∀ j, k ≤ j → j < k + ops.length → isPoll op j = false) →
      ∃ n, runSteps n (enterStep op k polls s) = some (enterStep op (k + ops.length) polls (runOps ops s)) := by
  induction ops with
  | nil => intro k polls s _ _ _; exact ⟨0, rfl⟩
  | cons st ops ih =>
    intro k polls s h hp hj
    obtain ⟨rest, hrest⟩ := hp
    have hk : steps[k]? = some st := by
      have := List.getElem?_drop (xs := steps) (i := k) (j := 0)
      rw [← hrest] at this
      simpa using this.symm
    have hd : ops <+: steps.drop (k + 1) := by
      rw [← List.drop_drop, ← hrest]; exact ⟨rest, rfl⟩
    have hpoll : isPoll op k = false := hj k (Nat.le_refl k) (by simp)
    have ho := opSteps_ok h st (List.mem_of_getElem? hk)
    have h1 := runSteps_step (polls := polls) h hk (.inl hpoll)
    obtain ⟨n, h2⟩ := ih (k := k + 1) (polls := polls) (s := st.run s) (by rw [ho.run_cfg]; exact h) hd
      (fun j h1 h2 => hj j (by omega) (by simp; omega))
    refine ⟨(pieceActs s.cfg (st.piece s)).length + n, ?_⟩
    · rw [runSteps_add h1, afterStep, hpoll]
      simp only [Bool.false_and, Bool.false_eq_true, if_false]
      rw [h2, List.length_cons, runOps_cons]
      congr 2
      omega

/-! ### The operations as their steps -/

theorem run_plainWrite (a : RegAddr) (v : Word) (s : State) : (OpStep.plain (.write a v)).run s = memWrite a v s := by
  rw [OpStep.run, OpStep.plain]
  exact complete_write s.cfg a v s

theorem run_write (a : RegAddr) (f : State → Word) (before : State → State) (s : State) :
    (OpStep.mk (fun s => .write a (f s)) before id).run s = memWrite a (f s) (before s) := by
  rw [OpStep.run]
  exact complete_write s.cfg a (f s) (before s)

theorem run_read (a : RegAddr) (after : State → State) (s : State) :
    (OpStep.mk (fun _ => .read a) id after).run s = after (memRead a s) := by
  rw [OpStep.run]
  exact congrArg after (complete_read a s)

theorem run_answer (a : RegAddr) (f : Word → Output) (s : State) :
    (OpStep.answer (.read a) f).run s = giveHost (f (memRead a s).acc) (memRead a s) := by
  rw [OpStep.answer, run_read]

theorem run_sendByte (b : Byte) (s : State) : (OpStep.plain (.sendByte b)).run s = shiftOut8 b s := runActs_sendByte b s

theorem run_sendWord (w : Word) (s : State) : (OpStep.plain (.sendWord w)).run s = shiftOut16 w s := runActs_sendWord w s

theorem run_sampleWord (f : Word → Output) (s : State) :
    (OpStep.answer .sampleWord f).run s = giveHost (f (shiftIn16 s).acc) (shiftIn16 s) :=
  congrArg (fun t : State => giveHost (f t.acc) t) (runActs_sampleWord s)

theorem runOps_plainWrites (ws : List (RegAddr × Word)) (s : State) : runOps (plainWrites ws) s = memWrites ws s := by
  induction ws generalizing s with
  | nil => rfl
  | cons w ws ih =>
    rw [plainWrites, List.map_cons, runOps_cons, run_plainWrite, memWrites]
    exact ih _

theorem runOps_dump (as : List RegAddr) (s : State) :
    runOps (as.map fun a => .answer (.read a) (.pair a)) s = dumpAll as s := by
  induction as generalizing s with
  | nil => rfl
  | cons a as ih => rw [List.map_cons, runOps_cons, run_answer, dumpAll, dumpOne, ih]

theorem runOps_fill (payload : List Byte) {c : Cfg} {s : State} (hc : s.cfg = c) :
    runOps (fillSteps c payload) s = fillFifo payload s := by
  induction payload, s using fillFifo.induct with
  | case1 s => rfl
  | case2 hi s => rw [fillSteps, runOps_cons, run_write, fillFifo, hc, runOps_nil]
  | case3 hi lo rest s ih =>
    rw [fillSteps, runOps_cons, run_plainWrite, fillFifo]
    rw [hc] at ih ⊢
    exact ih ((Kept.memWrite _ _ s).cfg.trans hc)

/-- Steps 1 to 6 of transmit (R221). -/
theorem runOps_start (payload : List Byte) (s : State) :
    runOps (startSteps s.cfg payload) s = startTransmit payload s := by
  have c1 := (Kept.readTemplate s).cfg
  have c2 := (Kept.clearFifo (readTemplate s)).cfg
  have c3 := (Kept.writeLength payload.length (clearFifo (readTemplate s))).cfg
  have c4 := (Kept.fillFifo payload (writeLength payload.length (clearFifo (readTemplate s)))).cfg
  have c5 := (Kept.narrowMask (fillFifo payload (writeLength payload.length (clearFifo (readTemplate s))))).cfg
  have h1 : memWrite s.cfg.addrFskLen (lenWord s.cfg payload.length)
      (memWrite s.cfg.addrFskCtrl (memWrite s.cfg.addrFskCtrl
          ((keepTemplate (memRead s.cfg.addrFskCtrl s)).template ||| s.cfg.ctrlTxFifoClear)
          (keepTemplate (memRead s.cfg.addrFskCtrl s))).template
        (memWrite s.cfg.addrFskCtrl ((keepTemplate (memRead s.cfg.addrFskCtrl s)).template ||| s.cfg.ctrlTxFifoClear)
          (keepTemplate (memRead s.cfg.addrFskCtrl s)))) =
      writeLength payload.length (clearFifo (readTemplate s)) := by
    rw [writeLength, c2, c1, clearFifo, c1, memWrites, memWrites, memWrites, (memWrite_outside _ _ _).1, readTemplate]
  rw [startSteps, runOps_append, runOps_append, runOps_cons, runOps_cons, runOps_cons, runOps_cons, runOps_cons,
    runOps_cons, runOps_cons, runOps_nil, runOps_nil, run_read, run_write, run_write, run_plainWrite, run_read,
    run_plainWrite, run_write]
  simp only [id]
  rw [h1, runOps_fill payload (c3.trans (c2.trans c1)), startTransmit]
  generalize fillFifo payload (writeLength payload.length (clearFifo (readTemplate s))) = u at *
  have cu : u.cfg = s.cfg := by rw [c4, c3, c2, c1]
  rw [enableTransmit, c5, narrowMask, cu]

theorem fillSteps_length (c : Cfg) (payload : List Byte) : (fillSteps c payload).length = (payload.length + 1) / 2 := by
  induction payload using fillSteps.induct with
  | case1 => rfl
  | case2 hi => simp [fillSteps]
  | case3 hi lo rest ih => simp only [fillSteps, List.length_cons, ih]; omega

/-- The poll is the step after steps 1 to 6 (R218). -/
theorem startSteps_length (c : Cfg) (payload : List Byte) : (startSteps c payload).length = pollStep payload := by
  simp only [startSteps, List.length_append, fillSteps_length, pollStep, List.length_cons, List.length_nil]
  omega

theorem moveSeq_self {q : Seq} {s : State} (h : s.seq = q) : moveSeq q s = s := by subst h; rfl

/-- A host-level operation starts from idle alone. -/
theorem ite_hostMayCall {q : Seq} {α : Type} {x y z : α} (h : q = .idle → x = y) :
    (if hostMayCall q then x else z) = if hostMayCall q then y else z := by
  by_cases hq : q = .idle
  · simp [hostMayCall, hq, h hq]
  · simp [hostMayCall, hq]

/-- What an operation other than transmit does is what its steps do, and it starts where they may start (R41). -/
theorem exec_eq_ops {i : Instr} (hi : ∀ p d, i ≠ .transmit p d) (s : State) :
    exec i s = if mayStart s.seq i then
      withOperand (opSteps s.cfg i) fun steps => .next (moveSeq (restSeq i) (runOps steps s)) else .refused .busy := by
  have hws : ∀ {ws}, s.seq = .idle → moveSeq .idle (memWrites ws s) = memWrites ws s :=
    fun h => moveSeq_self (((memWrites_outside _ s).2.2.1).trans h)
  have hw : ∀ {a v}, s.seq = .idle → moveSeq .idle (memWrite a v s) = memWrite a v s :=
    fun h => moveSeq_self (((memWrite_outside _ _ s).2.2.1).trans h)
  have hr : ∀ {a} {f : Word → Output}, s.seq = .idle →
      moveSeq .idle (giveHost (f (memRead a s).acc) (memRead a s)) = giveHost (f (memRead a s).acc) (memRead a s) :=
    fun h => moveSeq_self ((giveHost_seq _ _).trans (((memRead_outside _ s).2.2.1).trans h))
  have hd : ∀ {as}, s.seq = .idle → moveSeq .idle (dumpAll as s) = dumpAll as s :=
    fun h => moveSeq_self (((dumpAll_outside _ s).2.2).trans h)
  have e : ∀ {α β : Type} (x : Except Refusal α) (f : α → Except Refusal β) (g : β → Host.Outcome State Fault Refusal),
      withOperand (x >>= f) g = withOperand x fun a => withOperand (f a) g := by
    intro α β x f g; cases x <;> rfl
  have ep : ∀ {β : Type} (b : β) (g : β → Host.Outcome State Fault Refusal), withOperand (pure b : Except Refusal β) g = g b :=
    fun _ _ => rfl
  cases i <;> simp only [exec, mayStart, isHostLevel, restSeq, opSteps, if_true, if_false, Bool.false_eq_true, e, ep,
    withOperand_ok, runOps_cons, runOps_nil, run_plainWrite, run_answer, runOps_plainWrites, runOps_dump]
  case writeRegister a v => exact ite_hostMayCall fun h => by simp only [hw h]
  case regWrite a v => exact ite_hostMayCall fun h => by simp only [hw h]
  case readRegister a => exact ite_hostMayCall fun h => by simp only [hr h]
  case regRead a => exact ite_hostMayCall fun h => by simp only [hr h]
  case txnBegin => rfl
  case shiftOut8 b => rw [run_sendByte]; rfl
  case shiftOut16 w => rw [run_sendWord]; rfl
  case shiftIn16 => rw [run_sampleWord]; rfl
  case txnEnd => rfl
  case setOutputPin p x =>
    refine ite_hostMayCall fun h => ?_
    cases pinOperand s.cfg p with
    | error r => rw [withOperand_error, withOperand_error]
    | ok b =>
      have hs : (updateShadow b x s).seq = .idle := h
      rw [withOperand_ok, withOperand_ok, run_write, writeShadow, updateShadow_cfg, updateShadow_gpioShadow]
      generalize updateShadow b x s = u at *
      rw [moveSeq_self (((memWrite_outside _ _ _).2.2.1).trans hs)]
  case pulseWrite a b f => exact ite_hostMayCall fun h => by simp only [hws h]
  case readRegisterDiagnosticDump lo hi => exact ite_hostMayCall fun h => by simp only [hd h]
  case configure ps => exact ite_hostMayCall fun h => by simp only [hws h]
  case transmit p d => exact absurd rfl (hi p d)

/-! ### Where a step of the machine leads -/

theorem runOps_cfg {steps : List OpStep} (h : ∀ st ∈ steps, st.Ok) (s : State) : (runOps steps s).cfg = s.cfg := by
  induction steps generalizing s with
  | nil => rfl
  | cons st steps ih => rw [runOps_cons, ih (fun x hx => h x (by simp [hx])), (h st (by simp)).run_cfg]

theorem opSteps_transmit {c : Cfg} {p : Option ModemParameters} {payload : List Byte}
    (h : transmitAccepted c p payload = true) : opSteps c (.transmit p payload) = .ok (transmitSteps c payload) := by
  simp only [opSteps, h, if_true]

theorem transmitSteps_poll (c : Cfg) (payload : List Byte) :
    (transmitSteps c payload)[pollStep payload]? = some (.plain (.read c.addrStatus)) := by
  rw [transmitSteps, ← startSteps_length c payload]
  simp

/-- Step 8 is what follows the poll (R219). -/
theorem transmitSteps_last (c : Cfg) (payload : List Byte) :
    (transmitSteps c payload).drop (pollStep payload + 1) =
      [.plain (.write c.addrStrobe c.strobeClearValue), ⟨fun s => .write c.addrFskCtrl s.template, id, id⟩] := by
  rw [transmitSteps, ← startSteps_length c payload, List.drop_append]
  simp

theorem of_startPinwise_next {i : Instr} {s t : State} (h : startPinwise i s = .next t) :
    mayStart s.seq i = true ∧ (∃ steps, opSteps s.cfg i = .ok steps) ∧ t = enterStep i 0 0 s := by
  unfold startPinwise at h
  split at h
  · next hm =>
    obtain ⟨steps, h1, h2⟩ := of_withOperand_next h
    exact ⟨hm, ⟨steps, h1⟩, (Host.Outcome.next.inj h2).symm⟩
  · cases h

/-- Entering step `k` moves `SEQ` to its first pin event, or to rest (R41). -/
theorem enterStep_seq (op : Instr) (k polls : Nat) (s : State) : goesTo s.cfg op k polls s (enterStep op k polls s).seq := by
  unfold enterStep
  refine ⟨fun st h => ?_, fun h => ?_⟩ <;> rw [h] <;> rfl

theorem enterStep_keeps (op : Instr) (k polls : Nat) (s : State) :
    (enterStep op k polls s).calls = s.calls ∧ (enterStep op k polls s).pins = s.pins ∧
    (enterStep op k polls s).acc = s.acc ∧ (enterStep op k polls s).cfg = s.cfg := by
  unfold enterStep
  split
  · next st hk =>
    have := (opStep_ok hk).before
    exact ⟨this.calls s, this.pins s, this.acc s, this.cfg s⟩
  · exact ⟨rfl, rfl, rfl, rfl⟩

theorem finishStep_keeps (op : Instr) (k : Nat) (s : State) :
    (finishStep op k s).calls = s.calls ∧ (finishStep op k s).pins = s.pins ∧ (finishStep op k s).acc = s.acc ∧
    (finishStep op k s).cfg = s.cfg := by
  unfold finishStep
  split
  · next st hk =>
    have := (opStep_ok hk).after
    exact ⟨this.calls s, this.pins s, this.acc s, this.cfg s⟩
  · exact ⟨rfl, rfl, rfl, rfl⟩

/-- After a step of an operation: the poll again if it was the poll and found no status bit, else the step that follows,
or rest (R41, R218). -/
theorem afterStep_moves (op : Instr) (k polls : Nat) (s : State) :
    (afterStep op k polls s).calls = s.calls ∧ (afterStep op k polls s).pins = s.pins ∧
    (afterStep op k polls s).acc = s.acc ∧
    (isPoll op k = true ∧ statusDone s.cfg s.acc = false →
      goesTo s.cfg op k (polls + 1) s (afterStep op k polls s).seq) ∧
    (isPoll op k = false ∨ statusDone s.cfg s.acc = true →
      goesTo s.cfg op (k + 1) polls s (afterStep op k polls s).seq) := by
  unfold afterStep
  split
  · next h =>
    obtain ⟨h1, h2, h3, _⟩ := enterStep_keeps op k (polls + 1) s
    simp only [Bool.and_eq_true, Bool.not_eq_true'] at h
    exact ⟨h1, h2, h3, fun _ => enterStep_seq op k (polls + 1) s, fun hn => by simp [h.1, h.2] at hn⟩
  · next h =>
    obtain ⟨h1, h2, h3, _⟩ := enterStep_keeps op (k + 1) polls s
    exact ⟨h1, h2, h3, fun hp => absurd (by simp [hp.1, hp.2]) h, fun _ => enterStep_seq op (k + 1) polls s⟩

end Sys2Proof.Machine
end

