-- ==== Sys2Proof/Laws/Transactions.lean ====
section
/-! SUPPORT. Sequences of transactions: a relation that says once what a list of bus events does to the state (R83,
R152), with its composition, so that every operation is a composition of reads and writes. -/

namespace Sys2Proof.Machine

/-- Between two transactions: idle lines, nobody driving the data line, a well-formed configuration. -/
def State.quiet (s : State) : Prop := s.linesIdle ∧ s.peer.driveBit = none ∧ s.cfg.wf = true

theorem State.Inv.quiet {s : State} (h : s.Inv) (hl : s.linesIdle) : s.quiet := by
  obtain ⟨h2, _, _, _, _, h4⟩ := h
  exact ⟨hl, h4 hl.1, h2⟩

theorem State.callable.linesIdle {s : State} (h : s.callable) : s.linesIdle := by
  have := h.2.2.1
  rwa [State.seqOk, h.1] at this

theorem State.callable.quiet {s : State} (h : s.callable) : s.quiet := h.2.quiet h.linesIdle

/-- `t` follows `s` by the transactions `evs`, oldest first: the traces grew by them, the lines are idle again, and
nothing but the link, the session, the peer, the environment and the outputs may have changed. -/
structure Txns (s t : State) (evs : List BusEvent) : Prop where
  bus    : t.bus = evs.reverse ++ s.bus
  pins   : t.pins = (evs.flatMap (BusEvent.pins s.cfg.readFlag)).reverse ++ s.pins
  quiet  : t.quiet
  cfg    : t.cfg = s.cfg
  shadow : t.gpioShadow = s.gpioShadow
  seq    : t.seq = s.seq
  calls  : t.calls = s.calls
  kind   : t.peer.kind = s.peer.kind
  bank   : s.peer.kind = .simBank → s.env.answers = [] →
    t.env.answers = [] ∧ t.peer.cells = bankAfter s.peer.cells evs ∧ bankAnswers s.peer.cells evs

theorem Txns.refl {s : State} (h : s.quiet) : Txns s s [] :=
  ⟨rfl, rfl, h, rfl, rfl, rfl, rfl, rfl, fun _ ha => ⟨ha, rfl, trivial⟩⟩

theorem bankAfter_append (m : Memory) (xs ys : List BusEvent) :
    bankAfter m (xs ++ ys) = bankAfter (bankAfter m xs) ys := by
  induction xs generalizing m with
  | nil => rfl
  | cons x xs ih => cases x <;> simp [bankAfter, ih]

theorem bankAnswers_append (m : Memory) (xs ys : List BusEvent) :
    bankAnswers m (xs ++ ys) ↔ bankAnswers m xs ∧ bankAnswers (bankAfter m xs) ys := by
  induction xs generalizing m with
  | nil => simp [bankAnswers, bankAfter]
  | cons x xs ih => cases x <;> simp [bankAfter, bankAnswers, ih, and_assoc]

theorem Txns.trans {s t u : State} {xs ys : List BusEvent} (h1 : Txns s t xs) (h2 : Txns t u ys) :
    Txns s u (xs ++ ys) where
  bus := by rw [h2.bus, h1.bus]; simp
  pins := by rw [h2.pins, h1.pins, h1.cfg]; simp
  quiet := h2.quiet
  cfg := by rw [h2.cfg, h1.cfg]
  shadow := by rw [h2.shadow, h1.shadow]
  seq := by rw [h2.seq, h1.seq]
  calls := by rw [h2.calls, h1.calls]
  kind := by rw [h2.kind, h1.kind]
  bank := fun hk ha => by
    obtain ⟨a1, b1, c1⟩ := h1.bank hk ha
    obtain ⟨a2, b2, c2⟩ := h2.bank (by rw [h1.kind, hk]) a1
    exact ⟨a2, by rw [b2, b1, bankAfter_append], (bankAnswers_append _ _ _).2 ⟨c1, b1 ▸ c2⟩⟩

@[simp] theorem Peer.afterWrite_kind (c : Cfg) (p : Peer) (a : RegAddr) (v : Word) :
    (p.afterWrite c a v).kind = p.kind := by
  unfold Peer.afterWrite; split <;> rfl

@[simp] theorem Peer.afterWrite_driveBit (c : Cfg) (p : Peer) (a : RegAddr) (v : Word) :
    (p.afterWrite c a v).driveBit = none := by
  unfold Peer.afterWrite; split <;> rfl

@[simp] theorem Peer.afterWrite_cells (c : Cfg) (p : Peer) (a : RegAddr) (v : Word) :
    (p.afterWrite c a v).cells = commitWrite c p.kind p.cells a v := by
  unfold Peer.afterWrite; split
  · next h => simp [h, commitWrite]
  · rfl

@[simp] theorem Peer.afterRead_kind (c : Cfg) (p : Peer) (e : Env) (a : RegAddr) :
    (p.afterRead c e a).kind = p.kind := by
  unfold Peer.afterRead; split <;> rfl

@[simp] theorem Peer.afterRead_driveBit (c : Cfg) (p : Peer) (e : Env) (a : RegAddr) :
    (p.afterRead c e a).driveBit = none := by
  unfold Peer.afterRead; split <;> rfl

@[simp] theorem Peer.afterRead_cells (c : Cfg) (p : Peer) (e : Env) (a : RegAddr) :
    (p.afterRead c e a).cells = commitRead c p.kind p.cells a := by
  unfold Peer.afterRead; split
  · next h => simp [h, commitRead]
  · rfl

/-- MemWrite from a quiet state, by the closed form (R149). -/
theorem memWrite_quiet (a : RegAddr) (v : Word) {s : State} (h : s.quiet) :
    memWrite a v s = { s with
      sel := .deasserted, clk := true, datOut := true, sro := 0, bitcnt := 0,
      pins := (writePins a v).reverse ++ s.pins, bus := .write a v :: s.bus,
      peer := s.peer.afterWrite s.cfg a v } :=
  memWrite_eq a v h.2.2 h.1.1 h.1.2.2.2

/-- MemRead from a quiet state, by the closed form (R150). -/
theorem memRead_quiet (a : RegAddr) {s : State} (h : s.quiet) :
    memRead a s = { s with
      sel := .deasserted, clk := true, datOut := true, bitcnt := 0,
      sro := (readCommand s.cfg.readFlag a ++ s.sro.setWidth 8 : BitVec 16) <<< 8,
      acc := readValue s.cfg s.peer s.env a,
      pins := (readPins s.cfg.readFlag a (readValue s.cfg s.peer s.env a)).reverse ++ s.pins,
      bus := .read a (readValue s.cfg s.peer s.env a) :: s.bus,
      peer := s.peer.afterRead s.cfg s.env a, env := envAfterRead s.cfg s.peer s.env a } :=
  memRead_eq a h.2.2 h.1.1 h.1.2.2.2 h.2.1

/-- SimBank answers an unscripted read with the cell and changes nothing (R86). -/
theorem answerRead_simBank (c : Cfg) (m : Memory) (a : RegAddr) {e : Env} (h : takeAnswer a e.answers = none) :
    answerRead c .simBank m a e = (bankCell m a, e) := by
  simp [answerRead, h, bankCell]

theorem readValue_simBank {c : Cfg} {p : Peer} {e : Env} (a : RegAddr) (hk : p.kind = .simBank)
    (h : takeAnswer a e.answers = none) : readValue c p e a = bankCell p.cells a := by
  simp [readValue, hk, answerRead_simBank _ _ _ h]

theorem envAfterRead_simBank {c : Cfg} {p : Peer} {e : Env} (a : RegAddr) (hk : p.kind = .simBank)
    (h : takeAnswer a e.answers = none) : envAfterRead c p e a = e := by
  simp [envAfterRead, hk, answerRead_simBank _ _ _ h]

/-- A write transaction is one bus event (R149). -/
theorem Txns.write {s : State} (h : s.quiet) (a : RegAddr) (v : Word) : Txns s (memWrite a v s) [.write a v] := by
  rw [memWrite_quiet a v h]
  refine ⟨rfl, ?_, ⟨⟨rfl, rfl, rfl, h.1.2.2.2⟩, by simp, h.2.2⟩, rfl, rfl, rfl, rfl, by simp, ?_⟩
  · simp [BusEvent.pins]
  · intro hk ha
    exact ⟨ha, by simp [bankAfter, hk, commitWrite], trivial⟩

/-- A read transaction is one bus event, with the value left in `ACC` (R150). -/
theorem Txns.read {s : State} (h : s.quiet) (a : RegAddr) :
    Txns s (memRead a s) [.read a (memRead a s).acc] := by
  rw [memRead_quiet a h]
  refine ⟨rfl, ?_, ⟨⟨rfl, rfl, rfl, h.1.2.2.2⟩, by simp, h.2.2⟩, rfl, rfl, rfl, rfl, by simp, ?_⟩
  · simp [BusEvent.pins]
  · intro hk ha
    have ht : takeAnswer a s.env.answers = none := by rw [ha]; rfl
    simp [envAfterRead_simBank a hk ht, readValue_simBank a hk ht, ha, bankAfter, bankAnswers, hk, commitRead]

/-- A change of parts that `Txns` does not speak of keeps it. -/
theorem Txns.of_eq {s t u : State} {evs : List BusEvent} (h : Txns s t evs)
    (hb : u.bus = t.bus) (hp : u.pins = t.pins) (hq : u.quiet) (hc : u.cfg = t.cfg) (hs : u.gpioShadow = t.gpioShadow)
    (hseq : u.seq = t.seq) (hcalls : u.calls = t.calls) (hpeer : u.peer = t.peer)
    (hans : u.env.answers = t.env.answers) : Txns s u evs where
  bus := hb.trans h.bus
  pins := hp.trans h.pins
  quiet := hq
  cfg := hc.trans h.cfg
  shadow := hs.trans h.shadow
  seq := hseq.trans h.seq
  calls := hcalls.trans h.calls
  kind := by rw [hpeer, h.kind]
  bank := fun hk ha => by
    obtain ⟨x, y, z⟩ := h.bank hk ha
    exact ⟨hans.trans x, by rw [hpeer, y], z⟩

/-- A change of anything but the lines, the peer and the configuration keeps a quiet state quiet. -/
theorem State.quiet.of_eq {s t : State} (h : s.quiet) (h1 : t.sel = s.sel) (h2 : t.clk = s.clk)
    (h3 : t.datOut = s.datOut) (h4 : t.datDir = s.datDir) (h5 : t.peer = s.peer) (h6 : t.cfg = s.cfg) : t.quiet := by
  unfold State.quiet State.linesIdle at *
  rw [h1, h2, h3, h4, h5, h6]
  exact h

theorem Txns.giveHost {s t : State} {evs : List BusEvent} (h : Txns s t evs) (o : Output) :
    Txns s (giveHost o t) evs :=
  h.of_eq (giveHost_bus t o) (giveHost_pins t o)
    (h.quiet.of_eq (giveHost_sel t o) (giveHost_clk t o) (giveHost_datOut t o) (giveHost_datDir t o)
      (giveHost_peer t o) (giveHost_cfg t o))
    (giveHost_cfg t o) (giveHost_gpioShadow t o) (giveHost_seq t o) (giveHost_calls t o) (giveHost_peer t o)
    (congrArg Env.answers (giveHost_env t o))

theorem Txns.keepTemplate {s t : State} {evs : List BusEvent} (h : Txns s t evs) : Txns s (keepTemplate t) evs :=
  h.of_eq (keepTemplate_bus t) (keepTemplate_pins t)
    (h.quiet.of_eq (keepTemplate_sel t) (keepTemplate_clk t) (keepTemplate_datOut t) (keepTemplate_datDir t)
      (keepTemplate_peer t) (keepTemplate_cfg t))
    (keepTemplate_cfg t) (keepTemplate_gpioShadow t) (keepTemplate_seq t) (keepTemplate_calls t) (keepTemplate_peer t)
    (congrArg Env.answers (keepTemplate_env t))

theorem Txns.keepMask {s t : State} {evs : List BusEvent} (h : Txns s t evs) : Txns s (keepMask t) evs :=
  h.of_eq (keepMask_bus t) (keepMask_pins t)
    (h.quiet.of_eq (keepMask_sel t) (keepMask_clk t) (keepMask_datOut t) (keepMask_datDir t)
      (keepMask_peer t) (keepMask_cfg t))
    (keepMask_cfg t) (keepMask_gpioShadow t) (keepMask_seq t) (keepMask_calls t) (keepMask_peer t)
    (congrArg Env.answers (keepMask_env t))

theorem drawByte_answers (e : Env) : (drawByte e).2.answers = e.answers := by
  unfold drawByte
  split <;> rfl

theorem Txns.useResidual {s t : State} {evs : List BusEvent} (h : Txns s t evs) : Txns s (useResidual t) evs :=
  h.of_eq (useResidual_bus t) (useResidual_pins t)
    (h.quiet.of_eq (useResidual_sel t) (useResidual_clk t) (useResidual_datOut t) (useResidual_datDir t)
      (useResidual_peer t) (useResidual_cfg t))
    (useResidual_cfg t) (useResidual_gpioShadow t) (useResidual_seq t) (useResidual_calls t) (useResidual_peer t)
    (drawByte_answers t.env)

/-- Writes in list order (R83). -/
theorem Txns.writes {s : State} (h : s.quiet) (ws : List (RegAddr × Word)) :
    Txns s (memWrites ws s) (ws.map fun w => .write w.1 w.2) := by
  induction ws generalizing s with
  | nil => exact Txns.refl h
  | cons w ws ih =>
    have h1 := Txns.write h w.1 w.2
    exact h1.trans (ih h1.quiet)

/-- The frame of the bank over writes (R77, R83). -/
theorem memWrites_cells {s : State} (h : s.quiet) (ws : List (RegAddr × Word)) :
    cellFrame s.peer.kind (ws.map Prod.fst) s.peer.cells (memWrites ws s).peer.cells := by
  induction ws generalizing s with
  | nil => exact .refl _ _ _
  | cons w ws ih =>
    have hT := Txns.write h w.1 w.2
    have h2 := ih hT.quiet
    rw [hT.kind] at h2
    have h1 : cellFrame s.peer.kind [w.1] s.peer.cells (memWrite w.1 w.2 s).peer.cells := by
      rw [memWrite_quiet _ _ h]
      simp only [Peer.afterWrite_cells]
      exact cellFrame_commitWrite _ _ _ _ _
    refine cellFrame.trans (m2 := (memWrite w.1 w.2 s).peer.cells) (h1.mono ?_) (h2.mono ?_)
    · simp
    · intro a ha
      simp only [List.map_cons, List.mem_cons]
      exact .inr ha

/-- The frame of the bank over a read (R80). -/
theorem memRead_cells {s : State} (h : s.quiet) (a : RegAddr) :
    cellFrame s.peer.kind [] s.peer.cells (memRead a s).peer.cells := by
  rw [memRead_quiet a h]
  simp only [Peer.afterRead_cells]
  exact cellFrame_commitRead _ _ _ _

/-- Writes leave the read accumulator, the session, the environment and the outputs alone. -/
theorem memWrites_frame {s : State} (h : s.quiet) (ws : List (RegAddr × Word)) :
    (memWrites ws s).acc = s.acc ∧ (memWrites ws s).env = s.env ∧ (memWrites ws s).output = s.output ∧
    (memWrites ws s).template = s.template ∧ (memWrites ws s).savedMask = s.savedMask := by
  induction ws generalizing s with
  | nil => exact ⟨rfl, rfl, rfl, rfl, rfl⟩
  | cons w ws ih =>
    have h1 := Txns.write h w.1 w.2
    obtain ⟨a, b, c, d, e⟩ := ih h1.quiet
    have hw := memWrite_quiet w.1 w.2 h
    exact ⟨a.trans (by rw [hw]), b.trans (by rw [hw]), c.trans (by rw [hw]), d.trans (by rw [hw]), e.trans (by rw [hw])⟩

/-- The pins of transactions abstract to their bus events (R152), for the read flag of a well-formed configuration. -/
theorem busOfPins_shiftOut {w : Nat} (v : BitVec w) (cur : List WireCell) (rest : List PinEvent) :
    busOfPins (some cur) (shiftOutPins v ++ rest) = busOfPins (some ((outCells v).reverse ++ cur)) rest := by
  have h : ∀ (l : List Bool) (cur : List WireCell),
      busOfPins (some cur) (l.flatMap outCellPins ++ rest) = busOfPins (some ((l.map .out).reverse ++ cur)) rest := by
    intro l
    induction l with
    | nil => intro cur; rfl
    | cons b l ih => intro cur; simp [outCellPins, busOfPins, ih]
  exact h _ _

theorem busOfPins_shiftIn (v : Word) (cur : List WireCell) (rest : List PinEvent) :
    busOfPins (some cur) (shiftInPins v ++ rest) = busOfPins (some ((inCells v).reverse ++ cur)) rest := by
  have h : ∀ (l : List Bool) (cur : List WireCell) (rest : List PinEvent),
      busOfPins (some cur) (l.flatMap inCellPins ++ rest) = busOfPins (some ((l.map .inp).reverse ++ cur)) rest := by
    intro l
    induction l with
    | nil => intro cur rest; rfl
    | cons b l ih => intro cur rest; simp [inCellPins, busOfPins, ih]
  simp only [shiftInPins, List.cons_append, List.append_assoc, busOfPins]
  rw [h]
  rfl

/-- One transaction's pins abstract to its bus event (R126, R152). -/
theorem busOfPins_pins {f : Byte} (hf : f = 0x80) (e : BusEvent) (rest : List PinEvent) :
    busOfPins none (e.pins f ++ rest) = e :: busOfPins none rest := by
  subst hf
  cases e with
  | write a v =>
    simp only [BusEvent.pins, writePins, beginPins, endPins, List.append_assoc, List.cons_append, List.nil_append,
      busOfPins]
    rw [busOfPins_shiftOut, busOfPins_shiftOut]
    have hc : (outCells v).reverse ++ ((outCells (writeCommand a)).reverse ++ []) =
        (outCells (writeFrame a v)).reverse := by
      have hb : bitsMsb (writeFrame a v) = bitsMsb (writeCommand a) ++ bitsMsb v := bitsMsb_append _ _
      unfold outCells
      rw [hb]
      simp
    rw [hc]
    simp [busOfPins, busOfCells, decode_writeFrame]
  | read a v =>
    simp only [BusEvent.pins, readPins, beginPins, endPins, List.append_assoc, List.cons_append, List.nil_append,
      busOfPins]
    rw [busOfPins_shiftOut, busOfPins_shiftIn]
    have hc : (inCells v).reverse ++ ((outCells (readCommand 0x80 a)).reverse ++ []) = (readCells a v).reverse := by
      simp [readCells]
    have h2 : (readCells a v).drop 8 = inCells v := by
      rw [readCells, List.drop_append_of_le_length (by simp [outCells])]
      simp [outCells]
    have h3 : (inCells v).map cellBit = bitsMsb v := map_cellBit_inp _
    rw [hc]
    simp only [busOfPins, List.reverse_reverse, busOfCells, decode_readCells, h2, h3]
    simp

end Sys2Proof.Machine
end

