-- ==== Sys2Proof/Laws/Transmit.lean ====
section
/-! SUPPORT. The steps of transmit as compositions of transactions: the bus events of steps 1 to 6, what a poll and
step 8 do, and the counts and last writes of their traces (R212 to R222). -/

namespace Sys2Proof.Machine

/-- What transactions leave alone beside what `Txns` says, and the frame of the bank. -/
structure Sent (s t : State) (as : List RegAddr) : Prop where
  seq    : t.seq = s.seq
  output : t.output = s.output
  kind   : t.peer.kind = s.peer.kind
  cells  : cellFrame s.peer.kind as s.peer.cells t.peer.cells

theorem Sent.trans {s t u : State} {as bs : List RegAddr} (h1 : Sent s t as) (h2 : Sent t u bs) :
    Sent s u (as ++ bs) where
  seq := h2.seq.trans h1.seq
  output := h2.output.trans h1.output
  kind := h2.kind.trans h1.kind
  cells := by
    have e := h2.cells
    rw [h1.kind] at e
    exact (h1.cells.mono fun a ha => List.mem_append_left _ ha).trans (e.mono fun a ha => List.mem_append_right _ ha)

theorem Sent.mono {s t : State} {as bs : List RegAddr} (h : Sent s t as) (hs : ∀ a ∈ as, a ∈ bs) : Sent s t bs :=
  ⟨h.seq, h.output, h.kind, h.cells.mono hs⟩

theorem Sent.writes {s : State} (h : s.quiet) (ws : List (RegAddr × Word)) :
    Sent s (memWrites ws s) (ws.map Prod.fst) :=
  ⟨(memWrites_outside ws s).2.2.1, (memWrites_outside ws s).2.2.2, (Txns.writes h ws).kind, memWrites_cells h ws⟩

theorem Sent.write {s : State} (h : s.quiet) (a : RegAddr) (v : Word) : Sent s (memWrite a v s) [a] :=
  Sent.writes h [(a, v)]

theorem Sent.read {s : State} (h : s.quiet) (a : RegAddr) : Sent s (memRead a s) [] :=
  ⟨(memRead_outside a s).2.2.1, (memRead_outside a s).2.2.2, (Txns.read h a).kind, memRead_cells h a⟩

/-! ### Reads -/

/-- The value a read leaves in `ACC` (R150). -/
theorem memRead_acc {s : State} (h : s.quiet) (a : RegAddr) :
    (memRead a s).acc = readValue s.cfg s.peer s.env a := by rw [memRead_quiet a h]

theorem memRead_env {s : State} (h : s.quiet) (a : RegAddr) :
    (memRead a s).env = envAfterRead s.cfg s.peer s.env a := by rw [memRead_quiet a h]

theorem memWrite_env {s : State} (h : s.quiet) (a : RegAddr) (v : Word) : (memWrite a v s).env = s.env := by
  rw [memWrite_quiet a v h]

theorem drawBits_residuals (k : Nat) (e : Env) : (drawBits k e).2.residuals = e.residuals := by
  induction k generalizing e with
  | zero => rfl
  | succ k ih =>
    rw [drawBits, ih]
    unfold drawBit
    split <;> rfl

/-- A read draws no residual byte. -/
theorem memRead_residuals {s : State} (h : s.quiet) (a : RegAddr) :
    (memRead a s).env.residuals = s.env.residuals := by
  rw [memRead_env h, envAfterRead]
  split
  · exact drawBits_residuals 16 _
  · cases s.peer.kind <;> simp only [answerRead, oracleWord] <;> split <;> (try split) <;> (try rfl)

/-! ### Step 4 (R215) -/

/-- The fill pushes the words of the payload, the residual byte being the environment's (R106, R223). -/
theorem fillFifo_spec (payload : List Byte) {s : State} (h : s.quiet) :
    ∃ r, Txns s (fillFifo payload s) ((fifoWords r payload).map (.write s.cfg.addrFskFifo)) ∧
      (∀ r0 rest, s.env.residuals = r0 :: rest → r = r0) ∧ (fillFifo payload s).template = s.template ∧
      (fillFifo payload s).env.answers = s.env.answers ∧ Sent s (fillFifo payload s) [s.cfg.addrFskFifo] := by
  induction payload, s using fillFifo.induct with
  | case1 s =>
    exact ⟨s.env.residuals.headD 0, .refl h, fun r0 rest hr => by simp [hr], rfl, rfl,
      ⟨rfl, rfl, rfl, .refl _ _ _⟩⟩
  | case2 hi s =>
    rw [fillFifo]
    have h1 := (Txns.refl h).useResidual
    refine ⟨(drawByte s.env).1, h1.trans (Txns.write h1.quiet _ _), fun r0 rest hr => by simp [drawByte, hr],
      (memWrite_outside _ _ _).1, ?_, ?_⟩
    · rw [memWrite_env h1.quiet]
      exact drawByte_answers _
    · have := Sent.write h1.quiet s.cfg.addrFskFifo (packBytes hi (drawByte s.env).1)
      exact ⟨this.seq, this.output, this.kind, this.cells⟩
  | case3 hi lo rest s ih =>
    rw [fillFifo]
    have h1 := Txns.write h s.cfg.addrFskFifo (packBytes hi lo)
    have e1 := memWrite_env h s.cfg.addrFskFifo (packBytes hi lo)
    have s1 := Sent.write h s.cfg.addrFskFifo (packBytes hi lo)
    obtain ⟨r, a1, a2, a3, a4, a5⟩ := ih h1.quiet
    rw [h1.cfg] at a1 a5
    rw [e1] at a2 a4
    exact ⟨r, h1.trans a1, a2, a3.trans (memWrite_outside _ _ _).1, a4, (s1.trans a5).mono (by simp)⟩

/-! ### Steps 1 to 6 (R221) -/

/-- Steps 1 to 6 issue the events of `transmitPrefix`, with the template and the mask that the session then holds. -/
theorem startTransmit_spec (payload : List Byte) {s : State} (h : s.quiet) :
    ∃ r, Txns s (startTransmit payload s)
        (transmitPrefix s.cfg payload (startTransmit payload s).template (startTransmit payload s).savedMask r) ∧
      (∀ r0 rest, s.env.residuals = r0 :: rest → r = r0) ∧
      (startTransmit payload s).template = readValue s.cfg s.peer s.env s.cfg.addrFskCtrl ∧
      Sent s (startTransmit payload s) [s.cfg.addrFskCtrl, s.cfg.addrFskLen, s.cfg.addrFskFifo, s.cfg.addrIntMask] := by
  have r2 : Txns s (readTemplate s) _ := (Txns.read h s.cfg.addrFskCtrl).keepTemplate
  have p2 : Sent s (readTemplate s) [] := by
    have := Sent.read h s.cfg.addrFskCtrl
    exact ⟨(keepTemplate_seq _).trans this.seq, (keepTemplate_output _).trans this.output, r2.kind,
      by rw [readTemplate, keepTemplate_peer]; exact this.cells⟩
  have t2 : (readTemplate s).template = (memRead s.cfg.addrFskCtrl s).acc := keepTemplate_template _
  have e2 : (readTemplate s).env.residuals = s.env.residuals := by
    rw [readTemplate, keepTemplate_env]
    exact memRead_residuals h s.cfg.addrFskCtrl
  rw [← t2] at r2
  rw [← memRead_acc h, ← t2]
  have hs : startTransmit payload s =
      enableTransmit (narrowMask (fillFifo payload (writeLength payload.length (clearFifo (readTemplate s))))) := by
    rw [startTransmit]
  generalize readTemplate s = s2 at *
  have r3 : Txns s2 (clearFifo s2) _ := Txns.writes r2.quiet _
  have p3 : Sent s2 (clearFifo s2) _ := Sent.writes r2.quiet _
  have t3 : (clearFifo s2).template = s2.template := (memWrites_outside _ _).1
  have e3 : (clearFifo s2).env = s2.env := (memWrites_frame r2.quiet _).2.1
  have r4 : Txns _ (writeLength payload.length (clearFifo s2)) _ := Txns.write r3.quiet _ _
  have p4 : Sent _ (writeLength payload.length (clearFifo s2)) _ := Sent.write r3.quiet _ _
  have t4 : (writeLength payload.length (clearFifo s2)).template = (clearFifo s2).template :=
    (memWrite_outside _ _ _).1
  have e4 : (writeLength payload.length (clearFifo s2)).env = (clearFifo s2).env := memWrite_env r3.quiet _ _
  obtain ⟨r, r5, a2, t5, _, p5⟩ := fillFifo_spec payload r4.quiet
  rw [e4, e3, e2] at a2
  rw [t4, t3] at t5
  have c5 : (fillFifo payload (writeLength payload.length (clearFifo s2))).cfg = s.cfg := by
    rw [r5.cfg, r4.cfg, r3.cfg, r2.cfg]
  rw [r4.cfg, r3.cfg, r2.cfg] at r5 p5
  rw [r3.cfg, r2.cfg] at r4 p4
  rw [r2.cfg] at r3 p3
  generalize fillFifo payload (writeLength payload.length (clearFifo s2)) = s5 at *
  have r6 := (Txns.read r5.quiet s5.cfg.addrIntMask).keepMask
  have p6 : Sent s5 (keepMask (memRead s5.cfg.addrIntMask s5)) [] := by
    have := Sent.read r5.quiet s5.cfg.addrIntMask
    exact ⟨(keepMask_seq _).trans this.seq, (keepMask_output _).trans this.output, r6.kind,
      by rw [keepMask_peer]; exact this.cells⟩
  have r7 : Txns _ (narrowMask s5) _ := Txns.write r6.quiet _ _
  have p7 : Sent _ (narrowMask s5) _ := Sent.write r6.quiet _ _
  have t7 : (narrowMask s5).template = s5.template := by
    rw [narrowMask, (memWrite_outside _ _ _).1, keepMask_template, (memRead_outside _ _).1]
  have m7 : (narrowMask s5).savedMask = (memRead s5.cfg.addrIntMask s5).acc := by
    rw [narrowMask, (memWrite_outside _ _ _).2.1, keepMask_savedMask]
  have r8 : Txns _ (enableTransmit (narrowMask s5)) _ := Txns.write r7.quiet _ _
  have p8 : Sent _ (enableTransmit (narrowMask s5)) _ := Sent.write r7.quiet _ _
  have t8 : (enableTransmit (narrowMask s5)).template = (narrowMask s5).template := (memWrite_outside _ _ _).1
  have m8 : (enableTransmit (narrowMask s5)).savedMask = (narrowMask s5).savedMask := (memWrite_outside _ _ _).2.1
  rw [r7.cfg, r6.cfg, c5] at r8 p8
  rw [c5] at r7 p7
  rw [c5] at r6 p6 m7
  rw [t7, t5] at r8
  rw [hs]
  refine ⟨r, ?_, a2, t8.trans (t7.trans t5), ?_⟩
  · have := (((((r2.trans r3).trans r4).trans r5).trans r6).trans r7).trans r8
    rw [t8, t7, t5, m8, m7]
    simp only [transmitPrefix]
    simpa using this
  · exact ((((((p2.trans p3).trans p4).trans p5).trans p6).trans p7).trans p8).mono (by simp)

/-- A script that answers other addresses only does not answer this one. -/
theorem takeAnswer_of_ne {a b : RegAddr} (h : a ≠ b) {l : List (RegAddr × Word)} (hl : ∀ x ∈ l, x.1 = b) :
    takeAnswer a l = none := by
  induction l with
  | nil => rfl
  | cons x l ih =>
    have h1 := hl x (by simp)
    obtain ⟨n, v⟩ := x
    simp only at h1
    subst h1
    rw [takeAnswer, if_neg fun h2 => h h2.symm, ih fun x hx => hl x (by simp [hx])]

theorem memRead_env_simBank {s : State} (h : s.quiet) (hk : s.peer.kind = .simBank) {a : RegAddr}
    (ha : takeAnswer a s.env.answers = none) : (memRead a s).env = s.env := by
  rw [memRead_env h, envAfterRead_simBank a hk ha]

/-- Under SimBank steps 1 to 6 use no scripted answer that is for neither FSK_CTRL nor INT_MASK. -/
theorem startTransmit_answers (payload : List Byte) {s : State} (h : s.quiet) (hk : s.peer.kind = .simBank)
    (h1 : takeAnswer s.cfg.addrFskCtrl s.env.answers = none)
    (h2 : takeAnswer s.cfg.addrIntMask s.env.answers = none) :
    (startTransmit payload s).env.answers = s.env.answers := by
  have r2 : Txns s (readTemplate s) _ := (Txns.read h s.cfg.addrFskCtrl).keepTemplate
  have e2 : (readTemplate s).env = s.env := by
    rw [readTemplate, keepTemplate_env]
    exact memRead_env_simBank h hk h1
  rw [startTransmit]
  generalize readTemplate s = s2 at *
  have r3 : Txns s2 (clearFifo s2) _ := Txns.writes r2.quiet _
  have e3 : (clearFifo s2).env = s2.env := (memWrites_frame r2.quiet _).2.1
  have r4 : Txns _ (writeLength payload.length (clearFifo s2)) _ := Txns.write r3.quiet _ _
  have e4 : (writeLength payload.length (clearFifo s2)).env = (clearFifo s2).env := memWrite_env r3.quiet _ _
  obtain ⟨r, r5, _, _, e5, _⟩ := fillFifo_spec payload r4.quiet
  have c5 : (fillFifo payload (writeLength payload.length (clearFifo s2))).cfg = s.cfg := by
    rw [r5.cfg, r4.cfg, r3.cfg, r2.cfg]
  have k5 : (fillFifo payload (writeLength payload.length (clearFifo s2))).peer.kind = s.peer.kind := by
    rw [r5.kind, r4.kind, r3.kind, r2.kind]
  rw [e4, e3, e2] at e5
  generalize fillFifo payload (writeLength payload.length (clearFifo s2)) = s5 at *
  have r6 := (Txns.read r5.quiet s5.cfg.addrIntMask).keepMask
  have e6 : (keepMask (memRead s5.cfg.addrIntMask s5)).env = s5.env := by
    rw [keepMask_env]
    exact memRead_env_simBank r5.quiet (k5.trans hk) (by rw [c5, e5]; exact h2)
  have r7 : Txns _ (narrowMask s5) _ := Txns.write r6.quiet _ _
  have e7 : (narrowMask s5).env = (keepMask (memRead s5.cfg.addrIntMask s5)).env := memWrite_env r6.quiet _ _
  have e8 : (enableTransmit (narrowMask s5)).env = (narrowMask s5).env := memWrite_env r7.quiet _ _
  rw [e8, e7, e6, e5]

/-! ### Step 7 and step 8 (R218, R219) -/

/-- After a poll that answered `v`: step 8 and idle if `v` has the status bit, else one more poll to come. -/
theorem afterPoll_spec (polls : Nat) {s : State} (h : s.quiet) (v : Word) (hv : s.acc = v) :
    (afterPoll polls s).bus =
      (if v.getLsbD s.cfg.statusDoneBit.val then transmitSuffix s.cfg s.template else []).reverse ++ s.bus ∧
    (afterPoll polls s).seq = (if v.getLsbD s.cfg.statusDoneBit.val then .idle else .transmitPoll (polls + 1)) ∧
    (afterPoll polls s).template = s.template ∧ (afterPoll polls s).savedMask = s.savedMask ∧
    (afterPoll polls s).output = s.output ∧ (afterPoll polls s).env = s.env ∧
    cellFrame s.peer.kind [s.cfg.addrStrobe, s.cfg.addrFskCtrl] s.peer.cells (afterPoll polls s).peer.cells ∧
    (afterPoll polls s).quiet := by
  subst hv
  unfold afterPoll statusDone
  split
  · have hT := Txns.writes h [(s.cfg.addrStrobe, s.cfg.strobeClearValue), (s.cfg.addrFskCtrl, s.template)]
    have ho := memWrites_outside [(s.cfg.addrStrobe, s.cfg.strobeClearValue), (s.cfg.addrFskCtrl, s.template)] s
    have hc := memWrites_cells h [(s.cfg.addrStrobe, s.cfg.strobeClearValue), (s.cfg.addrFskCtrl, s.template)]
    have hf := memWrites_frame h [(s.cfg.addrStrobe, s.cfg.strobeClearValue), (s.cfg.addrFskCtrl, s.template)]
    unfold finishTransmit
    rw [moveSeq_bus, moveSeq_seq, moveSeq_template, moveSeq_savedMask, moveSeq_output, moveSeq_peer, moveSeq_env]
    exact ⟨hT.bus, rfl, ho.1, ho.2.1, ho.2.2.2, hf.2.1, hc,
      hT.quiet.of_eq (moveSeq_sel _ _) (moveSeq_clk _ _) (moveSeq_datOut _ _) (moveSeq_datDir _ _) (moveSeq_peer _ _)
        (moveSeq_cfg _ _)⟩
  · exact ⟨rfl, rfl, rfl, rfl, rfl, rfl, .refl _ _ _,
      h.of_eq (moveSeq_sel _ _) (moveSeq_clk _ _) (moveSeq_datOut _ _) (moveSeq_datDir _ _) (moveSeq_peer _ _)
        (moveSeq_cfg _ _)⟩

theorem step_of_polling {s : State} {polls : Nat} (h : s.seq = .transmitPoll polls) : step s = pollStatus polls s := by
  simp only [step, h]

/-! ### Counts and last writes (R220, R222) -/

theorem writeCount_append (xs ys : List BusEvent) : writeCount (xs ++ ys) = writeCount xs + writeCount ys := by
  induction xs with
  | nil => simp [writeCount]
  | cons x xs ih => cases x <;> simp [writeCount, ih]; omega

theorem readCount_append (xs ys : List BusEvent) : readCount (xs ++ ys) = readCount xs + readCount ys := by
  induction xs with
  | nil => simp [readCount]
  | cons x xs ih => cases x <;> simp [readCount, ih]; omega

theorem lastWrite_append (a : RegAddr) (o : Option Word) (xs ys : List BusEvent) :
    lastWrite a o (xs ++ ys) = lastWrite a (lastWrite a o xs) ys := by
  induction xs generalizing o with
  | nil => rfl
  | cons x xs ih => cases x <;> simp [lastWrite, ih]

/-- A payload of n bytes takes ceil(n/2) FIFO words (R106, R122). -/
theorem count_fifoWords (a : RegAddr) (r : Byte) (payload : List Byte) :
    writeCount ((fifoWords r payload).map (.write a)) = (payload.length + 1) / 2 ∧
    readCount ((fifoWords r payload).map (.write a)) = 0 := by
  induction payload using fifoWords.induct with
  | case1 => simp [fifoWords, writeCount, readCount]
  | case2 hi => simp [fifoWords, writeCount, readCount]
  | case3 hi lo rest ih => simp [fifoWords, writeCount, readCount, ih.1, ih.2]; omega

theorem lastWrite_fifoWords {a f : RegAddr} (h : f ≠ a) (r : Byte) (payload : List Byte) (o : Option Word) :
    lastWrite a o ((fifoWords r payload).map (.write f)) = o := by
  induction payload using fifoWords.induct with
  | case1 => rfl
  | case2 => simp [fifoWords, lastWrite, h]
  | case3 hi lo rest ih => simp [fifoWords, lastWrite, h, ih]

end Sys2Proof.Machine
end

