-- ==== Sys2Proof/Laws/Words.lean ====
section
/-! SUPPORT. The assembled words bit by bit: a placed field holds its value, lies inside its mask, and leaves disjoint
fields alone (R107, R109, R111, R121). -/

namespace Sys2Proof.Machine

/-- A field reads back as its value cut to its width (R121). -/
theorem extract_placeField {w l : Nat} (n : Nat) (h : w + l ≤ 16) :
    (placeField w l n).extractLsb' l w = BitVec.ofNat w n := by
  apply BitVec.eq_of_getLsbD_eq
  intro i hi
  have h1 : l + i < 16 := by omega
  have h2 : i < 16 := by omega
  have h3 : ¬ (l + i < l) := by omega
  have h4 : (n % 2 ^ w).testBit i = n.testBit i := by simp [Nat.testBit_mod_two_pow, hi]
  rw [BitVec.getLsbD_extractLsb', placeField, BitVec.getLsbD_shiftLeft, BitVec.getLsbD_ofNat, BitVec.getLsbD_ofNat,
    Nat.add_sub_cancel_left, h4]
  simp [hi, h1, h2, h3]

/-- A set bit of a field lies in it. -/
theorem placeField_range {w l n i : Nat} (hi : (placeField w l n).getLsbD i = true) : l ≤ i ∧ i < l + w := by
  simp only [placeField, BitVec.getLsbD_shiftLeft, BitVec.getLsbD_ofNat, Bool.and_eq_true, decide_eq_true_eq,
    Bool.not_eq_true', decide_eq_false_iff_not, Nat.testBit_mod_two_pow] at hi
  omega

theorem getLsbD_fieldMask (w l : Nat) {i : Nat} (hi : i < 16) :
    (fieldMask w l).getLsbD i = decide (l ≤ i ∧ i < l + w) := by
  rw [fieldMask, BitVec.getLsbD_ofNat, Nat.mul_comm, Nat.testBit_two_pow_mul, Nat.testBit_two_pow_sub_one]
  by_cases h1 : l ≤ i <;> simp [h1, hi]
  omega

theorem getLsbD_of_disjoint {a b : Word} (h : disjointMasks a b = true) {i : Nat} (ha : a.getLsbD i = true) :
    b.getLsbD i = false := by
  simp only [disjointMasks, beq_iff_eq] at h
  have := congrArg (fun x => x.getLsbD i) h
  simpa [ha] using this

theorem disjointMasks_comm {a b : Word} (h : disjointMasks a b = true) : disjointMasks b a = true := by
  simp only [disjointMasks, beq_iff_eq] at *
  rw [BitVec.and_comm]
  exact h

theorem extract_or (x y : Word) (l w : Nat) :
    (x ||| y).extractLsb' l w = x.extractLsb' l w ||| y.extractLsb' l w := by
  apply BitVec.eq_of_getLsbD_eq
  intro i hi
  simp [hi]

/-- A word with no bit in a field reads as zero there. -/
theorem extract_eq_zero {x : Word} {l w : Nat} (hw : w + l ≤ 16)
    (h : ∀ i, (fieldMask w l).getLsbD i = true → x.getLsbD i = false) : x.extractLsb' l w = 0 := by
  apply BitVec.eq_of_getLsbD_eq
  intro i hi
  have hb : (fieldMask w l).getLsbD (l + i) = true := by
    rw [getLsbD_fieldMask w l (by omega)]
    simp
    omega
  simp [hi, h _ hb]

/-- A field leaves a disjoint field alone. -/
theorem extract_placeField_disjoint {w l w' l' : Nat} (n : Nat) (h : w + l ≤ 16)
    (hd : disjointMasks (fieldMask w l) (fieldMask w' l') = true) : (placeField w' l' n).extractLsb' l w = 0 := by
  apply extract_eq_zero h
  intro i hi
  have h2 := getLsbD_of_disjoint hd hi
  by_cases h16 : i < 16
  · rw [getLsbD_fieldMask w' l' h16] at h2
    rw [Bool.eq_false_iff]
    intro h3
    have := placeField_range h3
    simp at h2
    omega
  · exact BitVec.getLsbD_of_ge _ _ (by omega)

/-- A field has no bit outside its mask. -/
theorem placeField_and_not_fieldMask (w l n : Nat) : placeField w l n &&& ~~~(fieldMask w l) = 0 := by
  apply BitVec.eq_of_getLsbD_eq
  intro i hi
  rw [BitVec.getLsbD_and, BitVec.getLsbD_not, getLsbD_fieldMask w l hi]
  by_cases hp : (placeField w l n).getLsbD i = true
  · have := placeField_range hp
    simp [this]
  · simp [hp]

/-- The shadow update, bit by bit (R111, R170). -/
theorem getLsbD_shadowWith (w : Word) (b : Fin 16) (x : Bool) {i : Nat} (hi : i < 16) :
    (shadowWith w b x).getLsbD i = if i = b.val then x else w.getLsbD i := by
  have hb := b.isLt
  unfold shadowWith pinMask
  cases x <;> simp [hi] <;> by_cases h : i = b.val <;> simp [h]
  · intro _
    omega
  · intro _ _
    omega

/-- The ties of the tone word are one residue (R110): the ratio 10.32444 in lowest terms has the denominator 25000. -/
theorem tone_tie (b : Nat) : (b * 1032444) % 100000 = 50000 ↔ b % 25000 = 12500 := by
  have e1 : (b * 1032444) % 100000 = 4 * ((b * 258111) % 25000) := by
    rw [show b * 1032444 = 4 * (b * 258111) by ring, show 100000 = 4 * 25000 by norm_num, Nat.mul_mod_mul_left]
  rw [e1, Nat.mul_mod, show 258111 % 25000 = 8111 by norm_num]
  have hb : b % 25000 < 25000 := Nat.mod_lt _ (by norm_num)
  generalize b % 25000 = r at *
  have e2 : 4 * (r * 8111 % 25000) = 50000 ↔ r * 8111 % 25000 = 12500 := by omega
  rw [e2]
  constructor
  · intro h
    have h2 : r * 8111 ≡ 12500 * 8111 [MOD 25000] := h
    have h3 : r % 25000 = 12500 % 25000 := Nat.ModEq.cancel_right_of_coprime (by norm_num) h2
    rwa [Nat.mod_eq_of_lt hb] at h3
  · rintro rfl
    norm_num

end Sys2Proof.Machine
end

