-- ==== Sys2Proof/Tests/Slice0.lean ====
section
/-! SUPPORT. Tests whose expected results are the spec's (spec/95_test_vectors.md, V<n>, E<n>, P<n>; the rules R<n>), the
smoke tests of the checks, and a witness for the hypotheses of each statement that has any. -/

namespace Sys2Proof.Tests

open Sys2Proof.Machine

set_option maxRecDepth 100000

/-! ### States the tests start from -/

/-- Reset with SimBank on the bus (Part 3 of the vectors), some known cells, and scripted status and residual. -/
def bank (cells : Memory) (answers : List (RegAddr × Word) := []) (residuals : List Byte := []) : State :=
  { State.reset with
    peer := { Peer.reset with kind := .simBank, cells := cells }
    env := { Env.reset with answers := answers, residuals := residuals } }

/-- Reset with nobody on the bus and the levels the line will show. -/
def lonely (samples : List Bool) : State :=
  { State.reset with peer := { Peer.reset with kind := .absent }, env := { Env.reset with samples := samples } }

/-- Inside a transaction: selected, clock low, the data line BBSL's. -/
def open_ (s : State) : State := { s with sel := .asserted, clk := false, seq := .inTransaction }

/-- Reset, which has the contract chip on the bus, with one known register and `n` edges of a frame counted. -/
def midFrame (n : Nat) : State :=
  { State.reset with peer := { Peer.reset with cells := [(0x30, 0x1234)], edges := n } }

/-- The machine with a shadow of its own. -/
def shadowed (v : Word) : State := { bank [] with gpioShadow := v }

/-- The machine with the host about to issue a call. -/
def calling (c : Call) (s : State) : State := { s with calls := [c] }

/-- Transmit waits in step 7, `k` polls made. -/
def polling (k : Nat) (s : State) : State := { s with seq := .transmitPoll k }

/-- An operation that runs pin by pin stands at pin event `e` of its step `k`. -/
def standing (op : Instr) (k : Nat) (piece : Piece) (e polls : Nat) (s : State) : State :=
  { s with seq := .running op ⟨k, piece, e, polls⟩ }

/-- What `f` sees in the next state, if there is one. -/
def after {α : Type} (o : Host.Outcome State Fault Refusal) (f : State → α) : Option α := (nextState o).map f

/-- The reason of a refusal, if it is one. -/
def refusal (o : Host.Outcome State Fault Refusal) : Option Refusal :=
  match o with
  | .next _ => none
  | .fault _ => none
  | .refused r => some r

/-- The outgoing levels of a pin trace, in order. -/
def levels (pins : List PinEvent) : List Nat :=
  pins.filterMap fun e => match e with
    | .datOut b => some b.toNat
    | .sel _ => none
    | .clk _ => none
    | .datDir _ => none
    | .sample _ => none
    | .wait _ => none

/-- The parameters of V36. -/
def params1200 : ModemParameters where
  baudRate := 1200
  preambleType := 2
  txMode := 1
  rxMode := 3
  rxBandwidth := 4
  syncLength := 0
  preambleLength := 0
  sync0 := 0x85
  sync1 := 0xCF
  sync2 := 0xAB
  sync3 := 0x45

/-- The parameters of a V38 row. -/
def modes (preambleType txMode rxMode rxBandwidth : Nat) : ModemParameters :=
  { params1200 with preambleType := preambleType, txMode := txMode, rxMode := rxMode, rxBandwidth := rxBandwidth }

/-! ### The checks refuse ill-formed terms -/

theorem smoke_address_refused :
    Instr.wellFormed Cfg.default (.writeRegister 128 0) = false ∧ Instr.wellFormed Cfg.default (.readRegister 0xB0) = false ∧
    Instr.wellFormed Cfg.default (.regWrite 128 0) = false ∧ Instr.wellFormed Cfg.default (.regRead 128) = false ∧
    Instr.wellFormed Cfg.default (.writeRegister 127 65535) = true := by decide

theorem smoke_value_refused :
    Instr.wellFormed Cfg.default (.writeRegister 0 65536) = false ∧ Instr.wellFormed Cfg.default (.regWrite 0 65536) = false ∧
    Instr.wellFormed Cfg.default (.pulseWrite 0 65536 1) = false := by decide

/-- V24. -/
theorem smoke_pin_refused :
    Instr.wellFormed Cfg.default (.setOutputPin 7 true) = false ∧
    Instr.wellFormed Cfg.default (.setOutputPin 6 true) = true := by decide

/-- V33. -/
theorem smoke_flag_refused :
    Instr.wellFormed Cfg.default (.pulseWrite 0x59 0x0068 0x8800) = false ∧
    Instr.wellFormed Cfg.default (.pulseWrite 0x59 0x0068 0) = false ∧
    Instr.wellFormed Cfg.default (.pulseWrite 0x59 0x0068 0x10000) = false ∧
    Instr.wellFormed Cfg.default (.pulseWrite 0x59 0x0068 0x8000) = true := by decide

/-- V34. -/
theorem smoke_range_refused :
    Instr.wellFormed Cfg.default (.readRegisterDiagnosticDump 0x11 0x10) = false ∧
    Instr.wellFormed Cfg.default (.readRegisterDiagnosticDump 0 128) = false ∧
    Instr.wellFormed Cfg.default (.readRegisterDiagnosticDump 0x10 0x10) = true := by decide

/-- Each condition of R8, broken alone. -/
theorem smoke_cfg_refused :
    Cfg.default.wf = true ∧
    Cfg.wf { Cfg.default with readFlag := 0x40 } = false ∧ Cfg.wf { Cfg.default with readFlag := 0 } = false ∧
    Cfg.wf { Cfg.default with addrFskLen := 0x59 } = false ∧ Cfg.wf { Cfg.default with addrToneEn := 0x72 } = false ∧
    Cfg.wf { Cfg.default with intTxFinished := 0x8001 } = false ∧ Cfg.wf { Cfg.default with softResetFlag := 0 } = false ∧
    Cfg.wf { Cfg.default with ctrlTxFifoClear := 0 } = false ∧ Cfg.wf { Cfg.default with ctrlTxEnable := 0x8000 } = false ∧
    Cfg.wf { Cfg.default with txModeLsb := 14 } = false ∧ Cfg.wf { Cfg.default with rxModeLsb := 12 } = false ∧
    Cfg.wf { Cfg.default with modeBase := 0x2000 } = false ∧ Cfg.wf { Cfg.default with lenHi3Lsb := 6 } = false ∧
    Cfg.wf { Cfg.default with lenLo8Lsb := 9 } = false ∧ Cfg.wf { Cfg.default with pinBit := [(0, 6), (1, 6)] } = false ∧
    Cfg.wf { Cfg.default with pinBit := [(0, 6), (0, 5)] } = false ∧
    Cfg.wf { Cfg.default with kToneNum := 0 } = false := by decide

/-! ### Decoding, from words written out from the spec's encodings -/

/-- V5: rw 0, address 0110000, data 1010010101011010. -/
theorem test_decode_writeRegister :
    decodeTableWord 24 0b001100001010010101011010 = some (.writeRegister 0x30 0xA55A) := by decide

/-- V6: the two corners. -/
theorem test_decode_writeRegister_corners :
    decodeTableWord 24 0x000000 = some (.writeRegister 0 0) ∧
    decodeTableWord 24 0x7FFFFF = some (.writeRegister 0x7F 0xFFFF) := by decide

/-- V7, V8: rw 1, then the address. -/
theorem test_decode_readRegister :
    decodeTableWord 24 0b101100000000000000000000 = some (.readRegister 0x30) ∧
    decodeTableWord 24 0x8C0000 = some (.readRegister 0x0C) ∧ decodeTableWord 24 0xFF0000 = some (.readRegister 0x7F) ∧
    decodeTableWord 24 0x800000 = some (.readRegister 0) := by decide

/-- V20's frame: on the wire setOutputPin is the write of the whole shadow (its row has "no encoding of its own"). -/
theorem test_decode_setOutputPin_row : decodeTableWord 24 0x339040 = some (.writeRegister 0x33 0x9040) := by decide

/-- E1, V2. -/
theorem test_decode_shiftOut8 :
    decode [.out true, .out false, .out true, .out true, .out false, .out false, .out false, .out false] =
      .ok (.shiftOut8 0xB0) ∧
    decodeTableWord 8 0b00000001 = some (.shiftOut8 1) := by decide

/-- V3. -/
theorem test_decode_shiftOut16 : decodeTableWord 16 0b1010010101011010 = some (.shiftOut16 0xA55A) := by decide

/-- V4: sixteen samples. -/
theorem test_decode_shiftIn16 :
    decode ([0, 0, 0, 0, 0, 0, 0, 0, 0, 1, 1, 0, 1, 0, 0, 0].map fun b => .inp (b == 1)) = .ok .shiftIn16 := by decide

/-- R77, R100: what is no frame is rejected, by name. -/
theorem test_decode_rejects :
    decode [] = .error .noCells ∧ decode (outCells (0x80A55A : BitVec 24)) = .error .readFrameDrivenByBlock ∧
    decode (outCells (0x30 : Byte) ++ inCells (0 : Word)) = .error .writeFrameDrivenByChip ∧
    decode (outCells (0 : BitVec 23)) = .error (.cellCount 23 0) ∧
    decode (inCells (0 : Word) ++ outCells (0 : Byte)) = .error .driversMixed := by decide

/-- The encoder writes the same words (V5, V7). -/
theorem test_encode :
    encode (.writeRegister 0x30 0xA55A) = some (outCells (0x30A55A : BitVec 24)) ∧
    encode (.readRegister 0x30) = some (outCells (0xB0 : Byte) ++ inCells (0 : Word)) := by decide

/-! ### One step of each operation -/

/-- R142. -/
theorem test_txnBegin : after (exec .txnBegin State.reset) (fun t => (t.pinTrace, t.sel, t.clk)) =
    some ([.clk false, .wait 1, .sel .asserted], .asserted, false) := by decide

/-- V1: 48 events, the line ends at 0, the clock low. -/
theorem test_shiftOut8 :
    after (exec (.shiftOut8 0xB0) (open_ State.reset)) (fun t => (levels t.pinTrace, t.pinTrace.length, t.datOut, t.clk)) =
      some ([1, 0, 1, 1, 0, 0, 0, 0], 48, false, false) := by decide

/-- V3. -/
theorem test_shiftOut16 : after (exec (.shiftOut16 0xA55A) (open_ State.reset)) (fun t => levels t.pinTrace) =
    some [1, 0, 1, 0, 0, 1, 0, 1, 0, 1, 0, 1, 1, 0, 1, 0] := by decide

/-- V4: the first sample is bit 15. -/
theorem test_shiftIn16_first_is_bit_15 :
    after (exec .shiftIn16 (open_ (lonely (true :: List.replicate 14 false ++ [true]))))
      (fun t => (t.acc, t.outputTrace, t.pinTrace.length, t.datDir)) = some (0x8001, [.value 0x8001], 82, .out) := by decide

/-- V4: the other sample list. -/
theorem test_shiftIn16 :
    after (exec .shiftIn16 (open_ (lonely ([0, 0, 0, 0, 0, 0, 0, 0, 0, 1, 1, 0, 1, 0, 0, 0].map (· == 1))))) (·.acc) =
      some 0x0068 := by decide

/-- R146. -/
theorem test_txnEnd : after (exec .txnEnd (open_ State.reset)) (fun t => (t.pinTrace, t.sel, t.clk, t.datOut)) =
    some ([.sel .deasserted, .wait 1, .clk true, .datOut true], .deasserted, true, true) := by decide

/-- V5: the line, the counts, the bus event; and the idle level after them (V11). -/
theorem test_writeRegister :
    after (exec (.writeRegister 0x30 0xA55A) (bank []))
      (fun t => (levels t.pinTrace, t.pinTrace.length, timeUnits t.pinTrace, t.busTrace)) =
      some ([0, 0, 1, 1, 0, 0, 0, 0, 1, 0, 1, 0, 0, 1, 0, 1, 0, 1, 0, 1, 1, 0, 1, 0, 1], 151, 74, [.write 0x30 0xA55A]) := by
  decide

/-- V9, R116. -/
theorem test_writeRegister_refused :
    refusal (exec (.writeRegister 0x80 0) State.reset) = some .addressOutOfRange ∧
    refusal (exec (.writeRegister 0x7F 0x10000) State.reset) = some .valueOutOfRange := by decide

/-- V7: the samples of a line nobody drives. -/
theorem test_readRegister :
    after (exec (.readRegister 0x30) (lonely ([0, 0, 0, 1, 0, 0, 1, 0, 0, 0, 1, 1, 0, 1, 0, 0].map (· == 1))))
      (fun t => (levels t.pinTrace, t.pinTrace.length, timeUnits t.pinTrace, t.busTrace, t.outputTrace)) =
      some ([1, 0, 1, 1, 0, 0, 0, 0, 1], 137, 58, [.read 0x30 0x1234], [.value 0x1234]) := by decide

/-- V12, P1: SimSlave drives the cell, bit 15 first. -/
theorem test_readRegister_simSlave :
    after (exec (.readRegister 0x30) (bank [(0x30, 0xA55A)])) (fun t => (t.acc, t.peer.cmd, t.peer.cells)) =
      some (0xA55A, 0xB0, [(0x30, 0xA55A)]) := by decide

/-- V35. -/
theorem test_regWrite : after (exec (.regWrite 0x30 0xA55A) (bank [])) (fun t => (t.busTrace, t.peer.cells)) =
    some ([.write 0x30 0xA55A], [(0x30, 0xA55A)]) := by decide

/-- V35. -/
theorem test_regRead : after (exec (.regRead 0x30) (bank [(0x30, 0x1234)])) (·.outputTrace) = some [.value 0x1234] := by
  decide

/-- V20. -/
theorem test_setOutputPin_set : after (exec (.setOutputPin 0 true) (shadowed 0x9000)) (fun t => (t.gpioShadow, t.busTrace)) =
    some (0x9040, [.write 0x33 0x9040]) := by decide

/-- V21. -/
theorem test_setOutputPin_clear :
    after (exec (.setOutputPin 3 false) (shadowed 0x9048)) (fun t => (t.gpioShadow, t.busTrace)) =
      some (0x9040, [.write 0x33 0x9040]) := by decide

/-- V30; V32 has the same trace. -/
theorem test_pulseWrite :
    after (exec (.pulseWrite 0x59 0x0068 0x8000) (bank [])) (·.busTrace) =
      some [.write 0x59 0x8068, .write 0x59 0x0068] ∧
    after (exec (.pulseWrite 0x59 0x8068 0x8000) (bank [])) (·.busTrace) =
      some [.write 0x59 0x8068, .write 0x59 0x0068] := by decide

/-- V33. -/
theorem test_pulseWrite_refused :
    refusal (exec (.pulseWrite 0x59 0x0068 0x8800) State.reset) = some .flagNotOneHot ∧
    refusal (exec (.pulseWrite 0x59 0x0068 0) State.reset) = some .flagNotOneHot := by decide

/-- V34. -/
theorem test_dump :
    after (exec (.readRegisterDiagnosticDump 0x58 0x5A) (bank [(0x58, 0x2C28), (0x59, 0x0068), (0x5A, 0x85CF)]))
      (fun t => (t.busTrace, t.outputTrace)) =
      some ([.read 0x58 0x2C28, .read 0x59 0x0068, .read 0x5A 0x85CF],
        [.pair 0x58 0x2C28, .pair 0x59 0x0068, .pair 0x5A 0x85CF]) := by decide

/-- V34. -/
theorem test_dump_refused :
    refusal (exec (.readRegisterDiagnosticDump 0x11 0x10) State.reset) = some .emptyRange := by decide

/-- V36. -/
theorem test_configure : after (exec (.configure params1200) (bank [])) (·.busTrace) =
    some [.write 0x70 0x00E0, .write 0x72 0x3065, .write 0x58 0x2C28, .write 0x5A 0x85CF, .write 0x5B 0xAB45,
      .write 0x5C 0x5625] := by decide

/-- R200, R7: a computed word after the six; a row of params-dependent length and addresses; a free function. -/
theorem test_configure_extra :
    (configureWrites { Cfg.default with extraWrites := .listed [⟨.lit 1, .lit 0x59,
        .bitOr (.lit 0x0060) (.shiftLeft (.mod (.field .syncLength) (.lit 2)) (.lit 3))⟩] }
      { params1200 with syncLength := 3 }).drop 6 = [(0x59, 0x0068)] ∧
    (configureWrites { Cfg.default with extraWrites := .listed [⟨.ifLess (.field .baudRate) (.lit 2400) (.lit 2) (.lit 0),
        .add (.lit 0x10) .index, .sub (.field .preambleLength) (.lit 1)⟩] }
      { params1200 with preambleLength := 8 }).drop 6 = [(0x10, 7), (0x11, 7)] ∧
    (configureWrites { Cfg.default with extraWrites := .free 0 } params1200).drop 6 = Config.extraWritesFn 0 params1200 :=
  ⟨by decide, by decide, rfl⟩

/-- V52. -/
theorem test_transmit_rejected :
    exec (.transmit none [1, 2, 3, 4, 5]) (bank []) = .next (bank []) ∧
    exec (.transmit (some params1200) []) (bank []) = .next (bank []) ∧
    exec (.transmit (some params1200) (List.replicate 257 0)) (bank []) = .next (bank []) :=
  ⟨rfl, rfl, rfl⟩

/-- P3, up to the first poll: an odd payload, a residual byte that the environment chose, a status without bit 0. -/
theorem test_transmit :
    after (exec (.transmit (some params1200) [0x11, 0x22, 0x33, 0x44, 0x55])
      (bank [(0x3F, 0x1234), (0x59, 0x0068)] [(0x0C, 0x0000)] [0xEE])) (fun t => (t.busTrace, t.seq)) =
      some ([.read 0x59 0x0068, .write 0x59 0x8068, .write 0x59 0x0068, .write 0x5D 0x0500, .write 0x5F 0x1122,
        .write 0x5F 0x3344, .write 0x5F 0x55EE, .read 0x3F 0x1234, .write 0x3F 0x8000, .write 0x59 0x0868,
        .read 0x0C 0x0000], .transmitPoll 1) := by decide

/-- P3, the poll that ends it (and V55: one read of the status register); `TEMPLATE` is what step 1 left. -/
theorem test_transmit_last_poll :
    after (step (polling 1 { bank [(0x59, 0x0868)] [(0x0C, 0x0001)] with template := 0x0068 }))
      (fun t => (t.busTrace, t.seq, t.peer.cells)) =
      some ([.read 0x0C 0x0001, .write 0x02 0x0000, .write 0x59 0x0068], .idle, [(0x02, 0), (0x59, 0x0068)]) := by decide

/-- V56. -/
theorem test_status_bits : [0xFFFE, 0x8000, 0x0002, 0x0001, 0xFFFF, 0x8001].map (statusDone Cfg.default) =
    [false, false, false, true, true, true] := by decide

/-- R225. -/
theorem test_poll_limit :
    (match step (polling 2 { bank [] with cfg := { Cfg.default with pollLimit := some 2 } }) with
      | .fault f => some f
      | .next _ => none
      | .refused _ => none) = some .pollLimitReached := by decide

/-- R41, R142: a call that runs pin by pin begins without an event; three events later the device is selected and `SEQ` is
at the first event of the command byte. -/
theorem test_pinwise_start :
    (runSteps 4 (calling (.pinwise (.writeRegister 0x30 0xA55A)) (bank []))).map (fun t => (t.pinTrace, t.seq)) =
      some ([.clk false, .wait 1, .sel .asserted],
        .running (.writeRegister 0x30 0xA55A) ⟨0, .write 0x30 0xA55A, 3, 0⟩) := by decide

/-- R41, R9: the last of the 151 events completes the bus event, and `SEQ` returns to idle. -/
theorem test_pinwise_end :
    after (step (standing (.writeRegister 0x30 0xA55A) 0 (.write 0x30 0xA55A) 150 0 (bank [])))
      (fun t => (t.busTrace, t.seq, t.datOut)) = some ([.write 0x30 0xA55A], .idle, true) := by decide

/-- R41, R218: after the last event of a poll without the status bit `SEQ` moves back to the poll's first event, after one
with it on to step 8. -/
theorem test_pinwise_poll :
    after (step (standing (.transmit (some params1200) [0xC3]) 8 (.read 0x0C) 136 1 (bank []))) (·.seq) =
      some (.running (.transmit (some params1200) [0xC3]) ⟨8, .read 0x0C, 0, 2⟩) ∧
    after (step { standing (.transmit (some params1200) [0xC3]) 8 (.read 0x0C) 136 1 (bank []) with acc := 1 }) (·.seq) =
      some (.running (.transmit (some params1200) [0xC3]) ⟨9, .write 0x02 0x0000, 0, 1⟩) := by decide

/-! ### The words an operation assembles -/

/-- E2, V37. -/
theorem test_tone_words : [0, 1, 2, 110, 300, 600, 1200, 2400, 4800, 6347, 6348, 9600, 12500, 37500, 65535].map
    (toneWord Cfg.default) = [0x0000, 0x000A, 0x0015, 0x0470, 0x0C19, 0x1833, 0x3065, 0x60CB, 0xC195, 0xFFF9, 0x0004, 0x832B,
      0xF820, 0xE85F, 0x5304] := by decide

/-- V38. -/
theorem test_mode_words :
    [modes 0 0 0 0, modes 1 0 0 0, modes 0 1 0 0, modes 0 0 1 0, modes 0 0 0 1, modes 2 1 3 4, modes 3 7 7 7,
      modes 6 9 0 0].map (modeWord Cfg.default) =
    [0x0000, 0x0010, 0x2000, 0x0400, 0x0002, 0x2C28, 0xFC3E, 0x2020] := by decide

/-- V39. -/
theorem test_sync_words :
    sync0Word { params1200 with sync0 := 0xFF, sync1 := 0x00 } = 0xFF00 ∧
    sync1Word { params1200 with sync2 := 0x56, sync3 := 0x78 } = 0x5678 := by decide

/-- V50. -/
theorem test_length_words : [1, 2, 5, 127, 128, 255, 256, 257, 511, 512, 2047].map (lenWord Cfg.default) =
    [0x0100, 0x0200, 0x0500, 0x7F00, 0x8000, 0xFF00, 0x0020, 0x0120, 0xFF20, 0x0040, 0xFFE0] := by decide

/-- V51. -/
theorem test_fifo_words :
    fifoWords 0xEE [0x11] = [0x11EE] ∧ fifoWords 0xEE [0x11, 0x22] = [0x1122] ∧
    fifoWords 0xEE [0x11, 0x22, 0x33, 0x44, 0x55] = [0x1122, 0x3344, 0x55EE] := by decide

/-! ### Witnesses: for each statement with hypotheses, states and operands that meet all of them -/

/-- Between two steps of whole calls, or of whole polls. -/
def atRest : Seq → Bool
  | .idle => true
  | .inTransaction => true
  | .transmitPoll _ => true
  | .running _ _ => false

/-- The conditions of the invariant that a test state meets by computation. -/
def ready (s : State) : Bool :=
  s.cfg.wf && s.clk && s.datOut && decide (s.sel = .deasserted ∧ s.datDir = .out ∧ s.peer.driveBit = none) &&
    s.peer.cells.wf && decide (s.peer.edges ≤ 24) && atRest s.seq

theorem inv_of_ready {s : State} (h : ready s = true) : s.Inv := by
  simp only [ready, Bool.and_eq_true, decide_eq_true_eq] at h
  obtain ⟨⟨⟨⟨⟨⟨hc, hk⟩, ho⟩, hs, hd, hb⟩, hm⟩, he⟩, hq⟩ := h
  refine ⟨hc, ?_, hm, he, by simp [hb], fun _ => hb⟩
  unfold State.seqOk
  split
  · exact ⟨hs, hk, ho, hd⟩
  · exact hd
  · exact ⟨hs, hk, ho, hd⟩
  · next h => simp [h, atRest] at hq

/-- A state in which an operation begins a step meets the invariant if it does so idle. -/
theorem inv_of_standing {s : State} (h : s.callable) (op : Instr) (k polls : Nat) {piece : Piece}
    (hp : piece.closes = true) : (standing op k piece 0 polls s).Inv := by
  have hl := runActs_lines s.cfg piece (s := standing op k piece 0 polls s) h.linesIdle.2.2.2
  exact ⟨h.2.1, ⟨hl.1, fun _ => hl.2 hp⟩, h.2.2.2⟩

theorem callable_of_ready {s : State} (hq : s.seq = .idle) (h : ready s = true) : s.callable := ⟨hq, inv_of_ready h⟩

theorem next_of_after {α : Type} {o : Host.Outcome State Fault Refusal} {f : State → α} {x : α}
    (h : after o f = some x) : ∃ t, o = .next t ∧ f t = x := by
  cases o with
  | next s => exact ⟨s, rfl, by simpa [after, nextState] using h⟩
  | fault r => simp [after, nextState] at h
  | refused r => simp [after, nextState] at h

theorem some_of_map {α β : Type} {o : Option α} {f : α → β} {x : β} (h : o.map f = some x) : ∃ t, o = some t ∧ f t = x := by
  simpa using h

/-- A pin table that reaches both ends of the shadow (R171). -/
def wideCfg : Cfg := { Cfg.default with pinBit := [(0, 15), (1, 0)] }

/-- SimBank under another configuration. -/
def bankOf (c : Cfg) : State := { bank [] with cfg := c, gpioShadow := c.gpioShadowInit }

theorem reset_callable : State.reset.callable := callable_of_ready rfl (by decide)

theorem bank_callable : (bank []).callable := callable_of_ready rfl (by decide)

theorem lonely_callable (samples : List Bool) : (lonely samples).callable :=
  callable_of_ready (s := lonely samples) rfl (show ready (lonely []) = true by decide)

theorem open_shifting (s : State) (h : s.datDir = .out) : (open_ s).shifting := ⟨rfl, rfl, h⟩

theorem witness_ResetSatisfiesInvariant : Cfg.default.wf = true ∧ wideCfg.wf = true := by decide

/-- A call at an idle boundary, a primitive inside a transaction, a poll, a pin event. -/
theorem witness_StepKeepsInvariant :
    (∃ s t : State, s.Inv ∧ step s = .next t ∧ t.busTrace = [.write 0x7F 0xFFFF]) ∧
    (∃ s t : State, s.Inv ∧ step s = .next t ∧ s.seq = .inTransaction ∧ t.seq = .idle) ∧
    (∃ s t : State, s.Inv ∧ step s = .next t ∧ s.seq = .transmitPoll 1 ∧ t.seq = .transmitPoll 2) ∧
    (∃ s t : State, s.Inv ∧ step s = .next t ∧ t.pinTrace = [.clk false]) := by
  refine ⟨?_, ?_, ?_, ?_⟩
  · obtain ⟨t, h, hb⟩ := next_of_after (o := step (calling (.named (.writeRegister 0x7F 0xFFFF)) (bank [])))
      (f := (·.busTrace)) (x := [.write 0x7F 0xFFFF]) (by decide)
    exact ⟨_, t, inv_of_ready (by decide), h, hb⟩
  · obtain ⟨t, h, hb⟩ := next_of_after (o := step (calling (.named .txnEnd) (open_ (bank []))))
      (f := (·.seq)) (x := .idle) (by decide)
    exact ⟨calling (.named .txnEnd) (open_ (bank [])), t, ⟨by decide, show Dir.out = Dir.out from rfl, by decide, by decide,
      fun k hk => (nomatch hk : _), fun hd => (nomatch hd : _)⟩, h, rfl, hb⟩
  · obtain ⟨t, h, hb⟩ := next_of_after (o := step (polling 1 (bank [(0x0C, 0xFFFE)])))
      (f := (·.seq)) (x := .transmitPoll 2) (by decide)
    exact ⟨_, t, inv_of_ready (by decide), h, rfl, hb⟩
  · obtain ⟨t, h, hb⟩ := next_of_after (o := step (standing (.regWrite 0x30 0) 0 (.write 0x30 0) 0 0 (bank [])))
      (f := (·.pinTrace)) (x := [.clk false]) (by decide)
    exact ⟨_, t, inv_of_standing bank_callable _ _ _ rfl, h, hb⟩

theorem witness_IdleMeansIdleLinesAlongRuns :
    ∃ (s : State) (k : Nat) (t : State), s.Inv ∧ runSteps k s = some t ∧ t.seq = .idle ∧ t.busTrace = [.write 0 0] := by
  obtain ⟨t, h, hb⟩ := some_of_map (o := runSteps 2 (calling (.named (.writeRegister 0 0)) (bank [])))
    (f := fun t => (t.seq, t.busTrace)) (x := (.idle, [.write 0 0])) (by decide)
  exact ⟨_, 2, t, inv_of_ready (by decide), h, congrArg Prod.fst hb, congrArg Prod.snd hb⟩

theorem witness_StepKeepsConfigurationAndHistory :
    ∃ s t : State, step s = .next t ∧ t.outputTrace = [.value 0x1234] := by
  obtain ⟨t, h, hb⟩ := next_of_after (o := step (calling (.named (.readRegister 0x30)) (bank [(0x30, 0x1234)])))
    (f := (·.outputTrace)) (x := [.value 0x1234]) (by decide)
  exact ⟨_, t, h, hb⟩

/-- A write to the shared output register itself (V25), a poll, and a step that changes the shadow. -/
theorem witness_OnlySetOutputPinWritesShadow :
    (∃ t, exec (.writeRegister 0x33 0) (shadowed 0x9040) = .next t ∧ t.busTrace = [.write 0x33 0]) ∧
    (∃ t, pollStatus 0 (polling 0 (bank [(0x0C, 1)])) = .next t ∧ t.seq = .idle) ∧
    (∃ t, step (calling (.pinwise (.setOutputPin 0 true)) (bank [])) = .next t ∧ t.gpioShadow = 0x9040) ∧
    (bank []).gpioShadow = 0x9000 :=
  ⟨next_of_after (f := (·.busTrace)) (by decide), next_of_after (f := (·.seq)) (by decide),
    next_of_after (f := (·.gpioShadow)) (by decide), by decide⟩

/-- An operation that is not transmit; a step that changes the session: the last event of transmit's first read. -/
theorem witness_OnlyTransmitWritesSession :
    (∃ t, exec (.setOutputPin 6 true) { shadowed 0x9000 with template := 0x0068, savedMask := 0x1234 } = .next t ∧
      t.busTrace = [.write 0x33 0x9001]) ∧
    (∃ t, step { standing (.transmit (some params1200) [0xC3]) 0 (.read 0x59) 136 0 (bank []) with acc := 0x0068 } = .next t ∧
      t.template = 0x0068) ∧ (bank []).template = 0 :=
  ⟨next_of_after (f := (·.busTrace)) (by decide), next_of_after (f := (·.template)) (by decide), rfl⟩

/-- A named call and a coded one. -/
theorem witness_StepRunsTheNextCall :
    (calling (.named .txnBegin) State.reset).seq = .idle ∧ (open_ State.reset).seq = .inTransaction ∧
    (∀ j, Call.named .txnBegin ≠ .pinwise j) ∧
    (calling (.named .txnBegin) State.reset).calls = .named .txnBegin :: [] ∧
    Call.instr (.named .txnBegin) = .ok .txnBegin ∧
    Call.instr (.coded (cellsOfWord 24 0x30A55A)) = .ok (.writeRegister 0x30 0xA55A) :=
  ⟨rfl, rfl, nofun, rfl, rfl, by decide⟩

/-- Cells of the shortest and of the next frame size that are no frame; and the machine with no call. -/
theorem witness_StepWithoutInstruction :
    State.reset.seq = .idle ∧ State.reset.calls = [] ∧
    (calling (.coded (outCells (0 : BitVec 23))) State.reset).calls = .coded (outCells (0 : BitVec 23)) :: [] ∧
    decode (outCells (0 : BitVec 23)) = .error (.cellCount 23 0) ∧ decode [] = .error .noCells :=
  ⟨rfl, rfl, rfl, by decide, by decide⟩

theorem witness_DecodeOfEncode :
    Instr.wellFormed Cfg.default (.writeRegister 127 65535) = true ∧
    encode (.writeRegister 127 65535) = some (outCells (0x7FFFFF : BitVec 24)) ∧
    Instr.wellFormed Cfg.default (.regRead 0) = true ∧ encode (.regRead 0) = some (readCells 0 0) := by decide

theorem witness_DecodeAcceptsOnlyEncodings :
    decode (readCells 127 0xFFFF) = .ok (.readRegister 127) ∧ decode (inCells (0xFFFF : Word)) = .ok .shiftIn16 ∧
    decode (outCells (0xFF : Byte)) = .ok (.shiftOut8 0xFF) := by decide

theorem witness_EveryFrameDecodes :
    (0x7FFFFF : BitVec 24).getLsbD 23 = false ∧ (0x800000 : BitVec 24).getLsbD 23 = true := by decide

theorem witness_TxnBeginSelectsWithClockLow :
    State.reset.linesIdle ∧ State.reset.seq = .idle := ⟨⟨rfl, rfl, rfl, rfl⟩, rfl⟩

/-- The premises that ShiftOut8SendsMsbFirst and ShiftOut16SendsMsbFirst share, right after txnBegin and with SimBank on
the bus. -/
theorem witness_ShiftOut8SendsMsbFirst :
    (open_ (bank [(0x30, 0)])).shifting ∧ (open_ (bank [(0x30, 0)])).seq = .inTransaction :=
  ⟨open_shifting _ rfl, rfl⟩

theorem witness_ShiftOut16SendsMsbFirst :
    (open_ State.reset).shifting ∧ (open_ State.reset).seq = .inTransaction :=
  ⟨open_shifting _ rfl, rfl⟩

theorem witness_ShiftIn16ReturnsTheSamples :
    ((open_ (bank [])).shifting ∧ (open_ (bank [])).seq = .inTransaction) ∧
    (open_ (lonely (bitsMsb (0x8001 : Word)))).shifting ∧
    (open_ (lonely (bitsMsb (0x8001 : Word)))).peer.kind = .absent ∧
    (open_ (lonely (bitsMsb (0x8001 : Word)))).env.samples = bitsMsb (0x8001 : Word) ∧
    ∃ t, exec .shiftIn16 (open_ (lonely (bitsMsb (0x8001 : Word)))) = .next t ∧ t.outputTrace = [.value 0x8001] :=
  ⟨⟨open_shifting _ rfl, rfl⟩, open_shifting _ rfl, rfl, rfl,
    next_of_after (f := (·.outputTrace)) (by decide)⟩

/-- The premises with nobody on the bus, and with the contract chip after a frame of 24 pulses, which keeps its bank, and
at the counts around it, which do not (entry 30). -/
theorem witness_TxnEndLeavesIdleLines :
    ((open_ (lonely [])).shifting ∧ (open_ (lonely [])).seq = .inTransaction) ∧
    (∀ n, (open_ (midFrame n)).shifting ∧ (open_ (midFrame n)).seq = .inTransaction ∧
      (open_ (midFrame n)).peer.kind = .chip ∧ (open_ (midFrame n)).peer.edges = n) ∧
    (∃ t, exec .txnEnd (open_ (midFrame 24)) = .next t ∧ t.peer.cells = [(0x30, 0x1234)]) ∧
    (∃ t, exec .txnEnd (open_ (midFrame 23)) = .next t ∧ t.peer.cells = []) ∧
    (∃ t, exec .txnEnd (open_ (midFrame 8)) = .next t ∧ t.peer.cells = []) :=
  ⟨⟨open_shifting _ rfl, rfl⟩, fun _ => ⟨open_shifting _ rfl, rfl, rfl, rfl⟩, next_of_after (f := (·.peer.cells)) (by decide),
    next_of_after (f := (·.peer.cells)) (by decide), next_of_after (f := (·.peer.cells)) (by decide)⟩

theorem witness_PrimitivesRunUnlessPolling :
    isHostLevel .txnEnd = false ∧ State.reset.seq = .idle ∧ (open_ State.reset).seq = .inTransaction ∧
    (polling 0 (bank [])).seq ≠ .idle ∧ (polling 0 (bank [])).seq ≠ .inTransaction := by decide

/-- The premise of the two transactions, of the pass-through names, of pulseWrite, configure and the rest that ask for
no more than a callable state: with each kind of peer. -/
theorem witness_WriteRegisterIsOneWriteTransaction :
    State.reset.callable ∧ (bank []).callable ∧ (lonely []).callable :=
  ⟨reset_callable, bank_callable, lonely_callable []⟩

/-- With a peer the answer is the peer's; without one it is the line's. -/
theorem witness_ReadRegisterIsOneReadTransaction :
    State.reset.callable ∧ State.reset.peer.kind ≠ .absent ∧ (lonely []).callable ∧ (lonely []).peer.kind = .absent :=
  ⟨reset_callable, by decide, lonely_callable [], rfl⟩

theorem witness_PassThroughNamesComplete : (bank []).callable := bank_callable

theorem witness_CallsOutsideTheDomainAreRefused :
    State.reset.seq = .idle ∧ 128 ≤ 128 ∧ 65536 ≤ 65536 ∧ State.reset.cfg.pinBit.lookup 7 = none ∧
    (∀ i < 16, 0 ≠ 2 ^ i) ∧ (∀ i < 16, 0x8800 ≠ 2 ^ i) ∧ (∀ i < 16, 0x10000 ≠ 2 ^ i) ∧ 126 < 127 :=
  ⟨rfl, by decide, by decide, rfl, by decide, by decide, by decide, by decide⟩

theorem witness_ReentrantCallsAreRefused :
    isHostLevel (.readRegister 0) = true ∧ (polling 0 (bank [])).seq ≠ .idle ∧ (open_ (bank [])).seq ≠ .idle := by decide

theorem witness_WellFormedCallsComplete :
    isHostLevel (.pulseWrite 127 65535 0x8000) = true ∧ State.reset.seq = .idle ∧
    Instr.wellFormed State.reset.cfg (.pulseWrite 127 65535 0x8000) = true ∧
    Instr.wellFormed State.reset.cfg (.readRegisterDiagnosticDump 0 127) = true ∧
    State.reset.cfg.pollLimit ≠ some 0 ∧ Cfg.pollLimit { Cfg.default with pollLimit := some 1 } ≠ some 0 := by
  decide

theorem witness_SimBankStoresAndReturnsCells :
    (bank [(0, 1), (127, 2)]).callable ∧ (bank [(0, 1), (127, 2)]).peer.kind = .simBank ∧
    takeAnswer 127 (bank [(0, 1), (127, 2)]).env.answers = none :=
  ⟨callable_of_ready rfl (by decide), rfl, rfl⟩

theorem witness_SimBankRoundTrip :
    (bank [] [(0x0C, 1)]).callable ∧ (bank [] [(0x0C, 1)]).peer.kind = .simBank ∧
    takeAnswer 0x30 (bank [] [(0x0C, 1)]).env.answers = none :=
  ⟨callable_of_ready rfl (by decide), rfl, by decide⟩

/-- A wholly plain register and FSK_CTRL, plain in fifteen bits. -/
theorem witness_ContractRoundTripOnPlainBits :
    State.reset.callable ∧ State.reset.peer.kind = .chip ∧ plainMask State.reset.cfg 0x5D = 0xFFFF ∧
    plainMask State.reset.cfg 0x59 = 0x7FFF :=
  ⟨reset_callable, rfl, by decide, by decide⟩

/-- A register that is not plain, written or not; a plain one that nothing has written. -/
theorem witness_OracleAnswersAnyWord :
    let s : State := { State.reset with env := { Env.reset with answers := [(0x0C, 0xBEEF)] } }
    let u : State := { State.reset with env := { Env.reset with answers := [(0x5D, 0xBEEF)] } }
    (s.callable ∧ s.peer.kind = .chip ∧ plainMask s.cfg 0x0C = 0 ∧ s.env.answers = (0x0C, 0xBEEF) :: []) ∧
    (u.callable ∧ u.peer.kind = .chip ∧ u.peer.cells.read 0x5D = none ∧ u.env.answers = (0x5D, 0xBEEF) :: []) :=
  ⟨⟨callable_of_ready rfl (by decide), rfl, by decide, rfl⟩, callable_of_ready rfl (by decide), rfl, rfl, rfl⟩

theorem witness_AbsentChipIsInvisible :
    (lonely (bitsMsb (0xA55A : Word) ++ [true])).callable ∧ (lonely (bitsMsb (0xA55A : Word) ++ [true])).peer.kind = .absent ∧
    (lonely (bitsMsb (0xA55A : Word) ++ [true])).env.samples = bitsMsb (0xA55A : Word) ++ [true] :=
  ⟨lonely_callable _, rfl, rfl⟩

theorem witness_UndescribedActionsForgetTheBank :
    let s : State := { State.reset with peer := { Peer.reset with cells := [(0x5D, 0x0500)] } }
    s.callable ∧ s.peer.kind = .chip ∧ hasRole s.cfg 0x01 = false ∧ hasRole s.cfg 0x7F = false ∧ s.peer.cells ≠ [] :=
  ⟨callable_of_ready rfl (by decide), rfl, by decide, by decide, by decide⟩

theorem witness_PinTraceRefinesBusTrace :
    (bank []).callable ∧ isHostLevel (.setOutputPin 0 true) = true ∧ (bank []).peer.kind = .simBank ∧
    (bank []).env.answers = [] ∧ ∃ t, exec (.setOutputPin 0 true) (bank []) = .next t ∧ t.busTrace = [.write 0x33 0x9040] :=
  ⟨bank_callable, rfl, rfl, rfl, next_of_after (f := (·.busTrace)) (by decide)⟩

/-- Both ends of the shadow. -/
theorem witness_SetOutputPinWritesTheUpdatedShadow :
    (bankOf wideCfg).callable ∧ (bankOf wideCfg).cfg.pinBit.lookup 0 = some 15 ∧
    (bankOf wideCfg).cfg.pinBit.lookup 1 = some 0 :=
  ⟨callable_of_ready rfl (by decide), rfl, rfl⟩

theorem witness_DisjointPinsCommute :
    (bank []).callable ∧ (bank []).cfg.pinBit.lookup 0 = some 6 ∧ (bank []).cfg.pinBit.lookup 6 = some 0 ∧ 0 ≠ 6 :=
  ⟨bank_callable, rfl, rfl, by decide⟩

theorem witness_DirectWriteLeavesTheShadow :
    (shadowed 0x9040).callable ∧ (shadowed 0x9040).cfg.pinBit.lookup 6 = some 0 :=
  ⟨callable_of_ready rfl (by decide), rfl⟩

/-- From reset's shadow: a pin set; a write of another register; a poll that ends transmit. -/
theorem witness_ShadowIsTheLastPinWrite :
    (bank []).Inv ∧ lastWrite 0x33 (some 0x9000) (bank []).busTrace = some (bank []).gpioShadow ∧
    (∃ t, exec (.setOutputPin 0 true) (bank []) = .next t ∧ t.busTrace = (bank []).busTrace ++ [.write 0x33 0x9040]) ∧
    (∃ t, exec (.writeRegister 0x34 0) (bank []) = .next t ∧ t.busTrace = (bank []).busTrace ++ [.write 0x34 0]) ∧
    (∀ v, BusEvent.write 0x33 v ∉ [BusEvent.write 0x34 0]) ∧
    (∃ t, pollStatus 0 (polling 0 (bank [(0x0C, 1)])) = .next t ∧ t.busTrace = (bank [(0x0C, 1)]).busTrace ++
      [.read 0x0C 1, .write 0x02 0, .write 0x59 0]) ∧
    (∀ v, BusEvent.write 0x33 v ∉ [BusEvent.read 0x0C 1, BusEvent.write 0x02 0, BusEvent.write 0x59 0]) :=
  ⟨inv_of_ready (by decide), rfl, next_of_after (f := (·.busTrace)) (by decide),
    next_of_after (f := (·.busTrace)) (by decide), by simp, next_of_after (f := (·.busTrace)) (by decide), by simp⟩

theorem witness_PulseWriteIsTwoConsecutiveWrites : State.reset.callable := reset_callable

theorem witness_DumpReadsTheRangeAscending : (bank []).callable ∧ 0 ≤ 127 ∧ 127 < 128 ∧ 0x10 ≤ 0x10 :=
  ⟨bank_callable, by decide, by decide, by decide⟩

theorem witness_ToneWordIsTheRoundedProduct :
    Cfg.default.kToneNum = 1032444 ∧ Cfg.default.kToneDen = 100000 ∧ 6348 ≤ 6348 ∧ 12500 % 25000 = 12500 := by decide

theorem witness_ModeWordPlacesItsFields : Cfg.wf { Cfg.default with modeBase := 0x03C1 } = true := by decide

theorem witness_LengthWordSplitsTheLength :
    Cfg.default.wf = true ∧ Cfg.wf { Cfg.default with lenLo8Lsb := 0, lenHi3Lsb := 13 } = true ∧ 2047 < 2048 := by decide

/-- With extra writes, listed and free, and without. -/
theorem witness_ConfigureWritesSixRegistersInOrder :
    (bankOf wideCfg).callable ∧ (bankOf { Cfg.default with extraWrites := .free 1 }).callable ∧
    (bankOf { Cfg.default with extraWrites := .listed [⟨.lit 2, .index, .field .sync0⟩] }).callable :=
  ⟨callable_of_ready rfl (by decide), callable_of_ready rfl (by decide), callable_of_ready rfl (by decide)⟩

theorem witness_ConfigureReadsBackUnderSimBank :
    (bank []).callable ∧ (bank []).peer.kind = .simBank ∧ extraWrites (bank []).cfg params1200 = [] := ⟨bank_callable, rfl, rfl⟩

theorem witness_ConfigureIsIdempotent : (bank []).callable ∧ (bank []).peer.kind = .simBank := ⟨bank_callable, rfl⟩

theorem witness_RejectedTransmitDoesNothing :
    State.reset.seq = .idle ∧ ([] : List Byte).length = 0 ∧
    State.reset.cfg.maxPayload < (List.replicate 257 (0 : Byte)).length := by decide

/-- The two bounds of the length (V53), and an environment that names the residual byte. -/
theorem witness_AcceptedTransmitRunsItsSteps :
    (bank [] [] [0xEE]).callable ∧ (bank [] [] [0xEE]).cfg.pollLimit ≠ some 0 ∧ 0 < [0xC3#8].length ∧
    (List.replicate 256 (0 : Byte)).length ≤ (bank [] [] [0xEE]).cfg.maxPayload ∧
    (bank [] [] [0xEE]).env.residuals = 0xEE :: [] ∧ (bank [] [] [0xEE]).peer.kind ≠ .absent :=
  ⟨callable_of_ready rfl (by decide), by decide, by decide, by decide, rfl, by decide⟩

/-- A poll that goes on and one that ends transmit: the statement's two cases. -/
theorem witness_PollRepeatsUntilTheStatusBit :
    (polling 0 (bank [(0x0C, 0xFFFE)])).Inv ∧ (polling 3 (bank [(0x0C, 0x0001)])).Inv ∧
    (polling 3 (bank [(0x0C, 0x0001)])).seq = .transmitPoll 3 ∧ pollFuelUsed (polling 3 (bank [])).cfg 3 = false ∧
    pollFuelUsed { Cfg.default with pollLimit := some 4 } 3 = false ∧ (polling 3 (bank [(0x0C, 0x0001)])).peer.kind ≠ .absent :=
  ⟨inv_of_ready (by decide), inv_of_ready (by decide), rfl, rfl, rfl, by decide⟩

/-- P3's payload. -/
def payload5 : List Byte := [0x11, 0x22, 0x33, 0x44, 0x55]

/-- P3's program with its scripted status, before its first step. -/
def transmitting : State := calling (.named (.transmit (some params1200) payload5)) (bank [] [(0x0C, 0), (0x0C, 1)])

theorem witness_TransmitReturnsWhenTheChipCompletes :
    transmitting.callable ∧ transmitting.cfg.pollLimit = none ∧ 0 < payload5.length ∧
    payload5.length ≤ transmitting.cfg.maxPayload ∧ transmitting.peer.kind = .simBank ∧
    transmitting.calls = [.named (.transmit (some params1200) payload5)] ∧
    transmitting.env.answers = ([(0 : Word)] ++ [1]).map (fun v => (transmitting.cfg.addrStatus, v)) ∧
    (∀ v ∈ [(0 : Word)], v.getLsbD transmitting.cfg.statusDoneBit.val = false) ∧
    (1 : Word).getLsbD transmitting.cfg.statusDoneBit.val = true :=
  ⟨callable_of_ready rfl (by decide), rfl, by decide, by decide, rfl, rfl, rfl,
    List.forall_mem_singleton.mpr (by decide), by decide⟩

/-- P6's transmit as the host's next call: the first poll ends it (V55). -/
def transmittingOne : State :=
  calling (.named (.transmit (some params1200) [0xC3])) (bank [(0x3F, 0), (0x59, 0)] [(0x0C, 0xFFFF)] [0xEE])

theorem witness_TransmitPostconditions :
    transmittingOne.callable ∧ 0 < [0xC3#8].length ∧ [0xC3#8].length ≤ transmittingOne.cfg.maxPayload ∧
    transmittingOne.calls = [.named (.transmit (some params1200) [0xC3])] ∧
    ∃ t, runSteps (0 + 1) transmittingOne = some t ∧ t.seq = .idle := by
  refine ⟨callable_of_ready rfl (by decide), by decide, by decide, rfl, ?_⟩
  obtain ⟨t, h, hb⟩ := some_of_map (o := runSteps 1 transmittingOne) (f := fun t => (t.busTrace, t.seq))
    (x := ([.read 0x59 0x0000, .write 0x59 0x8000, .write 0x59 0x0000, .write 0x5D 0x0100, .write 0x5F 0xC3EE,
      .read 0x3F 0x0000, .write 0x3F 0x8000, .write 0x59 0x0800, .read 0x0C 0xFFFF, .write 0x02 0x0000,
      .write 0x59 0x0000], .idle)) (by decide)
  exact ⟨t, h, congrArg Prod.snd hb⟩

/-- An absent chip on a line that shows zeros for one poll and more; and P7's poll: bit 0 of the status cell is 0 for
ever. -/
theorem witness_TransmitHangsWithoutCompletion :
    ((polling 1 (lonely (bitsMsb (0 : Word)))).Inv ∧ (polling 1 (lonely (bitsMsb (0 : Word)))).seq = .transmitPoll 1 ∧
      (polling 1 (lonely (bitsMsb (0 : Word)))).cfg.pollLimit = none ∧
      ∀ m < 1, ∀ t, runSteps (m + 1) (polling 1 (lonely (bitsMsb (0 : Word)))) = some t → t.acc.getLsbD 0 = false) ∧
    (polling 1 (bank [(0x0C, 0xFFFE)])).Inv ∧ (polling 1 (bank [(0x0C, 0xFFFE)])).seq = .transmitPoll 1 ∧
    (bank [(0x0C, 0xFFFE)]).cfg.pollLimit = none ∧ (bank [(0x0C, 0xFFFE)]).peer.kind = .simBank ∧
    (bank [(0x0C, 0xFFFE)]).env.answers = [] ∧ (bankCell [(0x0C, 0xFFFE)] 0x0C).getLsbD 0 = false := by
  refine ⟨⟨inv_of_ready (by decide), rfl, rfl, ?_⟩, inv_of_ready (by decide), rfl, rfl, rfl, rfl, by decide⟩
  intro m hm t ht
  obtain rfl : m = 0 := by omega
  have hb : (runSteps 1 (polling 1 (lonely (bitsMsb (0 : Word))))).map (fun t => t.acc) = some 0 := by decide
  rw [ht] at hb
  rw [show t.acc = 0 from Option.some.inj hb]
  rfl

theorem witness_FinitePollLimitIsFuel :
    let s := polling 2 { bank [] with cfg := { Cfg.default with pollLimit := some 2 } }
    let u := polling 1 { bank [] with cfg := { Cfg.default with pollLimit := some 2 } }
    let v := standing (.transmit none []) 7 (.read 0x0C) 0 2 { bank [] with cfg := { Cfg.default with pollLimit := some 2 } }
    (s.seq = .transmitPoll 2 ∧ s.cfg.pollLimit = some 2 ∧ 2 ≤ 2) ∧
    (u.seq = .transmitPoll 1 ∧ u.cfg.pollLimit = some 2 ∧ 1 < 2) ∧
    (v.seq = .running (.transmit none []) ⟨pollStep [], .read 0x0C, 0, 2⟩ ∧ v.cfg.pollLimit = some 2) :=
  ⟨⟨rfl, rfl, by decide⟩, ⟨rfl, rfl, by decide⟩, rfl, rfl⟩

/-- A call that ends idle, a transmit that polls on, a refused call, and a poll of an accepted transmit. -/
theorem witness_PinwiseRunIsTheWholeCall :
    (calling (.pinwise (.regWrite 0x30 1)) (bank [])).seq = .idle ∧
    (∃ t, exec (.regWrite 0x30 1) { bank [] with calls := [] } = .next t ∧ t.seq = .idle) ∧
    (∃ t, exec (.transmit (some params1200) [0xC3, 0x3C]) { bank [(0x0C, 0), (0x3F, 0), (0x59, 0)] with calls := [] } =
      .next t ∧
      t.seq = .transmitPoll 1) ∧
    refusal (exec (.readRegister 128) { bank [] with calls := [] }) = some .addressOutOfRange ∧
    transmitAccepted (bank [(0x0C, 1)]).cfg (some params1200) [0xC3] = true ∧
    (∃ t, pollStatus 3 (bank [(0x0C, 1)]) = .next t ∧ t.seq = .idle) :=
  ⟨rfl, next_of_after (f := (·.seq)) (by decide), next_of_after (f := (·.seq)) (by decide), by decide, by decide,
    next_of_after (f := (·.seq)) (by decide)⟩

/-- A call that starts and a rejected transmit that does not; the next event of a step; the next step; rest after the last
step, of a primitive, of a call and of step 8; the poll again, and step 8 after it. -/
theorem witness_SequencerMovesForward :
    (∃ t, step (calling (.pinwise .txnEnd) (open_ (bank []))) = .next t ∧
      t.seq = .running .txnEnd ⟨0, .deselect, 0, 0⟩) ∧
    (∃ t, step (calling (.pinwise (.transmit none [])) (bank [])) = .next t ∧ t.seq = .idle) ∧
    (∃ t, step (standing .txnEnd 0 .deselect 0 0 (open_ (bank []))) = .next t ∧
      t.seq = .running .txnEnd ⟨0, .deselect, 1, 0⟩) ∧
    (∃ t, step (standing (.pulseWrite 0x59 0 1) 0 (.write 0x59 1) 150 0 (bank [])) = .next t ∧
      t.seq = .running (.pulseWrite 0x59 0 1) ⟨1, .write 0x59 0, 0, 0⟩) ∧
    (∃ t, step (standing .txnBegin 0 .select 2 0 (bank [])) = .next t ∧ t.seq = .inTransaction) ∧
    (∃ t, step (standing (.pulseWrite 0x59 0 1) 1 (.write 0x59 0) 150 0 (bank [])) = .next t ∧ t.seq = .idle) ∧
    (∃ t, step (standing (.transmit (some params1200) [0xC3]) 10 (.write 0x59 0) 150 1 (bank [])) = .next t ∧
      t.seq = .idle) ∧
    (∃ t, step (standing (.transmit (some params1200) [0xC3]) 8 (.read 0x0C) 136 0 (bank [])) = .next t ∧
      t.seq = .running (.transmit (some params1200) [0xC3]) ⟨8, .read 0x0C, 0, 1⟩) ∧
    (∃ t, step { standing (.transmit (some params1200) [0xC3]) 8 (.read 0x0C) 136 0 (bank []) with acc := 1 } = .next t ∧
      t.seq = .running (.transmit (some params1200) [0xC3]) ⟨9, .write 0x02 0x0000, 0, 0⟩) :=
  ⟨next_of_after (f := (·.seq)) (by decide), next_of_after (f := (·.seq)) (by decide),
    next_of_after (f := (·.seq)) (by decide), next_of_after (f := (·.seq)) (by decide),
    next_of_after (f := (·.seq)) (by decide), next_of_after (f := (·.seq)) (by decide),
    next_of_after (f := (·.seq)) (by decide), next_of_after (f := (·.seq)) (by decide),
    next_of_after (f := (·.seq)) (by decide)⟩

end Sys2Proof.Tests
end

section
/-! The host's next call (R10, R46): what a step does while no operation is under way, by the kind of call. -/

namespace Sys2Proof.Machine

/-- While no operation is under way, inside a transaction or not, the machine's step is the issue of a call. -/
theorem step_eq_issueCall {s : State} (hq : s.seq = .idle ∨ s.seq = .inTransaction) : step s = issueCall s := by
  obtain hq | hq := hq <;> simp only [step, hq]

theorem issueCall_nil {s : State} (hc : s.calls = []) : issueCall s = .next s := by
  simp only [issueCall, hc]

theorem issueCall_named {s : State} {i : Instr} {rest : List Call} (hc : s.calls = .named i :: rest) :
    issueCall s = exec i { s with calls := rest } := by
  simp only [issueCall, hc]

theorem issueCall_coded_ok {s : State} {cells : List WireCell} {rest : List Call} {i : Instr}
    (hc : s.calls = .coded cells :: rest) (hd : decode cells = .ok i) :
    issueCall s = exec i { s with calls := rest } := by
  simp only [issueCall, hc, hd]

theorem issueCall_coded_error {s : State} {cells : List WireCell} {rest : List Call} {e : DecodeError}
    (hc : s.calls = .coded cells :: rest) (hd : decode cells = .error e) :
    issueCall s = .refused (.undecodable e) := by
  simp only [issueCall, hc, hd]

/-- A call issued whole runs the instruction it stands for, whether it is written by name or as its cells. -/
theorem issueCall_whole {s : State} {c : Call} {rest : List Call} {i : Instr} (hc : s.calls = c :: rest)
    (hp : ∀ j, c ≠ .pinwise j) (hi : c.instr = .ok i) : issueCall s = exec i { s with calls := rest } := by
  cases c with
  | named j =>
    obtain rfl : j = i := Except.ok.inj hi
    exact issueCall_named hc
  | pinwise j => exact absurd rfl (hp j)
  | coded cells => exact issueCall_coded_ok hc hi

/-- Settles O8: the step is the issue of the next call, and a call issued whole runs its instruction. -/
theorem stepRunsTheNextCall : Obligations.StepRunsTheNextCall :=
  fun _ _ _ _ hq hc hp hi => (step_eq_issueCall hq).trans (issueCall_whole hc hp hi)

/-- Settles O9: the step is the issue of the next call, which the decoder refuses, or there is no call. -/
theorem stepWithoutInstruction : Obligations.StepWithoutInstruction :=
  ⟨fun _ _ _ _ hq hc hd => (step_eq_issueCall hq).trans (issueCall_coded_error hc hd),
    fun _ hq hc => (step_eq_issueCall hq).trans (issueCall_nil hc)⟩

end Sys2Proof.Machine
end

section
/-! What a step can be and what a call can answer, said once, by the kind of step (R41, R46): every invariant below is a
case analysis over these. -/

namespace Sys2Proof.Machine

/-- A step that answers a next state waits, runs a call whole, begins a call that runs pin by pin, polls, or makes one
pin event (entry 1). -/
inductive StepKind (s t : State) : Prop
  | wait (h : t = s)
  | whole (c : Call) (rest : List Call) (i : Instr) (hq : s.seq = .idle ∨ s.seq = .inTransaction)
      (hc : s.calls = c :: rest) (hi : c.instr = .ok i) (h : exec i { s with calls := rest } = .next t)
  | start (i : Instr) (rest : List Call) (hq : s.seq = .idle ∨ s.seq = .inTransaction)
      (hc : s.calls = .pinwise i :: rest) (h : startPinwise i { s with calls := rest } = .next t)
  | poll (polls : Nat) (hq : s.seq = .transmitPoll polls) (h : pollStatus polls s = .next t)
  | event (op : Instr) (pos : Position) (hq : s.seq = .running op pos)
      (h : t = runEvent op pos ((pieceActs s.cfg pos.piece).drop pos.event) s)

theorem issueCall_pinwise {s : State} {i : Instr} {rest : List Call} (hc : s.calls = .pinwise i :: rest) :
    issueCall s = startPinwise i { s with calls := rest } := by
  simp only [issueCall, hc]

theorem of_pinStep_next {op : Instr} {pos : Position} {s t : State} (h : pinStep op pos s = .next t) :
    t = runEvent op pos ((pieceActs s.cfg pos.piece).drop pos.event) s := by
  unfold pinStep at h
  split at h
  · cases h
  · exact (Host.Outcome.next.inj h).symm

theorem stepKind_of_issueCall {s t : State} (hq : s.seq = .idle ∨ s.seq = .inTransaction)
    (h : issueCall s = .next t) : StepKind s t := by
  cases hc : s.calls with
  | nil => exact .wait (Host.Outcome.next.inj ((issueCall_nil hc).symm.trans h)).symm
  | cons c rest =>
    cases c with
    | named i => exact .whole _ rest i hq hc rfl ((issueCall_named hc).symm.trans h)
    | pinwise i => exact .start i rest hq hc ((issueCall_pinwise hc).symm.trans h)
    | coded cells =>
      cases hd : decode cells with
      | ok i => exact .whole _ rest i hq hc hd ((issueCall_coded_ok hc hd).symm.trans h)
      | error e => rw [issueCall_coded_error hc hd] at h; cases h

theorem stepKind_of_step {s t : State} (h : step s = .next t) : StepKind s t := by
  cases hq : s.seq with
  | idle => exact stepKind_of_issueCall (.inl hq) ((step_eq_issueCall (.inl hq)).symm.trans h)
  | inTransaction => exact stepKind_of_issueCall (.inr hq) ((step_eq_issueCall (.inr hq)).symm.trans h)
  | transmitPoll polls => exact .poll polls hq ((step_of_polling hq).symm.trans h)
  | running op pos =>
    simp only [step, hq] at h
    exact .event op pos hq (of_pinStep_next h)

/-! ### A pin event -/

/-- The pin events left of a step change what pin events change. -/
theorem pinStep_rest (pos : Position) (s : State) :
    PinStep s (runActs ((pieceActs s.cfg pos.piece).drop pos.event) s) :=
  PinStep.runActs (fun f hf => pieceActs_pinStep s.cfg pos.piece f (List.mem_of_mem_drop hf)) s

/-- A pin event that is not the last of its step leaves `SEQ` at the next one (R41). -/
theorem runEvent_within {op : Instr} {pos : Position} {s : State}
    (h : pos.event + 1 < (pieceActs s.cfg pos.piece).length) :
    ∃ f ∈ pieceActs s.cfg pos.piece,
      (pieceActs s.cfg pos.piece).drop pos.event = f :: (pieceActs s.cfg pos.piece).drop (pos.event + 1) ∧
      runEvent op pos ((pieceActs s.cfg pos.piece).drop pos.event) s =
        moveSeq (.running op { pos with event := pos.event + 1 }) (f s) := by
  have hd := List.drop_eq_getElem_cons (Nat.lt_of_succ_lt h)
  refine ⟨_, List.getElem_mem (Nat.lt_of_succ_lt h), hd, ?_⟩
  rw [hd]
  cases hr : (pieceActs s.cfg pos.piece).drop (pos.event + 1) with
  | nil => exact absurd (List.drop_eq_nil_iff.1 hr) (Nat.not_le.2 h)
  | cons g rest => rfl

/-- After the last pin event of its step the step is over, and `SEQ` goes where the operation's order says (R41). -/
theorem runEvent_last {op : Instr} {pos : Position} {s : State}
    (h : (pieceActs s.cfg pos.piece).length ≤ pos.event + 1) :
    runEvent op pos ((pieceActs s.cfg pos.piece).drop pos.event) s =
      afterStep op pos.step pos.polls (s.stepOver op pos) := by
  unfold State.stepOver
  match hl : (pieceActs s.cfg pos.piece).drop pos.event with
  | [] => rfl
  | [f] => rfl
  | f :: g :: rest =>
    have := congrArg List.length hl
    simp only [List.length_drop, List.length_cons] at this
    omega

/-! ### A call run whole -/

theorem transmit_or (i : Instr) : (∃ p payload, i = .transmit p payload) ∨ ∀ p payload, i ≠ .transmit p payload :=
  or_iff_not_imp_left.2 fun h p payload e => h ⟨p, payload, e⟩

theorem setOutputPin_or (i : Instr) : (∃ p x, i = .setOutputPin p x) ∨ ∀ p x, i ≠ .setOutputPin p x :=
  or_iff_not_imp_left.2 fun h p x e => h ⟨p, x, e⟩

theorem mayStart_transmit {q : Seq} {p : Option ModemParameters} {payload : List Byte} :
    mayStart q (.transmit p payload) = true ↔ q = .idle := by
  simp [mayStart, isHostLevel, hostMayCall]

/-- Only transmit polls (R218). -/
theorem isPoll_of_ne_transmit {i : Instr} (hi : ∀ p payload, i ≠ .transmit p payload) (k : Nat) :
    isPoll i k = false := by
  cases i
  case transmit p payload => exact absurd rfl (hi p payload)
  all_goals rfl

theorem exec_transmit_eq (p : Option ModemParameters) (payload : List Byte) (s : State) :
    exec (.transmit p payload) s = hostCall s fun s0 =>
      if transmitAccepted s0.cfg p payload then pollStatus 0 (startTransmit payload s0) else .next s0 := rfl

/-- A call that answers a next state did the operation's steps, none of them a poll, or it is a transmit that is accepted
and came to its first poll (R210, R246). -/
theorem exec_cases {i : Instr} {s t : State} (h : exec i s = .next t) :
    (∃ steps, mayStart s.seq i = true ∧ opSteps s.cfg i = .ok steps ∧ (∀ k < steps.length, isPoll i k = false) ∧
      t = moveSeq (restSeq i) (runOps steps s)) ∨
    (∃ p payload, i = .transmit p payload ∧ s.seq = .idle ∧ transmitAccepted s.cfg p payload = true ∧
      pollStatus 0 (startTransmit payload s) = .next t) := by
  obtain ⟨p, payload, rfl⟩ | hi := transmit_or i
  · rw [exec_transmit_eq] at h
    obtain ⟨hq, h⟩ := of_hostCall_next h
    split at h
    · next ha => exact .inr ⟨p, payload, rfl, hq, ha, h⟩
    · next ha =>
      obtain rfl := Host.Outcome.next.inj h
      exact .inl ⟨[], mayStart_transmit.2 hq, by simp [opSteps, ha], nofun, (moveSeq_self hq).symm⟩
  · rw [exec_eq_ops hi] at h
    split at h
    · next hm =>
      obtain ⟨steps, ho, h⟩ := of_withOperand_next h
      exact .inl ⟨steps, hm, ho, fun k _ => isPoll_of_ne_transmit hi k, (Host.Outcome.next.inj h).symm⟩
    · cases h

end Sys2Proof.Machine
end

section
/-! The configuration, the kind of peer and the traces already made stay, and the bank and the peer's front end stay in
order (R46, R70, R83, R90): one relation, kept by every part of a step. -/

namespace Sys2Proof.Machine

/-- `t` has the past of `s`: its configuration, its kind of peer and its traces; and the peer stays in order. -/
structure Grows (s t : State) : Prop where
  cfg    : t.cfg = s.cfg
  kind   : t.peer.kind = s.peer.kind
  pins   : s.pins <:+ t.pins
  bus    : s.bus <:+ t.bus
  output : s.output <:+ t.output
  peerOk : s.peerOk → t.peerOk

theorem Kept.grows {s t : State} (h : Kept s t) : Grows s t := ⟨h.cfg, h.kind, h.pins, h.bus, h.output, h.peerOk⟩

theorem PinStep.grows {s t : State} (h : PinStep s t) : Grows s t :=
  ⟨h.cfg, h.kind, h.pins, by rw [h.bus], by rw [h.output], h.peerOk⟩

theorem OffLink.grows {f : State → State} (h : OffLink f) (s : State) : Grows s (f s) :=
  ⟨h.cfg s, by rw [h.peer], by rw [h.pins], h.bus s, h.output s,
    fun hp => by unfold State.peerOk; rw [h.peer, h.sel]; exact hp⟩

theorem Grows.refl (s : State) : Grows s s := (Kept.refl s).grows

theorem Grows.trans {s t u : State} (h1 : Grows s t) (h2 : Grows t u) : Grows s u :=
  ⟨h2.cfg.trans h1.cfg, h2.kind.trans h1.kind, h1.pins.trans h2.pins, h1.bus.trans h2.bus,
   h1.output.trans h2.output, h2.peerOk ∘ h1.peerOk⟩

/-- The list of calls is no part of the past. -/
theorem Grows.of_takeCall {s t : State} {rest : List Call} (h : Grows { s with calls := rest } t) : Grows s t :=
  ⟨h.cfg, h.kind, h.pins, h.bus, h.output, h.peerOk⟩

theorem Grows.moveSeq (q : Seq) (s : State) : Grows s (moveSeq q s) := (Kept.moveSeq q s).grows

theorem OpStep.Ok.grows {st : OpStep} (h : st.Ok) (s : State) : Grows s (st.run s) :=
  (((h.before.grows s).trans (PinStep.runActs (pieceActs_pinStep _ _) _).grows).trans
    ((OffLink.completePiece _).grows _)).trans (h.after.grows _)

theorem Grows.runOps {steps : List OpStep} (h : ∀ st ∈ steps, st.Ok) (s : State) : Grows s (runOps steps s) := by
  induction steps generalizing s with
  | nil => exact .refl s
  | cons st steps ih => exact ((h st (by simp)).grows s).trans (ih (fun x hx => h x (by simp [hx])) _)

theorem Grows.enterStep (op : Instr) (k polls : Nat) (s : State) : Grows s (enterStep op k polls s) := by
  unfold Machine.enterStep
  split
  · next hk => exact ((opStep_ok hk).before.grows s).trans (.moveSeq _ _)
  · exact .moveSeq _ s

theorem Grows.finishStep (op : Instr) (k : Nat) (s : State) : Grows s (finishStep op k s) := by
  unfold Machine.finishStep
  split
  · next hk => exact (opStep_ok hk).after.grows s
  · exact .refl s

theorem Grows.afterStep (op : Instr) (k polls : Nat) (s : State) : Grows s (afterStep op k polls s) := by
  unfold Machine.afterStep
  split
  · exact .enterStep op k _ s
  · exact .enterStep op _ polls s

theorem Grows.stepOver (op : Instr) (pos : Position) (s : State) : Grows s (s.stepOver op pos) :=
  ((pinStep_rest pos s).grows.trans ((OffLink.completePiece _).grows _)).trans (.finishStep op pos.step _)

theorem Grows.runEvent (op : Instr) (pos : Position) (s : State) :
    Grows s (runEvent op pos ((pieceActs s.cfg pos.piece).drop pos.event) s) := by
  by_cases h : pos.event + 1 < (pieceActs s.cfg pos.piece).length
  · obtain ⟨f, hf, _, he⟩ := runEvent_within (op := op) h
    rw [he]
    exact (pieceActs_pinStep _ _ f hf s).grows.trans (.moveSeq _ _)
  · rw [runEvent_last (Nat.not_lt.1 h)]
    exact (Grows.stepOver op pos s).trans (.afterStep _ _ _ _)

theorem pollStatus_kept {polls : Nat} {s t : State} (h : pollStatus polls s = .next t) : Kept s t := by
  rw [of_pollStatus_next h]
  exact (Kept.memRead _ s).trans (.afterPoll _ _)

theorem exec_grows {i : Instr} {s t : State} (h : exec i s = .next t) : Grows s t := by
  obtain ⟨steps, _, ho, _, rfl⟩ | ⟨p, payload, rfl, _, _, h⟩ := exec_cases h
  · exact (Grows.runOps (opSteps_ok ho) s).trans (.moveSeq _ _)
  · exact ((Kept.startTransmit payload s).trans (pollStatus_kept h)).grows

theorem step_grows {s t : State} (h : step s = .next t) : Grows s t := by
  cases stepKind_of_step h with
  | wait h => exact h ▸ .refl s
  | whole _ _ _ _ _ _ h => exact (exec_grows h).of_takeCall
  | start i _ _ _ h =>
    obtain ⟨_, _, rfl⟩ := of_startPinwise_next h
    exact (Grows.enterStep i 0 0 _).of_takeCall
  | poll _ _ h => exact (pollStatus_kept h).grows
  | event op pos _ h => exact h ▸ .runEvent op pos s

/-- Settles O5: every part of a step, whatever its kind, keeps the past. -/
theorem stepKeepsConfigurationAndHistory : Obligations.StepKeepsConfigurationAndHistory := fun _ _ h =>
  have hg := step_grows h
  ⟨hg.cfg, hg.kind, hg.pins, hg.bus, hg.output⟩

end Sys2Proof.Machine
end

section
/-! The lines stand as `SEQ` says after every step (R34, R48), and with them the whole invariant. -/

namespace Sys2Proof.Machine

/-- The lines as the end of a step of `op` leaves them: the direction out (R34), and idle if `SEQ` may rest idle after the
operation (R48). -/
def State.linesFor (op : Instr) (s : State) : Prop := s.datDir = .out ∧ (restSeq op = .idle → s.linesIdle)

theorem State.linesIdle.linesFor {s : State} (h : s.linesIdle) (op : Instr) : s.linesFor op := ⟨h.2.2.2, fun _ => h⟩

theorem OffLink.linesFor {f : State → State} (h : OffLink f) {op : Instr} {s : State} (hs : s.linesFor op) :
    (f s).linesFor op := by
  unfold State.linesFor State.linesIdle at *
  rwa [h.sel, h.clk, h.datOut, h.datDir]

/-! ### What `seqOk` asks at each place of `SEQ` -/

theorem seqOk_idle {s : State} (hq : s.seq = .idle) : s.seqOk ↔ s.linesIdle := by
  unfold State.seqOk; rw [hq]

theorem seqOk_inTransaction {s : State} (hq : s.seq = .inTransaction) : s.seqOk ↔ s.datDir = .out := by
  unfold State.seqOk; rw [hq]

theorem seqOk_polling {s : State} {polls : Nat} (hq : s.seq = .transmitPoll polls) : s.seqOk ↔ s.linesIdle := by
  unfold State.seqOk; rw [hq]

theorem seqOk_running {s : State} {op : Instr} {pos : Position} (hq : s.seq = .running op pos) :
    s.seqOk ↔ (runActs ((pieceActs s.cfg pos.piece).drop pos.event) s).linesFor op := by
  unfold State.seqOk; rw [hq]; rfl

/-- `SEQ` at rest after an operation, idle or inside a transaction. -/
theorem seqOk_rest {op : Instr} {s : State} (h : s.linesFor op) : (moveSeq (restSeq op) s).seqOk := by
  obtain ⟨hd, hi⟩ := h
  have hr : restSeq op = .idle ∨ restSeq op = .inTransaction := by cases op <;> simp [restSeq]
  obtain hr | hr := hr
  · exact (seqOk_idle hr).2 (hi hr)
  · exact (seqOk_inTransaction hr).2 hd

/-- Between two steps of whole calls the direction is out (R34). -/
theorem State.seqOk.datDir {s : State} (h : s.seqOk) (hq : s.seq = .idle ∨ s.seq = .inTransaction) : s.datDir = .out := by
  obtain hq | hq := hq
  · exact ((seqOk_idle hq).1 h).2.2.2
  · exact (seqOk_inTransaction hq).1 h

/-! ### The steps of an operation -/

/-- A step of an operation leaves the lines as the operation asks. -/
theorem run_linesFor {c : Cfg} {op : Instr} {steps : List OpStep} (h : opSteps c op = .ok steps) {st : OpStep}
    (hst : st ∈ steps) {s : State} (hd : s.datDir = .out) : (st.run s).linesFor op := by
  have hok := opSteps_ok h st hst
  obtain ⟨hout, hidle⟩ := runActs_lines s.cfg (st.piece s) ((hok.before.datDir s).trans hd)
  exact hok.after.linesFor ((OffLink.completePiece _).linesFor
    ⟨hout, fun hr => hidle (opSteps_closes h hr st hst s)⟩)

theorem runOps_linesFor {c : Cfg} {op : Instr} {steps ops : List OpStep} (h : opSteps c op = .ok steps)
    (hsub : ∀ st ∈ ops, st ∈ steps) {s : State} (hs : s.datDir = .out) (hnil : ops = [] → s.linesFor op) :
    (runOps ops s).linesFor op := by
  induction ops generalizing s with
  | nil => exact hnil rfl
  | cons st ops ih =>
    have h1 := run_linesFor h (hsub st (by simp)) hs
    exact ih (fun x hx => hsub x (by simp [hx])) h1.1 fun _ => h1

theorem of_bind_ok {α β : Type} {x : Except Refusal α} {f : α → Except Refusal β} {b : β} (h : (x >>= f) = .ok b) :
    ∃ a, x = .ok a ∧ f a = .ok b := by
  cases x with
  | ok a => exact ⟨a, rfl, h⟩
  | error r => cases h

/-- A range the dump takes is not empty (R185). -/
theorem rangeOperand_ne_nil {lo hi : Nat} {as : List RegAddr} (h : rangeOperand lo hi = .ok as) : as ≠ [] := by
  unfold rangeOperand at h
  split at h
  · cases h
  · split at h
    · next hle =>
      obtain rfl := Except.ok.inj h
      simp only [addressRange, ne_eq, List.map_eq_nil_iff, List.range'_eq_nil_iff]
      omega
    · cases h

/-- An operation without steps is a rejected transmit (R211). -/
theorem opSteps_eq_nil {c : Cfg} {op : Instr} (h : opSteps c op = .ok []) :
    ∃ p payload, op = .transmit p payload ∧ transmitAccepted c p payload = false := by
  cases op <;> simp only [opSteps] at h
  case writeRegister | regWrite =>
    obtain ⟨_, _, h⟩ := of_bind_ok h
    obtain ⟨_, _, h⟩ := of_bind_ok h
    cases h
  case readRegister | regRead | setOutputPin => obtain ⟨_, _, h⟩ := of_bind_ok h; cases h
  case txnBegin | shiftOut8 | shiftOut16 | shiftIn16 | txnEnd | configure => cases h
  case pulseWrite =>
    obtain ⟨_, _, h⟩ := of_bind_ok h
    obtain ⟨_, _, h⟩ := of_bind_ok h
    obtain ⟨_, _, h⟩ := of_bind_ok h
    cases h
  case readRegisterDiagnosticDump lo hi =>
    obtain ⟨as, ha, h⟩ := of_bind_ok h
    exact absurd (List.map_eq_nil_iff.1 (Except.ok.inj h)) (rangeOperand_ne_nil ha)
  case transmit p payload =>
    refine ⟨p, payload, rfl, Bool.eq_false_iff.2 fun ha => ?_⟩
    rw [if_pos ha] at h
    cases h

/-- Where an operation without steps may start, the lines are as it asks: `SEQ` is idle. -/
theorem linesFor_of_noSteps {op : Instr} {s : State} (hs : s.seqOk) (hm : mayStart s.seq op = true)
    (ho : opSteps s.cfg op = .ok []) : s.linesFor op := by
  obtain ⟨p, payload, rfl, _⟩ := opSteps_eq_nil ho
  exact ((seqOk_idle (mayStart_transmit.1 hm)).1 hs).linesFor _

/-! ### The moves of `SEQ` -/

theorem enterStep_seqOk {op : Instr} {k polls : Nat} {s : State} (hd : s.datDir = .out)
    (hn : opStep s.cfg op k = none → s.linesFor op) : (enterStep op k polls s).seqOk := by
  unfold enterStep
  split
  · next st hk =>
    obtain ⟨steps, ho, hst⟩ := of_opStep hk
    have hb : (moveSeq (.running op ⟨k, st.piece s, 0, polls⟩) (st.before s)).datDir = .out :=
      ((opStep_ok hk).before.datDir s).trans hd
    obtain ⟨hout, hidle⟩ := runActs_lines (st.before s).cfg (st.piece s) hb
    exact (seqOk_running (pos := ⟨k, st.piece s, 0, polls⟩) rfl).2 ⟨hout, fun hr => hidle (opSteps_closes ho hr st hst s)⟩
  · next hk => exact seqOk_rest (hn hk)

theorem afterStep_seqOk {op : Instr} {k polls : Nat} {s : State} (h : s.linesFor op) : (afterStep op k polls s).seqOk := by
  unfold afterStep
  split <;> exact enterStep_seqOk h.1 fun _ => h

/-- A pin event brings the lines nearer to what the end of its step leaves (R34, R48). -/
theorem runEvent_seqOk {op : Instr} {pos : Position} {s : State} (hq : s.seq = .running op pos) (h : s.seqOk) :
    (runEvent op pos ((pieceActs s.cfg pos.piece).drop pos.event) s).seqOk := by
  have hl := (seqOk_running hq).1 h
  by_cases hw : pos.event + 1 < (pieceActs s.cfg pos.piece).length
  · obtain ⟨f, hf, hd, he⟩ := runEvent_within (op := op) hw
    rw [hd, runActs_cons] at hl
    rw [he, seqOk_running rfl, moveSeq_cfg, (pieceActs_pinStep _ _ f hf s).cfg,
      runActs_moveSeq fun g hg => pieceActs_moveSeq _ _ g (List.mem_of_mem_drop hg)]
    exact hl
  · rw [runEvent_last (Nat.not_lt.1 hw)]
    refine afterStep_seqOk ?_
    have hc := (OffLink.completePiece pos.piece).linesFor hl
    unfold State.stepOver finishStep
    split
    · next hk => exact (opStep_ok hk).after.linesFor hc
    · exact hc

/-! ### Polls and whole calls -/

/-- After a poll the lines are idle, whether transmit returned or polls on (R48). -/
theorem pollStatus_seqOk {polls : Nat} {s t : State} (h : pollStatus polls s = .next t) : t.seqOk := by
  obtain rfl := of_pollStatus_next h
  have hl := afterPoll_linesIdle polls (memRead_linesIdle s.cfg.addrStatus s)
  have hq := afterPoll_seq polls (memRead s.cfg.addrStatus s)
  split at hq
  · exact (seqOk_idle hq).2 hl
  · exact (seqOk_polling hq).2 hl

theorem exec_seqOk {i : Instr} {s t : State} (hq : s.seq = .idle ∨ s.seq = .inTransaction) (hs : s.seqOk)
    (h : exec i s = .next t) : t.seqOk := by
  obtain ⟨steps, hm, ho, _, rfl⟩ | ⟨_, _, _, _, _, h⟩ := exec_cases h
  · refine seqOk_rest (runOps_linesFor ho (fun _ => id) (hs.datDir hq) ?_)
    rintro rfl
    exact linesFor_of_noSteps hs hm ho
  · exact pollStatus_seqOk h

theorem startPinwise_seqOk {i : Instr} {s t : State} (hq : s.seq = .idle ∨ s.seq = .inTransaction) (hs : s.seqOk)
    (h : startPinwise i s = .next t) : t.seqOk := by
  obtain ⟨hm, ⟨steps, ho⟩, rfl⟩ := of_startPinwise_next h
  refine enterStep_seqOk (hs.datDir hq) fun hn => ?_
  obtain rfl : steps = [] := by simpa [opStep_eq ho] using hn
  exact linesFor_of_noSteps hs hm ho

/-- The lines do not depend on the list of calls. -/
theorem State.seqOk.takeCall {s : State} (hq : s.seq = .idle ∨ s.seq = .inTransaction) (h : s.seqOk) (rest : List Call) :
    State.seqOk { s with calls := rest } := by
  obtain hq | hq := hq
  · exact (seqOk_idle (s := { s with calls := rest }) hq).2 ((seqOk_idle hq).1 h)
  · exact (seqOk_inTransaction (s := { s with calls := rest }) hq).2 ((seqOk_inTransaction hq).1 h)

theorem step_seqOk {s t : State} (hs : s.seqOk) (h : step s = .next t) : t.seqOk := by
  cases stepKind_of_step h with
  | wait h => exact h ▸ hs
  | whole _ rest _ hq _ _ h => exact exec_seqOk (s := { s with calls := rest }) hq (hs.takeCall hq rest) h
  | start _ rest hq _ h => exact startPinwise_seqOk (s := { s with calls := rest }) hq (hs.takeCall hq rest) h
  | poll _ _ h => exact pollStatus_seqOk h
  | event _ _ hq h => exact h ▸ runEvent_seqOk hq hs

/-! ### The invariant -/

/-- Settles O3: a step keeps the configuration and the peer's order, and puts the lines where the new `SEQ` says. -/
theorem stepKeepsInvariant : Obligations.StepKeepsInvariant := by
  rintro s t ⟨hc, hs, hp⟩ h
  have hg := step_grows h
  exact ⟨hg.cfg.symm ▸ hc, step_seqOk hs h, hg.peerOk hp⟩

/-- Settles O2: reset leaves idle lines, an empty bank and a released data line. -/
theorem resetSatisfiesInvariant : Obligations.ResetSatisfiesInvariant := by
  have reset : ∀ c : Cfg, c.wf = true → (State.resetOf c).Inv := fun c hc =>
    ⟨hc, (seqOk_idle rfl).2 ⟨rfl, rfl, rfl, rfl⟩, rfl, Nat.zero_le _, nofun, fun _ => rfl⟩
  exact ⟨reset, reset Cfg.default (by decide)⟩

theorem inv_of_runSteps {k : Nat} {s t : State} (hs : s.Inv) (h : runSteps k s = some t) : t.Inv := by
  induction k generalizing s with
  | zero => exact Option.some.inj h ▸ hs
  | succ k ih =>
    obtain ⟨u, hu, h⟩ := of_runSteps_succ h
    exact ih (stepKeepsInvariant s u hs hu) h

/-- Settles O4: the invariant holds all along the run, and it says so of an idle `SEQ`. -/
theorem idleMeansIdleLinesAlongRuns : Obligations.IdleMeansIdleLinesAlongRuns := by
  intro s k t hs h hq
  obtain ⟨_, hseq, _⟩ := inv_of_runSteps hs h
  exact (seqOk_idle hq).1 hseq

end Sys2Proof.Machine
end

section
/-! What no link event touches is written by the operations' own steps alone: the shadow by setOutputPin (R39), the session
by transmit (R40). -/

namespace Sys2Proof.Machine

/-! ### A part of the state that the link leaves alone -/

/-- `f` sees a part of the state that neither pin events nor bus events nor moves of `SEQ` change. -/
structure OffLinkPart {α : Type} (f : State → α) : Prop where
  pins     : ∀ s t, PinStep s t → f t = f s
  complete : ∀ p s, f (completePiece p s) = f s
  seq      : ∀ q s, f (moveSeq q s) = f s

theorem OffLinkPart.shadow : OffLinkPart State.gpioShadow where
  pins _ _ h := h.shadow
  complete p _ := by cases p <;> rfl
  seq _ _ := rfl

/-- The session of transmit (R40). -/
def State.session (s : State) : Word × Word := (s.template, s.savedMask)

theorem session_eq_iff {s t : State} :
    t.session = s.session ↔ t.template = s.template ∧ t.savedMask = s.savedMask := Prod.mk_inj

theorem OffLinkPart.session : OffLinkPart State.session where
  pins _ _ h := session_eq_iff.2 ⟨h.template, h.mask⟩
  complete p _ := by cases p <;> rfl
  seq _ _ := rfl

section
variable {α : Type} {f : State → α} (hf : OffLinkPart f)
include hf

theorem OffLinkPart.run {st : OpStep} (hb : ∀ s, f (st.before s) = f s) (ha : ∀ s, f (st.after s) = f s) (s : State) :
    f (st.run s) = f s := by
  rw [OpStep.run, ha, hf.complete, hf.pins _ _ (PinStep.runActs (pieceActs_pinStep _ _) _), hb]

theorem OffLinkPart.runOps {steps : List OpStep}
    (h : ∀ st ∈ steps, ∀ s, f (st.before s) = f s ∧ f (st.after s) = f s) (s : State) : f (runOps steps s) = f s := by
  induction steps generalizing s with
  | nil => rfl
  | cons st steps ih =>
    have hst := h st (by simp)
    rw [runOps_cons, ih fun x hx => h x (by simp [hx]), hf.run (fun u => (hst u).1) fun u => (hst u).2]

theorem OffLinkPart.enterStep {op : Instr} {k : Nat} (polls : Nat) {s : State}
    (h : ∀ st, opStep s.cfg op k = some st → f (st.before s) = f s) : f (enterStep op k polls s) = f s := by
  unfold Machine.enterStep
  split
  · next st hk => rw [hf.seq, h st hk]
  · exact hf.seq _ s

theorem OffLinkPart.stepOver {op : Instr} {pos : Position} {s : State}
    (h : ∀ st u, opStep u.cfg op pos.step = some st → f (st.after u) = f u) : f (s.stepOver op pos) = f s := by
  have hp := hf.pins s _ (pinStep_rest pos s)
  unfold State.stepOver finishStep
  split
  · next st hk => rw [h st _ hk, hf.complete, hp]
  · rw [hf.complete, hp]

/-- A pin event changes such a part only where it is the last of its step. -/
theorem OffLinkPart.runEvent {op : Instr} {pos : Position} {s : State}
    (h : f (afterStep op pos.step pos.polls (s.stepOver op pos)) = f s) :
    f (runEvent op pos ((pieceActs s.cfg pos.piece).drop pos.event) s) = f s := by
  by_cases hw : pos.event + 1 < (pieceActs s.cfg pos.piece).length
  · obtain ⟨g, hg, _, he⟩ := runEvent_within (op := op) hw
    rw [he, hf.seq, hf.pins _ _ (pieceActs_pinStep _ _ g hg s)]
  · rw [runEvent_last (Nat.not_lt.1 hw), h]

end

/-! ### The shadow (R39) -/

theorem exec_shadow {i : Instr} {s t : State} (h : exec i s = .next t) (hi : ∀ p x, i ≠ .setOutputPin p x) :
    t.gpioShadow = s.gpioShadow := by
  obtain ⟨steps, _, ho, _, rfl⟩ | ⟨_, payload, rfl, _, _, h⟩ := exec_cases h
  · exact OffLinkPart.shadow.runOps (fun st hst u =>
      ⟨opSteps_shadow ho hi st hst u, (opSteps_else ho st hst u).2.2⟩) s
  · exact (pollStatus_kept h).shadow.trans (Kept.startTransmit payload s).shadow

theorem enterStep_shadow {op : Instr} (hop : ∀ p x, op ≠ .setOutputPin p x) (k polls : Nat) (s : State) :
    (enterStep op k polls s).gpioShadow = s.gpioShadow :=
  OffLinkPart.shadow.enterStep polls fun st hk =>
    let ⟨_, ho, hst⟩ := of_opStep hk
    opSteps_shadow ho hop st hst s

/-- setOutputPin writes the shadow when its one step begins, and no step begins after another writes it. -/
theorem afterStep_shadow (op : Instr) (k polls : Nat) (s : State) :
    (afterStep op k polls s).gpioShadow = s.gpioShadow := by
  obtain ⟨p, x, rfl⟩ | hop := setOutputPin_or op
  · refine OffLinkPart.shadow.enterStep polls fun st hk => ?_
    obtain ⟨steps, ho, _⟩ := of_opStep hk
    rw [opStep_eq ho, List.getElem?_eq_none (by rw [opSteps_setOutputPin ho]; omega)] at hk
    cases hk
  · unfold afterStep
    split <;> exact enterStep_shadow hop _ _ s

theorem runEvent_shadow (op : Instr) (pos : Position) (s : State) :
    (runEvent op pos ((pieceActs s.cfg pos.piece).drop pos.event) s).gpioShadow = s.gpioShadow := by
  refine OffLinkPart.shadow.runEvent ((afterStep_shadow _ _ _ _).trans (OffLinkPart.shadow.stepOver fun st u hk => ?_))
  obtain ⟨_, ho, hst⟩ := of_opStep hk
  exact (opSteps_else ho st hst u).2.2

/-- Settles O6: by the kind of step, only a call of setOutputPin, run whole or begun pin by pin, changes the shadow. -/
theorem onlySetOutputPinWritesShadow : Obligations.OnlySetOutputPinWritesShadow := by
  refine ⟨fun i s t h hi => exec_shadow h hi, fun k s t h => (pollStatus_kept h).shadow, fun s t h hne => ?_⟩
  cases stepKind_of_step h with
  | wait h => exact absurd (h ▸ rfl) hne
  | whole c rest i hq hc hi h =>
    obtain ⟨p, x, rfl⟩ | hop := setOutputPin_or i
    · exact ⟨hq, c, rest, p, x, hc, hi⟩
    · exact absurd (exec_shadow h hop) hne
  | start i rest hq hc h =>
    obtain ⟨p, x, rfl⟩ | hop := setOutputPin_or i
    · exact ⟨hq, _, rest, p, x, hc, rfl⟩
    · obtain ⟨_, _, rfl⟩ := of_startPinwise_next h
      exact absurd (enterStep_shadow hop 0 0 _) hne
  | poll _ _ h => exact absurd (pollStatus_kept h).shadow hne
  | event op pos _ h => exact absurd (h ▸ runEvent_shadow op pos s) hne

/-! ### The session (R40) -/

theorem exec_session {i : Instr} {s t : State} (h : exec i s = .next t) (hi : ∀ p d, i ≠ .transmit p d) :
    t.session = s.session := by
  obtain ⟨steps, _, ho, _, rfl⟩ | ⟨p, payload, rfl, _⟩ := exec_cases h
  · refine OffLinkPart.session.runOps (fun st hst u => ?_) s
    obtain ⟨ht, hm, _⟩ := opSteps_else ho st hst u
    obtain ⟨ht', hm'⟩ := opSteps_session ho hi st hst u
    exact ⟨session_eq_iff.2 ⟨ht, hm⟩, session_eq_iff.2 ⟨ht', hm'⟩⟩
  · exact absurd rfl (hi p payload)

/-- No step writes the session when it begins. -/
theorem enterStep_session (op : Instr) (k polls : Nat) (s : State) : (enterStep op k polls s).session = s.session :=
  OffLinkPart.session.enterStep polls fun st hk =>
    let ⟨_, ho, hst⟩ := of_opStep hk
    session_eq_iff.2 ⟨(opSteps_else ho st hst s).1, (opSteps_else ho st hst s).2.1⟩

theorem runEvent_session {op : Instr} (hop : ∀ p d, op ≠ .transmit p d) (pos : Position) (s : State) :
    (runEvent op pos ((pieceActs s.cfg pos.piece).drop pos.event) s).session = s.session := by
  have hafter : ∀ k polls u, (afterStep op k polls u).session = u.session := by
    intro k polls u
    unfold afterStep
    split <;> exact enterStep_session op _ _ u
  refine OffLinkPart.session.runEvent ((hafter _ _ _).trans (OffLinkPart.session.stepOver fun st u hk => ?_))
  obtain ⟨_, ho, hst⟩ := of_opStep hk
  exact session_eq_iff.2 (opSteps_session ho hop st hst u)

theorem afterPoll_session (polls : Nat) (s : State) : (afterPoll polls s).session = s.session := by
  unfold afterPoll
  split
  · rw [finishTransmit, OffLinkPart.session.seq, session_eq_iff]
    exact ⟨(memWrites_outside _ s).1, (memWrites_outside _ s).2.1⟩
  · exact OffLinkPart.session.seq _ s

theorem pollStatus_session {polls : Nat} {s t : State} (h : pollStatus polls s = .next t) : t.session = s.session := by
  rw [of_pollStatus_next h, afterPoll_session]
  obtain ⟨ht, hm, _⟩ := memRead_outside s.cfg.addrStatus s
  exact session_eq_iff.2 ⟨ht, hm⟩

/-- A transmit runs from idle alone (R246). -/
theorem of_exec_transmit_next {p : Option ModemParameters} {payload : List Byte} {s t : State}
    (h : exec (.transmit p payload) s = .next t) : s.seq = .idle := by
  rw [exec_transmit_eq] at h
  exact (of_hostCall_next h).1

/-- Settles O7: by the kind of step, only a call of transmit run whole, or a pin event of one, changes the session. -/
theorem onlyTransmitWritesSession : Obligations.OnlyTransmitWritesSession := by
  refine ⟨fun i s t h hi => session_eq_iff.1 (exec_session h hi), fun s t h hne => ?_⟩
  have hne : t.session ≠ s.session := fun e =>
    hne.elim (absurd (session_eq_iff.1 e).1) (absurd (session_eq_iff.1 e).2)
  cases stepKind_of_step h with
  | wait h => exact absurd (h ▸ rfl) hne
  | whole c rest i _ hc hi h =>
    obtain ⟨p, d, rfl⟩ | hop := transmit_or i
    · exact .inr ⟨of_exec_transmit_next (s := { s with calls := rest }) h, c, rest, p, d, hc, hi⟩
    · have he := exec_session h hop
      exact absurd he hne
  | start i rest _ _ h =>
    obtain ⟨_, _, rfl⟩ := of_startPinwise_next h
    have he := enterStep_session i 0 0 { s with calls := rest }
    exact absurd he hne
  | poll _ _ h => exact absurd (pollStatus_session h) hne
  | event op pos hq h =>
    obtain ⟨p, d, rfl⟩ | hop := transmit_or op
    · exact .inl ⟨p, d, pos, hq⟩
    · exact absurd (h ▸ runEvent_session hop pos s) hne

/-! ### The shadow and the last write to the output register (R49) -/

theorem lastWrite_of_notMem {a : RegAddr} {evs : List BusEvent} (h : ∀ v, .write a v ∉ evs) (o : Option Word) :
    lastWrite a o evs = o := by
  induction evs generalizing o with
  | nil => rfl
  | cons e evs ih =>
    have hrest : ∀ v, .write a v ∉ evs := fun v hv => h v (List.mem_cons_of_mem _ hv)
    cases e with
    | write b v =>
      have hne : b ≠ a := fun hb => h v (hb ▸ List.mem_cons_self)
      rw [lastWrite, if_neg hne, ih hrest]
    | read b v => rw [lastWrite, ih hrest]

theorem memWrite_bus (a : RegAddr) (v : Word) (s : State) : (memWrite a v s).bus = .write a v :: s.bus := by
  rw [memWrite, logBus_bus, (pinStep_writeFrame a v s).bus]

/-- setOutputPin writes the shadow it leaves, as its one bus event (R170). -/
theorem exec_setOutputPin_busTrace {p : Nat} {x : Bool} {s t : State} (h : exec (.setOutputPin p x) s = .next t) :
    t.busTrace = s.busTrace ++ [.write s.cfg.addrGpioOut t.gpioShadow] := by
  simp only [exec, execSetOutputPin] at h
  obtain ⟨_, h⟩ := of_hostCall_next h
  obtain ⟨b, _, h⟩ := of_withOperand_next h
  obtain rfl := Host.Outcome.next.inj h
  rw [writeShadow, (Kept.memWrite _ _ _).shadow, State.busTrace, memWrite_bus, List.reverse_cons]
  rfl

/-- Events that do not write the output register leave the last value written there. -/
theorem lastWrite_append_of_notMem {a : RegAddr} {s t : State} {evs : List BusEvent} {o : Option Word}
    (hb : t.busTrace = s.busTrace ++ evs) (hn : ∀ v, .write a v ∉ evs) :
    lastWrite a o t.busTrace = lastWrite a o s.busTrace := by
  rw [hb, lastWrite_append, lastWrite_of_notMem hn]

/-- Settles O39: setOutputPin's last write is the shadow it leaves, and anything else leaves both alone. -/
theorem shadowIsTheLastPinWrite : Obligations.ShadowIsTheLastPinWrite := by
  refine ⟨fun c => rfl, fun i s t evs _ h hb hw hl => ?_, fun k s t evs h hb hn hl => ?_⟩
  · obtain ⟨p, x, rfl⟩ | hop := setOutputPin_or i
    · rw [exec_setOutputPin_busTrace h, lastWrite_append, lastWrite, lastWrite, if_pos rfl]
    · rw [lastWrite_append_of_notMem hb (hw.resolve_left fun ⟨p, x, e⟩ => hop p x e), hl,
        exec_shadow h hop]
  · rw [lastWrite_append_of_notMem hb hn, hl, (pollStatus_kept h).shadow]

end Sys2Proof.Machine
end

section
/-! A call run pin by pin (R41): the operation's steps, event by event, end where the whole call's meaning does. -/

namespace Sys2Proof.Machine

/-! ### How the call starts -/

theorem startPinwise_next {i : Instr} {s : State} {steps : List OpStep} (hm : mayStart s.seq i = true)
    (ho : opSteps s.cfg i = .ok steps) : startPinwise i s = .next (enterStep i 0 0 s) := by
  rw [startPinwise, if_pos hm, ho, withOperand_ok]

/-- A transmit is refused where it may not start, and nowhere else (R211, R246). -/
theorem of_exec_transmit_refused {p : Option ModemParameters} {payload : List Byte} {s : State} {r : Refusal}
    (h : exec (.transmit p payload) s = .refused r) : s.seq ≠ .idle ∧ r = .busy := by
  rw [exec_transmit_eq] at h
  by_cases hq : s.seq = .idle
  · rw [hostCall_idle hq] at h
    split at h
    · unfold pollStatus at h; split at h <;> cases h
    · cases h
  · rw [hostCall_busy hq] at h
    exact ⟨hq, (Host.Outcome.refused.inj h).symm⟩

/-- A call begun pin by pin is refused as the whole call is (R246). -/
theorem startPinwise_refused {i : Instr} {s : State} {r : Refusal} (h : exec i s = .refused r) :
    startPinwise i s = .refused r := by
  obtain ⟨p, payload, rfl⟩ | hi := transmit_or i
  · obtain ⟨hq, rfl⟩ := of_exec_transmit_refused h
    rw [startPinwise, if_neg fun hm => hq (mayStart_transmit.1 hm)]
  · rw [exec_eq_ops hi] at h
    rw [startPinwise]
    split at h
    · next hm =>
      rw [if_pos hm]
      cases ho : opSteps s.cfg i with
      | ok steps => rw [ho] at h; cases h
      | error e => rw [ho] at h; exact h
    · next hm => rw [if_neg hm]; exact h

/-- Issuing a call that runs pin by pin is one step of the machine, to its first pin event. -/
theorem runSteps_of_start {i : Instr} {rest : List Call} {s t : State} {steps : List OpStep}
    (hq : s.seq = .idle ∨ s.seq = .inTransaction) (hc : s.calls = .pinwise i :: rest) (hm : mayStart s.seq i = true)
    (ho : opSteps s.cfg i = .ok steps)
    (h : ∃ n, runSteps n (enterStep i 0 0 { s with calls := rest }) = some t) : ∃ n, runSteps (n + 1) s = some t := by
  obtain ⟨n, hn⟩ := h
  have hs : step s = .next (enterStep i 0 0 { s with calls := rest }) :=
    (step_eq_issueCall hq).trans ((issueCall_pinwise hc).trans (startPinwise_next hm ho))
  exact ⟨n, (runSteps_succ_of_next hs).trans hn⟩

/-! ### Operations without a poll -/

/-- A call that is no accepted transmit, run pin by pin, ends where its steps end, with `SEQ` at rest (R41). -/
theorem runSteps_call {i : Instr} {s : State} {steps : List OpStep} (ho : opSteps s.cfg i = .ok steps)
    (hp : ∀ k < steps.length, isPoll i k = false) :
    ∃ n, runSteps n (enterStep i 0 0 s) = some (moveSeq (restSeq i) (runOps steps s)) := by
  obtain ⟨n, hn⟩ := runSteps_ops (k := 0) (polls := 0) ho ⟨[], List.append_nil steps⟩ fun j _ hj => hp j (by omega)
  have he := enterStep_none (k := 0 + steps.length) (s := runOps steps s) 0
    ((runOps_cfg (opSteps_ok ho) s).symm ▸ ho) (by simp)
  exact ⟨n, hn.trans (congrArg some he)⟩

/-! ### transmit (R218, R219, R221) -/

/-- The steps after the poll: transmit's step 8 (R219). -/
def finishSteps (c : Cfg) : List OpStep :=
  [.plain (.write c.addrStrobe c.strobeClearValue), ⟨fun s => .write c.addrFskCtrl s.template, id, id⟩]

theorem transmitSteps_drop (c : Cfg) (payload : List Byte) :
    (transmitSteps c payload).drop (pollStep payload + 1) = finishSteps c := transmitSteps_last c payload

theorem transmitSteps_length (c : Cfg) (payload : List Byte) :
    (transmitSteps c payload).length = pollStep payload + 1 + 2 := by
  simp [transmitSteps, startSteps_length]

theorem runOps_finish (s : State) : runOps (finishSteps s.cfg) s =
    memWrites [(s.cfg.addrStrobe, s.cfg.strobeClearValue), (s.cfg.addrFskCtrl, s.template)] s := by
  rw [finishSteps, runOps_cons, runOps_cons, runOps_nil, run_plainWrite, run_write, (memWrite_outside _ _ s).1]
  rfl

/-- The poll is the one step of transmit that is one. -/
theorem isPoll_transmit_of_ne {p : Option ModemParameters} {payload : List Byte} {k : Nat} (h : k ≠ pollStep payload) :
    isPoll (.transmit p payload) k = false := by
  simp [isPoll, h]

/-- Where `SEQ` stands after a poll: idle, or at the next one (R218). -/
theorem pollStatus_seq {k : Nat} {s t : State} (h : pollStatus k s = .next t) :
    t.seq = .idle ∨ t.seq = .transmitPoll (k + 1) := by
  rw [of_pollStatus_next h, afterPoll_seq]
  split
  · exact .inl rfl
  · exact .inr rfl

section
variable {p : Option ModemParameters} {payload : List Byte} {s : State} (ha : transmitAccepted s.cfg p payload = true)
include ha

/-- A poll begins at its first pin event. -/
theorem enterStep_poll (k : Nat) : enterStep (.transmit p payload) (pollStep payload) k s =
    moveSeq (.running (.transmit p payload) ⟨pollStep payload, .read s.cfg.addrStatus, 0, k⟩) s :=
  enterStep_some k (opSteps_transmit ha) (transmitSteps_poll s.cfg payload)

/-- Steps 1 to 6 run pin by pin lead to the first poll (R221). -/
theorem runSteps_startTransmit :
    ∃ n, runSteps n (enterStep (.transmit p payload) 0 0 s) =
      some (enterStep (.transmit p payload) (pollStep payload) 0 (startTransmit payload s)) := by
  have hp : startSteps s.cfg payload <+: (transmitSteps s.cfg payload).drop 0 := ⟨_, rfl⟩
  have hl := startSteps_length s.cfg payload
  obtain ⟨n, hn⟩ := runSteps_ops (polls := 0) (opSteps_transmit ha) hp fun j _ hj =>
    isPoll_transmit_of_ne (p := p) (by omega)
  rw [runOps_start, Nat.zero_add, hl] at hn
  exact ⟨n, hn⟩

/-- Step 8 run pin by pin returns (R219). -/
theorem runSteps_finishTransmit (k : Nat) :
    ∃ n, runSteps n (enterStep (.transmit p payload) (pollStep payload + 1) k s) = some (finishTransmit s) := by
  have ho := opSteps_transmit ha
  have hp : finishSteps s.cfg <+: (transmitSteps s.cfg payload).drop (pollStep payload + 1) :=
    ⟨[], (List.append_nil _).trans (transmitSteps_drop s.cfg payload).symm⟩
  obtain ⟨n, hn⟩ := runSteps_ops (polls := k) ho hp fun j hj _ => isPoll_transmit_of_ne (p := p) (by omega)
  have hlen : (transmitSteps s.cfg payload)[pollStep payload + 1 + 2]? = none :=
    List.getElem?_eq_none (transmitSteps_length s.cfg payload).le
  have he := enterStep_none (op := .transmit p payload) (s := runOps (finishSteps s.cfg) s) k
    (by rw [runOps_finish, (Kept.memWrites _ s).cfg]; exact ho) hlen
  refine ⟨n, hn.trans (congrArg some (he.trans ?_))⟩
  rw [runOps_finish]
  rfl

/-- A poll run pin by pin, with the step 8 it may end in: returned, or at the next poll's first pin event (R218). -/
theorem runSteps_poll {k : Nat} {t : State} (h : pollStatus k s = .next t) :
    ∃ n, runSteps (n + 1) (enterStep (.transmit p payload) (pollStep payload) k s) =
      some (if t.seq = .idle then t else enterStep (.transmit p payload) (pollStep payload) (k + 1) t) := by
  have hf : pollFuelUsed s.cfg k = false := by
    by_contra hf
    rw [pollStatus, if_pos (Bool.eq_true_of_not_eq_false hf)] at h
    cases h
  have hrun := runSteps_step (polls := k) (opSteps_transmit ha) (transmitSteps_poll s.cfg payload) (.inr hf)
  have hread : (OpStep.plain (.read s.cfg.addrStatus)).run s = memRead s.cfg.addrStatus s := run_read _ id s
  have hr : transmitAccepted (memRead s.cfg.addrStatus s).cfg p payload = true := (Kept.memRead _ s).cfg.symm ▸ ha
  have hpoll : isPoll (.transmit p payload) (pollStep payload) = true := by simp [isPoll]
  rw [hread, afterStep, hpoll, Bool.true_and] at hrun
  rw [of_pollStatus_next h]
  generalize memRead s.cfg.addrStatus s = r at hr hrun
  cases hd : statusDone r.cfg r.acc with
  | true =>
    obtain ⟨m, hm⟩ := runSteps_finishTransmit hr k
    rw [hd] at hrun
    refine ⟨136 + m, ?_⟩
    rw [afterPoll, if_pos hd, if_pos (show (finishTransmit r).seq = .idle from rfl), Nat.add_right_comm]
    exact (runSteps_add hrun).trans hm
  | false =>
    have hn : ¬ statusDone r.cfg r.acc = true := by simp [hd]
    rw [hd] at hrun
    refine ⟨136, ?_⟩
    rw [afterPoll, if_neg hn, if_neg (by simp), enterStep_moveSeq]
    exact hrun

/-- An accepted transmit run pin by pin to the end of its first poll (R210). -/
theorem runSteps_transmit {t : State} (h : pollStatus 0 (startTransmit payload s) = .next t) :
    ∃ n, runSteps n (enterStep (.transmit p payload) 0 0 s) =
      some (if t.seq = .idle then t else enterStep (.transmit p payload) (pollStep payload) 1 t) := by
  obtain ⟨n, hn⟩ := runSteps_startTransmit ha
  obtain ⟨m, hm⟩ := runSteps_poll ((Kept.startTransmit payload s).cfg.symm ▸ ha) h
  exact ⟨n + (m + 1), (runSteps_add hn).trans hm⟩

end

/-! ### The two grains -/

/-- A call run pin by pin returns where the whole call does. -/
theorem runSteps_of_exec {i : Instr} {rest : List Call} {s t : State} (hq : s.seq = .idle ∨ s.seq = .inTransaction)
    (hc : s.calls = .pinwise i :: rest) (h : exec i { s with calls := rest } = .next t)
    (ht : ∀ k, t.seq ≠ .transmitPoll k) : ∃ n, runSteps (n + 1) s = some t := by
  obtain ⟨steps, hm, ho, hp, rfl⟩ | ⟨p, payload, rfl, hidle, ha, h⟩ := exec_cases h
  · exact runSteps_of_start hq hc hm ho (runSteps_call ho hp)
  · have hr := runSteps_transmit ha h
    rw [if_pos ((pollStatus_seq h).resolve_right (ht 1))] at hr
    exact runSteps_of_start hq hc (mayStart_transmit.2 hidle) (opSteps_transmit ha) hr

/-- A transmit run pin by pin that polls on stands at the poll's first pin event. -/
theorem runSteps_of_exec_polling {p : Option ModemParameters} {payload : List Byte} {rest : List Call} {s t : State}
    {k : Nat} (hq : s.seq = .idle ∨ s.seq = .inTransaction) (hc : s.calls = .pinwise (.transmit p payload) :: rest)
    (h : exec (.transmit p payload) { s with calls := rest } = .next t) (ht : t.seq = .transmitPoll k) :
    ∃ n, runSteps (n + 1) s = some
      (moveSeq (.running (.transmit p payload) ⟨pollStep payload, .read s.cfg.addrStatus, 0, k⟩) t) := by
  obtain ⟨steps, _, _, _, rfl⟩ | ⟨p', payload', heq, hidle, ha, hpoll⟩ := exec_cases h
  · cases ht
  · obtain ⟨rfl, rfl⟩ := Instr.transmit.inj heq
    have hr := runSteps_transmit ha hpoll
    obtain rfl : k = 1 := by
      have := (pollStatus_seq hpoll).resolve_left (by simp [ht])
      exact Seq.transmitPoll.inj (ht.symm.trans this)
    have hcfg : t.cfg = s.cfg := (exec_grows h).cfg
    rw [if_neg (by simp [ht]), enterStep_poll (hcfg.symm ▸ ha), hcfg] at hr
    exact runSteps_of_start hq hc (mayStart_transmit.2 hidle) (opSteps_transmit ha) hr

/-- Settles O56: the operation's steps run event by event are the call's meaning, transmit's polls one by one. -/
theorem pinwiseRunIsTheWholeCall : Obligations.PinwiseRunIsTheWholeCall := by
  refine ⟨fun s t i rest hq hc h => ⟨runSteps_of_exec hq hc h, ?_⟩, fun s i rest r hq hc h => ?_,
    fun s t p payload k ha h => ?_⟩
  · rintro p payload k rfl ht
    exact runSteps_of_exec_polling hq hc h ht
  · exact (step_eq_issueCall hq).trans ((issueCall_pinwise hc).trans (startPinwise_refused h))
  · have hcfg := (pollStatus_kept h).cfg
    have hr := runSteps_poll ha h
    rwa [enterStep_poll ha, enterStep_poll (hcfg.symm ▸ ha), hcfg] at hr

end Sys2Proof.Machine
end

section
/-! How `SEQ` moves (R41, R218): forward through the events and the steps of an operation, and back for a poll alone. -/

namespace Sys2Proof.Machine

/-- No step makes a bus event before its pin events. -/
theorem opSteps_before_bus {c : Cfg} {op : Instr} {steps : List OpStep} (h : opSteps c op = .ok steps) :
    ∀ st ∈ steps, ∀ s, (st.before s).bus = s.bus :=
  opSteps_all (fun _ _ _ => rfl) (fun _ _ _ _ => rfl) (fun _ _ _ _ _ => rfl) (fun _ _ _ => rfl) (fun _ _ _ => rfl)
    (fun _ _ _ => rfl) (fun _ _ _ => rfl) h

theorem enterStep_bus (op : Instr) (k polls : Nat) (s : State) : (enterStep op k polls s).bus = s.bus := by
  unfold enterStep
  split
  · next hk =>
    obtain ⟨_, ho, hst⟩ := of_opStep hk
    exact opSteps_before_bus ho _ hst s
  · rfl

/-- What is left of a step makes its pin events and issues no call. -/
theorem stepOver_keeps (op : Instr) (pos : Position) (s : State) :
    (s.stepOver op pos).calls = s.calls ∧ (s.stepOver op pos).cfg = s.cfg ∧
    (s.stepOver op pos).pins = (runActs ((pieceActs s.cfg pos.piece).drop pos.event) s).pins := by
  have hp := pinStep_rest pos s
  have hc := OffLink.completePiece pos.piece
  obtain ⟨h1, h2, _, h4⟩ := finishStep_keeps op pos.step
    (completePiece pos.piece (runActs ((pieceActs s.cfg pos.piece).drop pos.event) s))
  exact ⟨h1.trans ((hc.calls _).trans hp.calls), h4.trans ((hc.cfg _).trans hp.cfg), h2.trans (hc.pins _)⟩

/-- The last pin event of a step is one pin event. -/
theorem stepOver_event {op : Instr} {pos : Position} {s : State} (hlt : pos.event < (pieceActs s.cfg pos.piece).length)
    (hlast : (pieceActs s.cfg pos.piece).length ≤ pos.event + 1) : ∃ e, (s.stepOver op pos).pins = e :: s.pins := by
  obtain ⟨_, _, hpins⟩ := stepOver_keeps op pos s
  rw [hpins, List.drop_eq_getElem_cons hlt, List.drop_eq_nil_of_le hlast]
  exact pieceActs_event _ _ _ (List.getElem_mem hlt) s

/-- A call that begins pin by pin makes no event, and `SEQ` goes to its first step, or stays idle if it has none (R41). -/
theorem startPinwise_moves {i : Instr} {s t : State} (h : startPinwise i s = .next t) :
    t.calls = s.calls ∧ t.pins = s.pins ∧ t.bus = s.bus ∧ goesTo s.cfg i 0 0 s t.seq ∧
    (opStep s.cfg i 0 = none →
      t.seq = .idle ∧ ∃ p payload, i = .transmit p payload ∧ transmitAccepted s.cfg p payload = false) := by
  obtain ⟨_, ⟨steps, ho⟩, rfl⟩ := of_startPinwise_next h
  obtain ⟨hcalls, hpins, _, _⟩ := enterStep_keeps i 0 0 s
  have hgo := enterStep_seq i 0 0 s
  refine ⟨hcalls, hpins, enterStep_bus i 0 0 s, hgo, fun hn => ?_⟩
  obtain rfl : steps = [] := by simpa [opStep_eq ho] using hn
  obtain ⟨p, payload, rfl, ha⟩ := opSteps_eq_nil ho
  exact ⟨hgo.2 hn, p, payload, rfl, ha⟩

/-- A pin event that is not the last of its step: one event, and `SEQ` at the next (R41). -/
theorem runEvent_within_moves {op : Instr} {pos : Position} {s t : State}
    (hw : pos.event + 1 < (pieceActs s.cfg pos.piece).length)
    (h : t = runEvent op pos ((pieceActs s.cfg pos.piece).drop pos.event) s) :
    t.calls = s.calls ∧ (∃ e, t.pins = e :: s.pins) ∧ t.seq = .running op { pos with event := pos.event + 1 } := by
  obtain ⟨f, hf, _, he⟩ := runEvent_within (op := op) hw
  rw [h, he]
  exact ⟨(pieceActs_pinStep _ _ f hf s).calls, pieceActs_event _ _ f hf s, rfl⟩

/-- Settles O57: the start is the first step's first event, and a pin event is within its step or the last of it. -/
theorem sequencerMovesForward : Obligations.SequencerMovesForward := by
  refine ⟨fun s t i rest hq hc h => ?_, fun s t op pos hq h => ?_⟩
  · rw [step_eq_issueCall hq, issueCall_pinwise hc] at h
    exact startPinwise_moves h
  · simp only [step, hq] at h
    have h := of_pinStep_next h
    by_cases hw : pos.event + 1 < (pieceActs s.cfg pos.piece).length
    · obtain ⟨hcalls, hpins, hseq⟩ := runEvent_within_moves hw h
      exact ⟨hcalls, fun _ => hpins, fun _ => hseq, fun hl => absurd hw (Nat.not_lt.2 hl)⟩
    · have hlast := Nat.not_lt.1 hw
      rw [runEvent_last hlast] at h
      obtain ⟨hcalls, hcfg, _⟩ := stepOver_keeps op pos s
      obtain ⟨acalls, apins, aacc, aback, aon⟩ := afterStep_moves op pos.step pos.polls (s.stepOver op pos)
      rw [← h] at acalls apins aacc aback aon
      rw [statusDone, hcfg, ← aacc] at aback aon
      refine ⟨acalls.trans hcalls, fun hlt => ?_, fun hw' => absurd hw' hw, fun _ => ⟨aback, aon⟩⟩
      rw [apins]
      exact stepOver_event hlt hlast

end Sys2Proof.Machine
end

section
/-! The register bank through the host's two operations (R86 to R89): what a write leaves in the bank and what a read
answers, by the kind of peer. -/

namespace Sys2Proof.Machine

/-! ### The transactions and the bank, whatever the peer -/

/-- A write transaction leaves in the bank what the peer commits (R78). -/
theorem memWrite_bank {s : State} (h : s.quiet) (a : RegAddr) (v : Word) :
    (memWrite a v s).peer.cells = commitWrite s.cfg s.peer.kind s.peer.cells a v := by
  rw [memWrite_quiet a v h]
  exact Peer.afterWrite_cells ..

/-- A read transaction leaves in the bank what the peer commits (R80). -/
theorem memRead_bank {s : State} (h : s.quiet) (a : RegAddr) :
    (memRead a s).peer.cells = commitRead s.cfg s.peer.kind s.peer.cells a := by
  rw [memRead_quiet a h]
  exact Peer.afterRead_cells ..

/-- After a write the host may read, and both calls complete (R149, R150, R246). -/
theorem exec_writeRegister_readRegister {s : State} (hq : s.seq = .idle) (a b : RegAddr) (v : Word) :
    exec (.writeRegister a.toNat v.toNat) s = .next (memWrite a v s) ∧
    exec (.readRegister b.toNat) (memWrite a v s) =
      .next (giveHost (.value (memRead b (memWrite a v s)).acc) (memRead b (memWrite a v s))) :=
  have ⟨_, _, hseq, _⟩ := memWrite_outside a v s
  ⟨exec_writeRegister hq a v, exec_readRegister (hseq.trans hq) b⟩

/-! ### SimBank (R86) -/

theorem memRead_acc_simBank {s : State} (h : s.quiet) (hk : s.peer.kind = .simBank) {a : RegAddr}
    (ha : takeAnswer a s.env.answers = none) : (memRead a s).acc = bankCell s.peer.cells a := by
  rw [memRead_acc h, readValue_simBank a hk ha]

theorem memWrite_bank_simBank {s : State} (h : s.quiet) (hk : s.peer.kind = .simBank) (a : RegAddr) (v : Word) :
    (memWrite a v s).peer.cells = s.peer.cells.write a.toNat v := by
  rw [memWrite_bank h, hk, commitWrite]

theorem bankCell_write_same (m : Memory) (a : RegAddr) (v : Word) : bankCell (m.write a.toNat v) a = v := by
  rw [bankCell, Memory.read_write_same, Option.getD_some]

/-- A write of a cell leaves every other cell as it was (R77). -/
theorem sameCellsExcept_write (m : Memory) (a : RegAddr) (v : Word) : sameCellsExcept [a] m (m.write a.toNat v) :=
  fun _ hb => Memory.read_write_ne m v fun h => hb (List.mem_singleton.2 (BitVec.eq_of_toNat_eq h))

/-- Settles O29: the write commits to its own cell alone, and the read answers with the cell and commits nothing. -/
theorem simBankStoresAndReturnsCells : Obligations.SimBankStoresAndReturnsCells := by
  intro s a v hs hk
  refine ⟨⟨_, exec_writeRegister hs.1 a v, ?_, ?_⟩, fun ha => ⟨_, exec_readRegister hs.1 a, ?_, ?_, ?_⟩⟩
  · rw [memWrite_bank_simBank hs.quiet hk, Memory.read_write_same]
  · rw [memWrite_bank_simBank hs.quiet hk]
    exact sameCellsExcept_write _ a v
  · rw [giveHost_acc, memRead_acc_simBank hs.quiet hk ha]
  · rw [giveHost_peer, memRead_bank hs.quiet, hk, commitRead]
  · rw [giveHost_env, memRead_env_simBank hs.quiet hk ha]

/-- Settles O30: the read answers with the cell that the write has just set. -/
theorem simBankRoundTrip : Obligations.SimBankRoundTrip := by
  intro s a v hs hk ha
  have ⟨hw, hr⟩ := exec_writeRegister_readRegister hs.1 a a v
  have hT := Txns.write hs.quiet a v
  have hacc : (memRead a (memWrite a v s)).acc = v := by
    rw [memRead_acc_simBank hT.quiet (hT.kind.trans hk) (by rwa [memWrite_env hs.quiet]),
      memWrite_bank_simBank hs.quiet hk, bankCell_write_same]
  have hout : (memRead a (memWrite a v s)).output = s.output :=
    (Sent.read hT.quiet a).output.trans (Sent.write hs.quiet a v).output
  refine ⟨_, _, hw, hr, ?_⟩
  rw [State.outputTrace, giveHost_output, List.reverse_cons, hacc, hout, State.outputTrace]

/-! ### The contract chip (R87, R88) -/

/-- A known register answers with its content on the plain bits and with the oracle's word on the others. -/
theorem readValue_chip_known {c : Cfg} {p : Peer} (e : Env) {a : RegAddr} {w : Word} (hk : p.kind = .chip)
    (hw : p.cells.read a.toNat = some w) :
    readValue c p e a = (w &&& plainMask c a) ||| ((oracleWord a e).1 &&& ~~~plainMask c a) := by
  simp [readValue, answerRead, hk, hw]

/-- A register of which nothing is known answers with the oracle's word. -/
theorem readValue_chip_unknown {c : Cfg} {p : Peer} (e : Env) {a : RegAddr} (hk : p.kind = .chip)
    (hw : p.cells.read a.toNat = none) : readValue c p e a = (oracleWord a e).1 := by
  simp [readValue, answerRead, hk, hw]

/-- A register with no plain bit answers with the oracle's word, whatever was written to it. -/
theorem readValue_chip_notPlain {c : Cfg} {p : Peer} (e : Env) {a : RegAddr} (hk : p.kind = .chip)
    (hm : plainMask c a = 0) : readValue c p e a = (oracleWord a e).1 := by
  cases hw : p.cells.read a.toNat with
  | none => exact readValue_chip_unknown e hk hw
  | some w =>
    have hm : plainMask c a = 0#16 := hm
    rw [readValue_chip_known e hk hw, hm, BitVec.and_zero, BitVec.zero_or, BitVec.not_zero, BitVec.and_allOnes]

/-- The oracle gives the scripted answer that is next for the address (R46, R88). -/
theorem oracleWord_scripted {a : RegAddr} {v : Word} {rest : List (RegAddr × Word)} {e : Env}
    (h : e.answers = (a, v) :: rest) : (oracleWord a e).1 = v := by
  simp [oracleWord, h, takeAnswer]

/-- A register with a plain bit has a role, and it is none of the roles that are not plain (R87). -/
theorem hasRole_of_plainMask {c : Cfg} {a : RegAddr} (h : plainMask c a ≠ 0) :
    hasRole c a = true ∧ a ∉ notPlainAddrs c := by
  unfold plainMask at h
  split at h
  · exact absurd rfl h
  next hn =>
    refine ⟨?_, by simpa using hn⟩
    split at h
    · next hctrl => rw [hasRole, hctrl, Bool.or_true, Bool.true_or]
    · split at h
      · next hp => rw [hasRole, hp, Bool.or_true]
      · exact absurd rfl h

/-- A write to a register with a plain bit is kept: it is no soft reset, and the register has a role (R87). -/
theorem commitWrite_chip_plain {c : Cfg} {a : RegAddr} (h : plainMask c a ≠ 0) (m : Memory) (v : Word) :
    commitWrite c .chip m a v = m.write a.toNat v := by
  have ⟨hrole, hn⟩ := hasRole_of_plainMask h
  have hne : a ≠ c.addrSoftReset := fun e => hn (by simp [e, notPlainAddrs])
  have hsr : isSoftReset c a v = false := by simp [isSoftReset, hne]
  simp only [commitWrite, hsr, hrole, Bool.not_true, Bool.or_self, Bool.false_eq_true, if_false, if_neg h]

/-- Words merged by a mask: the first inside it. -/
theorem and_mask_of_merge (x y m : Word) : ((x &&& m) ||| (y &&& ~~~m)) &&& m = x &&& m := by
  ext i
  cases hm : m[i] <;> simp [hm]

/-- Words merged by a mask: the second outside it. -/
theorem and_not_mask_of_merge (x y m : Word) : ((x &&& m) ||| (y &&& ~~~m)) &&& ~~~m = y &&& ~~~m := by
  ext i
  cases hm : m[i] <;> simp [hm]

/-- Settles O31: the write is kept, so the read merges the written word and the oracle's by the plain bits. -/
theorem contractRoundTripOnPlainBits : Obligations.ContractRoundTripOnPlainBits := by
  intro s a v hs hk hm
  have ⟨hw, hr⟩ := exec_writeRegister_readRegister hs.1 a a v
  have hT := Txns.write hs.quiet a v
  have hcell : (memWrite a v s).peer.cells.read a.toNat = some v := by
    rw [memWrite_bank hs.quiet, hk, commitWrite_chip_plain hm, Memory.read_write_same]
  have hacc : (memRead a (memWrite a v s)).acc =
      (v &&& plainMask s.cfg a) ||| ((oracleWord a s.env).1 &&& ~~~plainMask s.cfg a) := by
    rw [memRead_acc hT.quiet, readValue_chip_known _ (hT.kind.trans hk) hcell, hT.cfg, memWrite_env hs.quiet]
  refine ⟨_, _, hw, hr, ?_, ?_⟩
  · rw [giveHost_acc, hacc, and_mask_of_merge]
  · rw [giveHost_acc, hacc, and_not_mask_of_merge]

/-- Settles O32: either way the read answers with the oracle's word, which the environment may script. -/
theorem oracleAnswersAnyWord : Obligations.OracleAnswersAnyWord := by
  intro s a v hs hk hfree rest hans
  have horacle : readValue s.cfg s.peer s.env a = (oracleWord a s.env).1 :=
    hfree.elim (readValue_chip_notPlain _ hk) (readValue_chip_unknown _ hk)
  refine ⟨_, exec_readRegister hs.1 a, ?_⟩
  rw [giveHost_acc, memRead_acc hs.quiet, horacle, oracleWord_scripted hans]

/-! ### No peer (R88, R89) -/

/-- With nobody on the bus a read returns the sixteen levels the line shows, first one bit 15 (R35, R105). -/
theorem readValue_absent_scripted {c : Cfg} {p : Peer} {e : Env} (a : RegAddr) {v : Word} {rest : List Bool}
    (hk : p.kind = .absent) (h : e.samples = bitsMsb v ++ rest) : readValue c p e a = v := by
  rw [readValue, if_pos hk, drawBits_scripted 16 h (length_bitsMsb v), ofBitsMsb_bitsMsb]

/-- Settles O33: nobody commits a write or a read, and the value read is the line's. -/
theorem absentChipIsInvisible : Obligations.AbsentChipIsInvisible := by
  intro s a v hs hk
  refine ⟨⟨_, exec_writeRegister hs.1 a v, ?_⟩, fun rest hline => ⟨_, exec_readRegister hs.1 a, ?_, ?_⟩⟩
  · rw [memWrite_bank hs.quiet, hk, commitWrite]
  · rw [giveHost_acc, memRead_acc hs.quiet, readValue_absent_scripted a hk hline]
  · rw [giveHost_peer, memRead_bank hs.quiet, hk, commitRead]

end Sys2Proof.Machine
end

section
/-! The wire encodings (R100 to R105, R126), said once: the five forms in which an instruction stands on the wire. The
decoder answers exactly on these, and what it accepts and what the encoder writes are read off them. -/

namespace Sys2Proof

/-- The cells in which an instruction stands on the wire: a byte or a word of BBSL's, sixteen samples, a write frame, or
a read frame with whatever the chip answered (R100, R104, R105). -/
inductive OnWire : List WireCell → Instr → Prop where
  | byte (b : Byte) : OnWire (outCells b) (.shiftOut8 b)
  | word (w : Word) : OnWire (outCells w) (.shiftOut16 w)
  | samples (v : Word) : OnWire (inCells v) .shiftIn16
  | write (a : RegAddr) (v : Word) : OnWire (outCells (writeFrame a v)) (.writeRegister a.toNat v.toNat)
  | read (a : RegAddr) (v : Word) : OnWire (readCells a v) (.readRegister a.toNat)

/-! ### The cells and the frames as values -/

theorem map_out_eq_outCells {w : Nat} {l : List Bool} (h : l.length = w) : l.map .out = outCells (ofBitsMsb w l) := by
  rw [outCells, bitsMsb_ofBitsMsb l h]

theorem map_inp_eq_inCells {w : Nat} {l : List Bool} (h : l.length = w) : l.map .inp = inCells (ofBitsMsb w l) := by
  rw [inCells, bitsMsb_ofBitsMsb l h]

theorem all_cellIsOut_outCells {w : Nat} (v : BitVec w) : (outCells v).all cellIsOut = true := by
  simp [outCells]

/-- A frame whose bit 23 is 0 is the write frame of its address and its data (R100). -/
theorem writeFrame_of_frameRw {f : BitVec 24} (h : frameRw f = false) : writeFrame (frameAddr f) (frameData f) = f := by
  have hbit : f.getLsbD 23 = false := h
  apply BitVec.eq_of_getLsbD_eq
  intro i hi
  rw [writeFrame, BitVec.getLsbD_append, writeCommand, frameAddr, frameData, BitVec.getLsbD_setWidth,
    BitVec.getLsbD_extractLsb', BitVec.getLsbD_extractLsb']
  obtain hlow | hmid | rfl : i < 16 ∨ (16 ≤ i ∧ i < 23) ∨ i = 23 := by omega
  · simp [hlow]
  · have hsub : 16 + (i - 16) = i := by omega
    have h8 : i - 16 < 8 := by omega
    have h7 : i - 16 < 7 := by omega
    simp [Nat.not_lt.2 hmid.1, hsub, h8, h7]
  · simpa using hbit

/-- A command byte whose bit 7 is set is the read command of its other bits (R101, R102). -/
theorem readCommand_setWidth {b : Byte} (h : b.getLsbD 7 = true) : readCommand 0x80 (b.setWidth 7) = b := by
  revert b
  decide

/-- The read flag of a frame is bit 7 of its command byte (R102). -/
theorem frameRw_append (b : Byte) (v : Word) : frameRw (b ++ v : BitVec 24) = b.getLsbD 7 := by
  have := BitVec.getLsbD_append (x := b) (y := v) (i := 23)
  rw [frameRw, this]
  rfl

/-! ### What the decoder rejects for its read flag (R100) -/

theorem decode_out24_read {f : BitVec 24} (h : frameRw f = true) :
    decode (outCells f) = .error .readFrameDrivenByBlock := by
  simp [decode, outCells, splitDrivers_out, h]

theorem decode_out8_in16_write {b : Byte} (v : Word) (h : b.getLsbD 7 = false) :
    decode (outCells b ++ inCells v) = .error .writeFrameDrivenByChip := by
  have hf : frameRw (ofBitsMsb 24 (bitsMsb b ++ bitsMsb v)) = false := by
    rw [← bitsMsb_append]
    exact (congrArg frameRw (ofBitsMsb_bitsMsb (b ++ v))).trans ((frameRw_append b v).trans h)
  simp [decode, outCells, inCells, splitDrivers_append, hf]

/-! ### The decoder answers exactly on the forms -/

theorem decode_of_onWire {cells : List WireCell} {i : Instr} (h : OnWire cells i) : decode cells = .ok i := by
  cases h with
  | byte b => exact decode_out8 b
  | word w => exact decode_out16 w
  | samples v => exact decode_in16 v
  | write a v => exact decode_writeFrame a v
  | read a v => exact decode_readCells a v

/-- A whole frame of BBSL's that decodes is a write. -/
theorem onWire_of_decode_out24 {f : BitVec 24} {i : Instr} (h : decode (outCells f) = .ok i) :
    OnWire (outCells f) i := by
  cases hf : frameRw f with
  | true => simp [decode_out24_read hf] at h
  | false =>
    rw [← writeFrame_of_frameRw hf] at h ⊢
    rw [decode_writeFrame] at h
    cases h
    exact .write _ _

/-- A command byte and sixteen samples that decode are a read. -/
theorem onWire_of_decode_out8_in16 {b : Byte} {v : Word} {i : Instr} (h : decode (outCells b ++ inCells v) = .ok i) :
    OnWire (outCells b ++ inCells v) i := by
  cases hb : b.getLsbD 7 with
  | true =>
    rw [decode_out8_in16 b v hb] at h
    cases h
    have hread := OnWire.read (b.setWidth 7) v
    rwa [readCells, readCommand_setWidth hb] at hread
  | false => simp [decode_out8_in16_write v hb] at h

/-- The numbers of outgoing and incoming cells of what decodes (R77, R100). -/
theorem cellCounts_of_decode {o n : List Bool} {i : Instr} (h : decode (o.map .out ++ n.map .inp) = .ok i) :
    (n = [] ∧ (o.length = 8 ∨ o.length = 16 ∨ o.length = 24)) ∨
      (n.length = 16 ∧ (o = [] ∨ o.length = 8)) := by
  simp only [decode, splitDrivers_append] at h
  -- one case for each pair of numbers that the decoder tells apart
  split at h <;> simp_all

theorem onWire_of_decode {cells : List WireCell} {i : Instr} (h : decode cells = .ok i) : OnWire cells i := by
  obtain ⟨⟨o, n⟩, hs⟩ : ∃ x, splitDrivers cells = some x := by
    cases hs : splitDrivers cells with
    | none => simp [decode, hs] at h
    | some x => exact ⟨x, rfl⟩
  obtain rfl := eq_of_splitDrivers hs
  obtain ⟨rfl, ho | ho | ho⟩ | ⟨hn, rfl | ho⟩ := cellCounts_of_decode h
  · rw [List.map_nil, List.append_nil, map_out_eq_outCells ho] at h ⊢
    rw [decode_out8] at h
    cases h
    exact .byte _
  · rw [List.map_nil, List.append_nil, map_out_eq_outCells ho] at h ⊢
    rw [decode_out16] at h
    cases h
    exact .word _
  · rw [List.map_nil, List.append_nil, map_out_eq_outCells ho] at h ⊢
    exact onWire_of_decode_out24 h
  · rw [List.map_nil, List.nil_append, map_inp_eq_inCells hn] at h ⊢
    rw [decode_in16] at h
    cases h
    exact .samples _
  · rw [map_out_eq_outCells ho, map_inp_eq_inCells hn] at h ⊢
    exact onWire_of_decode_out8_in16 h

/-- The decoder answers an instruction for exactly the cells in which it stands on the wire. -/
theorem decode_eq_ok_iff {cells : List WireCell} {i : Instr} : decode cells = .ok i ↔ OnWire cells i :=
  ⟨onWire_of_decode, decode_of_onWire⟩

/-! ### The encoder writes the forms -/

theorem onWire_writeFrame {a v : Nat} (ha : wfAddress a = true) (hv : wfValue v = true) :
    OnWire (outCells (writeFrame (BitVec.ofNat 7 a) (BitVec.ofNat 16 v))) (.writeRegister a v) := by
  simp only [wfAddress, wfValue, decide_eq_true_eq] at ha hv
  have h := OnWire.write (BitVec.ofNat 7 a) (BitVec.ofNat 16 v)
  rwa [BitVec.toNat_ofNat, BitVec.toNat_ofNat, Nat.mod_eq_of_lt ha, Nat.mod_eq_of_lt hv] at h

theorem onWire_readCells {a : Nat} (ha : wfAddress a = true) (v : Word) :
    OnWire (readCells (BitVec.ofNat 7 a) v) (.readRegister a) := by
  simp only [wfAddress, decide_eq_true_eq] at ha
  have h := OnWire.read (BitVec.ofNat 7 a) v
  rwa [BitVec.toNat_ofNat, Nat.mod_eq_of_lt ha] at h

/-- What the encoder writes for a well-formed instruction stands on the wire for the operation it names (R180). -/
theorem onWire_of_encode {c : Cfg} {i : Instr} {cells : List WireCell} (hw : i.wellFormed c = true)
    (he : encode i = some cells) : OnWire cells i.underlying := by
  cases i with
  | writeRegister a v | regWrite a v =>
    simp only [Instr.wellFormed, Bool.and_eq_true] at hw
    cases he
    exact onWire_writeFrame hw.1 hw.2
  | readRegister a | regRead a =>
    cases he
    exact onWire_readCells hw 0
  | shiftOut8 b =>
    cases he
    exact .byte b
  | shiftOut16 w =>
    cases he
    exact .word w
  | shiftIn16 =>
    cases he
    exact .samples 0
  | txnBegin | txnEnd | setOutputPin | pulseWrite | readRegisterDiagnosticDump | configure | transmit => cases he

end Sys2Proof

namespace Sys2Proof.Machine

/-- Settles O10: what the encoder writes is one of the forms, and the decoder answers on each. -/
theorem decodeOfEncode : Obligations.DecodeOfEncode :=
  fun _ _ _ hw he => decode_eq_ok_iff.2 (onWire_of_encode hw he)

/-- Settles O11: by the form of the cells; a read and the sixteen samples are the chip's, the rest is as encoded. -/
theorem decodeAcceptsOnlyEncodings : Obligations.DecodeAcceptsOnlyEncodings := by
  intro cells i h
  cases decode_eq_ok_iff.1 h with
  | byte b => exact .inr (.inr ⟨rfl, all_cellIsOut_outCells b⟩)
  | word w => exact .inr (.inr ⟨rfl, all_cellIsOut_outCells w⟩)
  | samples v => exact .inr (.inl ⟨v, rfl, rfl⟩)
  | write a v =>
    refine .inr (.inr ⟨?_, all_cellIsOut_outCells _⟩)
    rw [encode, BitVec.ofNat_toNat, BitVec.ofNat_toNat, BitVec.setWidth_eq, BitVec.setWidth_eq]
  | read a v => exact .inl ⟨a, v, rfl, rfl⟩

/-! ### Every frame is a bus event (R126) -/

/-- A frame of BBSL's with bit 23 clear is the write of its data to its address. -/
theorem busOfCells_out24 {f : BitVec 24} (h : frameRw f = false) :
    busOfCells (outCells f) = some (.write (frameAddr f) (frameData f)) := by
  rw [busOfCells, decode_out24 f h, decodeFrame, h]
  simp

/-- A command byte with bit 7 set and sixteen samples are the read of its address, answered with the samples. -/
theorem busOfCells_out8_in16 {b : Byte} (v : Word) (h : b.getLsbD 7 = true) :
    busOfCells (outCells b ++ inCells v) = some (.read (b.setWidth 7) v) := by
  have hdata : ((outCells b ++ inCells v).drop 8).map cellBit = bitsMsb v := by
    rw [List.drop_left' (by simp [outCells]), inCells, map_cellBit_inp]
  rw [busOfCells, decode_out8_in16 b v h]
  simp only [hdata, ofBitsMsb_bitsMsb]
  rw [BitVec.ofNat_toNat, BitVec.setWidth_eq]

/-- Settles O12: bit 23 is the read flag, and the address is the command byte without it. -/
theorem everyFrameDecodes : Obligations.EveryFrameDecodes := by
  intro f
  refine ⟨busOfCells_out24, fun h => ?_⟩
  have hflag : (f.extractLsb' 16 8).getLsbD 7 = true := by simpa using h
  have haddr : (f.extractLsb' 16 8).setWidth 7 = f.extractLsb' 16 7 := by
    apply BitVec.eq_of_getLsbD_eq
    intro i hi
    have h8 : i < 8 := by omega
    simp [hi, h8]
  rw [busOfCells_out8_in16 _ hflag, haddr]

/-- Settles O13: each word is decoded; the answer of sixteen samples does not depend on them. -/
theorem writtenOutWordsDecode : Obligations.WrittenOutWordsDecode :=
  ⟨by decide, by decide, by decide, by decide, by decide, decode_in16 _, by decide⟩

end Sys2Proof.Machine
end

section
/-! The words that configure and transmit assemble (R107, R109, R110): fields placed into a base word, and the rounded
product of the tone word. -/

namespace Sys2Proof.Machine

/-! ### Fields placed into a base word (R121) -/

/-- A value to be cut to `width` bits and placed at bit `lsb`. -/
structure PlacedField where
  width : Nat
  lsb   : Nat
  value : Nat

/-- The field alone, placed in a word. -/
def PlacedField.word (f : PlacedField) : Word := placeField f.width f.lsb f.value

/-- The bits of the field. -/
def PlacedField.mask (f : PlacedField) : Word := fieldMask f.width f.lsb

/-- Every bit that is set in one of the words or in the first. -/
def orAll (x : Word) (ws : List Word) : Word := ws.foldl (· ||| ·) x

/-- A base word with fields placed into it. -/
def placeAll (base : Word) (fs : List PlacedField) : Word := orAll base (fs.map PlacedField.word)

/-- The fields lie in the 16 bits, and neither the base nor another field has a bit in one of them (R8). -/
structure FieldLayout (base : Word) (fs : List PlacedField) : Prop where
  fits  : ∀ f ∈ fs, f.width + f.lsb ≤ 16
  base  : ∀ f ∈ fs, disjointMasks base f.mask = true
  apart : fs.Pairwise fun f g => disjointMasks f.mask g.mask = true

theorem getLsbD_orAll (x : Word) (ws : List Word) (i : Nat) :
    (orAll x ws).getLsbD i = (x.getLsbD i || ws.any (·.getLsbD i)) := by
  induction ws generalizing x with
  | nil => simp [orAll]
  | cons w ws ih =>
    rw [orAll, List.foldl_cons, ← orAll, ih, BitVec.getLsbD_or, List.any_cons, Bool.or_assoc]

/-- A set bit of a placed field is one of its mask. -/
theorem PlacedField.mask_of_word {f : PlacedField} {i : Nat} (h : f.word.getLsbD i = true) :
    f.mask.getLsbD i = true := by
  have hrange := placeField_range h
  rw [PlacedField.mask, getLsbD_fieldMask _ _ (BitVec.lt_of_getLsbD h)]
  exact decide_eq_true hrange

/-- Two fields of a layout share no bit, whichever stands first. -/
theorem FieldLayout.disjoint_of_ne {base : Word} {fs : List PlacedField} (h : FieldLayout base fs) {f g : PlacedField}
    (hf : f ∈ fs) (hg : g ∈ fs) (hne : f ≠ g) : disjointMasks f.mask g.mask = true :=
  have : Std.Symm fun f g : PlacedField => disjointMasks f.mask g.mask = true := ⟨fun _ _ => disjointMasks_comm⟩
  h.apart.forall hf hg hne

/-- In the bits of a field the word is that field. -/
theorem FieldLayout.getLsbD_of_mask {base : Word} {fs : List PlacedField} (h : FieldLayout base fs) {f : PlacedField}
    (hf : f ∈ fs) {i : Nat} (hi : f.mask.getLsbD i = true) : (placeAll base fs).getLsbD i = f.word.getLsbD i := by
  have hbase : base.getLsbD i = false := getLsbD_of_disjoint (disjointMasks_comm (h.base f hf)) hi
  have honly : ∀ g ∈ fs, g.word.getLsbD i = true → g = f := by
    intro g hg hgi
    by_contra hne
    have hclear := getLsbD_of_disjoint (h.disjoint_of_ne hg hf hne) (PlacedField.mask_of_word hgi)
    exact Bool.false_ne_true (hclear.symm.trans hi)
  rw [placeAll, getLsbD_orAll, hbase, Bool.false_or, Bool.eq_iff_iff, List.any_map, List.any_eq_true]
  constructor
  · rintro ⟨g, hg, hgi⟩
    rwa [← honly g hg hgi]
  · exact fun hfi => ⟨f, hf, hfi⟩

/-- A field reads back as its value cut to its width. -/
theorem FieldLayout.extract {base : Word} {fs : List PlacedField} (h : FieldLayout base fs) {f : PlacedField}
    (hf : f ∈ fs) : (placeAll base fs).extractLsb' f.lsb f.width = BitVec.ofNat f.width f.value := by
  have hfit := h.fits f hf
  rw [← extract_placeField f.value hfit]
  apply BitVec.eq_of_getLsbD_eq
  intro i hi
  have hmask : f.mask.getLsbD (f.lsb + i) = true := by
    rw [PlacedField.mask, getLsbD_fieldMask _ _ (by omega)]
    exact decide_eq_true ⟨by omega, by omega⟩
  rw [BitVec.getLsbD_extractLsb', BitVec.getLsbD_extractLsb', h.getLsbD_of_mask hf hmask, PlacedField.word]

/-- Outside the fields the word is the base. -/
theorem FieldLayout.and_not_masks {base : Word} {fs : List PlacedField} (h : FieldLayout base fs) :
    placeAll base fs &&& ~~~(orAll 0 (fs.map PlacedField.mask)) = base := by
  apply BitVec.eq_of_getLsbD_eq
  intro i hi
  simp only [BitVec.getLsbD_and, BitVec.getLsbD_not, hi, decide_true, Bool.true_and, getLsbD_orAll, List.any_map,
    BitVec.ofNat_eq_ofNat, BitVec.getLsbD_zero, Bool.false_or, placeAll]
  cases hm : fs.any ((·.getLsbD i) ∘ PlacedField.mask) with
  | true =>
    obtain ⟨f, hf, hfi⟩ := List.any_eq_true.1 hm
    rw [getLsbD_of_disjoint (disjointMasks_comm (h.base f hf)) hfi, Bool.not_true, Bool.and_false]
  | false =>
    have hw : fs.any ((·.getLsbD i) ∘ PlacedField.word) = false :=
      List.any_eq_false.2 fun f hf hfi => List.any_eq_false.1 hm f hf (PlacedField.mask_of_word hfi)
    rw [hw, Bool.or_false, Bool.not_false, Bool.and_true]

/-! ### The mode word (R109) -/

/-- The four fields of the mode word, in the order of `Cfg.modeMasks`. -/
def modeFields (c : Cfg) (p : ModemParameters) : List PlacedField :=
  [⟨3, c.txModeLsb, p.txMode⟩, ⟨3, c.rxModeLsb, p.rxMode⟩, ⟨2, c.preTypeLsb, p.preambleType⟩,
   ⟨3, c.rxBwLsb, p.rxBandwidth⟩]

theorem modeWord_eq_placeAll (c : Cfg) (p : ModemParameters) :
    modeWord c p = placeAll c.modeBase (modeFields c p) := rfl

theorem modeMasks_eq (c : Cfg) (p : ModemParameters) : c.modeMasks = (modeFields c p).map PlacedField.mask := rfl

/-- R8 lays the mode fields out. -/
theorem modeFields_layout {c : Cfg} (h : c.wf = true) (p : ModemParameters) :
    FieldLayout c.modeBase (modeFields c p) := by
  have hwf : (c.txModeLsb ≤ 13 ∧ c.rxModeLsb ≤ 13 ∧ c.preTypeLsb ≤ 14 ∧ c.rxBwLsb ≤ 13) ∧
      (c.modeMasks.Pairwise fun a b => disjointMasks a b = true) ∧
      ∀ m ∈ c.modeMasks, disjointMasks c.modeBase m = true := by
    simp only [Cfg.wf, Bool.and_eq_true, decide_eq_true_eq, List.all_eq_true] at h
    tauto
  obtain ⟨⟨htx, hrx, hpre, hbw⟩, hapart, hbase⟩ := hwf
  rw [modeMasks_eq c p] at hapart hbase
  exact {
    fits := by
      simp only [modeFields, List.forall_mem_cons, List.not_mem_nil, false_imp_iff, implies_true, and_true]
      omega
    base := fun f hf => hbase _ (List.mem_map_of_mem hf)
    apart := List.pairwise_map.1 hapart }

/-- Settles O43: the mode word is the base with its four fields placed into it. -/
theorem modeWordPlacesItsFields : Obligations.ModeWordPlacesItsFields := by
  intro c p hc
  have h := modeFields_layout hc p
  rw [modeWord_eq_placeAll, modeMasks_eq c p]
  exact ⟨h.extract (f := ⟨3, c.txModeLsb, p.txMode⟩) (by simp [modeFields]),
    h.extract (f := ⟨3, c.rxModeLsb, p.rxMode⟩) (by simp [modeFields]),
    h.extract (f := ⟨2, c.preTypeLsb, p.preambleType⟩) (by simp [modeFields]),
    h.extract (f := ⟨3, c.rxBwLsb, p.rxBandwidth⟩) (by simp [modeFields]), h.and_not_masks⟩

/-! ### The length word (R107) -/

/-- The two fields of the length word. -/
def lenFields (c : Cfg) (n : Nat) : List PlacedField := [⟨8, c.lenLo8Lsb, n⟩, ⟨3, c.lenHi3Lsb, n / 256⟩]

theorem lenWord_eq_placeAll (c : Cfg) (n : Nat) : lenWord c n = placeAll 0 (lenFields c n) := by
  simp [lenWord, placeAll, lenFields, orAll, PlacedField.word]

theorem lenMasks_eq (c : Cfg) (n : Nat) :
    fieldMask 8 c.lenLo8Lsb ||| fieldMask 3 c.lenHi3Lsb = orAll 0 ((lenFields c n).map PlacedField.mask) := by
  simp [lenFields, orAll, PlacedField.mask]

/-- R8 lays the length fields out. -/
theorem lenFields_layout {c : Cfg} (h : c.wf = true) (n : Nat) : FieldLayout 0 (lenFields c n) := by
  have hwf : c.lenLo8Lsb ≤ 8 ∧ c.lenHi3Lsb ≤ 13 ∧
      disjointMasks (fieldMask 8 c.lenLo8Lsb) (fieldMask 3 c.lenHi3Lsb) = true := by
    simp only [Cfg.wf, Bool.and_eq_true, decide_eq_true_eq] at h
    tauto
  obtain ⟨hlo, hhi, hapart⟩ := hwf
  exact {
    fits := by
      simp only [lenFields, List.forall_mem_cons, List.not_mem_nil, false_imp_iff, implies_true, and_true]
      omega
    base := fun f _ => by simp [disjointMasks]
    apart := List.pairwise_pair.2 hapart }

/-- Settles O44: the length word is its two fields and nothing else. -/
theorem lengthWordSplitsTheLength : Obligations.LengthWordSplitsTheLength := by
  intro c n hc _
  have h := lenFields_layout hc n
  rw [lenWord_eq_placeAll, lenMasks_eq c n]
  exact ⟨h.extract (f := ⟨8, c.lenLo8Lsb, n⟩) (by simp [lenFields]),
    h.extract (f := ⟨3, c.lenHi3Lsb, n / 256⟩) (by simp [lenFields]), h.and_not_masks⟩

/-! ### The tone word (R110) -/

/-- Rounding with ties up is adding half the divisor before the division (R17). -/
theorem roundDiv_eq (n d : Nat) : roundDiv n d = (n + d / 2) / d := by
  have hhalf : (2 * n + d) / 2 = n + d / 2 := by omega
  rw [roundDiv, ← Nat.div_div_eq_div_mul, hhalf]

/-- Settles O42: the product rounded by adding 50000; the bound is on that sum, the ties are `tone_tie`'s. -/
theorem toneWordIsTheRoundedProduct : Obligations.ToneWordIsTheRoundedProduct := by
  intro c b hnum hden
  have hround : ∀ b : Nat, roundDiv (b * c.kToneNum) c.kToneDen = (b * 1032444 + 50000) / 100000 := by
    intro b
    rw [hnum, hden, roundDiv_eq]
  have htone : ∀ b : Nat, toneWord c b = BitVec.ofNat 16 ((b * 1032444 + 50000) / 100000) := by
    intro b
    rw [toneWord, hround]
  refine ⟨htone b, ?_, ?_, tone_tie b⟩
  · rw [htone]
    rfl
  · rw [hround]
    omega

end Sys2Proof.Machine
end

section
/-! The pulse pair (R112, R182) as two writes in list order. -/

namespace Sys2Proof.Machine

/-- Writes touch nothing outside the link (R149). -/
theorem memWrites_sameOutsideLink (ws : List (RegAddr × Word)) (s : State) : sameOutsideLink s (memWrites ws s) := by
  have hK := Kept.memWrites ws s
  obtain ⟨htemplate, hmask, hseq, houtput⟩ := memWrites_outside ws s
  exact ⟨hK.cfg, hK.shadow, htemplate, hmask, hseq, hK.calls, houtput, hK.kind⟩

/-- Transactions append their bus events to the trace. -/
theorem Txns.busTrace {s t : State} {evs : List BusEvent} (h : Txns s t evs) : t.busTrace = s.busTrace ++ evs := by
  rw [State.busTrace, State.busTrace, h.bus, List.reverse_append, List.reverse_reverse]

/-- Settles O40: exec runs the two writes as one list, with the frame of any list of writes. -/
theorem pulseWriteIsTwoConsecutiveWrites : Obligations.PulseWriteIsTwoConsecutiveWrites := by
  intro s a base k hs
  have hq := hs.quiet
  obtain ⟨hacc, henv, _, _, _⟩ :=
    memWrites_frame hq [(a, base ||| (1#16 <<< k.val)), (a, base &&& ~~~(1#16 <<< k.val))]
  exact ⟨_, exec_pulseWrite hs.1 a base k, (Txns.writes hq _).busTrace, memWrites_linesIdle _ hs.linesIdle, hacc, henv,
    memWrites_sameOutsideLink _ s, (memWrites_cells hq _).mono (by simp)⟩

end Sys2Proof.Machine
end

section
/-! The primitives (R142 to R146): each statement is the primitive's closed form, read field by field. -/

namespace Sys2Proof.Machine

/-- The bits of a value in wire order, by their numbers (R72). -/
theorem bitsMsb_eq_map_getLsbD {w : Nat} (v : BitVec w) :
    bitsMsb v = (List.range w).map fun i => v.getLsbD (w - 1 - i) := by
  refine List.map_congr_left fun i hi => ?_
  rw [BitVec.getMsbD, decide_eq_true (List.mem_range.1 hi), Bool.true_and]

/-- A shift out by the bit numbers of its cells (R143, R144). -/
theorem shiftOutPins_eq_flatten {w : Nat} (v : BitVec w) :
    shiftOutPins v = ((List.range w).map fun i => outCellPins (v.getLsbD (w - 1 - i))).flatten := by
  rw [shiftOutPins, bitsMsb_eq_map_getLsbD, List.flatMap_map, List.flatMap_def]

/-- A shift in by the bit numbers of its samples (R145). -/
theorem shiftInPins_eq_flatten (v : Word) :
    shiftInPins v =
      .datDir .inp :: ((List.range 16).map fun i => inCellPins (v.getLsbD (15 - i))).flatten ++ [.datDir .out] := by
  rw [shiftInPins, bitsMsb_eq_map_getLsbD, List.flatMap_map, List.flatMap_def]

/-- A byte loaded into the top half of `SRO` is shifted out after eight cells, and the old low half is the top half (R36,
R143). -/
theorem append_setWidth_shiftLeft (b : Byte) (x : Word) : (b ++ x.setWidth 8 : BitVec 16) <<< 8 = x <<< 8 := by
  refine BitVec.eq_of_getLsbD_eq fun i hi => ?_
  have happ := BitVec.getLsbD_append (x := b) (y := x.setWidth 8) (i := i - 8)
  rw [if_pos (by omega)] at happ
  simp [happ, show i - 8 < 8 by omega]

/-- Pin events put in front of the newest-first trace extend the trace at its end (R140). -/
theorem pinTrace_of_pins {s t : State} {evs : List PinEvent} (h : t.pins = evs.reverse ++ s.pins) :
    t.pinTrace = s.pinTrace ++ evs := by
  rw [State.pinTrace, State.pinTrace, h, List.reverse_append, List.reverse_reverse]

/-- What pin events leave alone, and a move of `SEQ` after them. -/
theorem PinStep.samePastPrimitive {s t : State} (h : PinStep s t) (q : Seq) : samePastPrimitive s (moveSeq q t) :=
  ⟨h.cfg, h.shadow, h.template, h.mask, h.calls, h.bus, h.kind⟩

/-- The value a primitive gives the host is no part of that. -/
theorem samePastPrimitive.giveHost {s t : State} {q : Seq} (h : samePastPrimitive s (moveSeq q t)) (o : Output) :
    samePastPrimitive s (moveSeq q (giveHost o t)) := h

/-- Settles O14: the closed form of txnBegin. -/
theorem txnBeginSelectsWithClockLow : Obligations.TxnBeginSelectsWithClockLow := by
  intro s hl hq
  obtain ⟨hsel, _, hdat, hdir⟩ := hl
  refine ⟨_, exec_txnBegin (primitiveMayRun_iff.2 hq), ?_⟩
  have hsame := (PinStep.txnBegin s).samePastPrimitive .inTransaction
  rw [txnBegin_eq hsel] at hsame ⊢
  exact ⟨pinTrace_of_pins rfl, rfl, rfl, hdat, hdir, rfl, rfl, rfl, rfl, rfl, rfl, rfl, hsame⟩

/-- Settles O15: the closed form of shiftOut8, and the frame of eight clock pulses. -/
theorem shiftOut8SendsMsbFirst : Obligations.ShiftOut8SendsMsbFirst := by
  intro s b hs hq
  refine ⟨_, exec_shiftOut8 (primitiveMayRun_iff.2 hq) b, ?_⟩
  have hsame := (PinStep.shiftOut8 b s).samePastPrimitive .inTransaction
  rw [shiftOut8_eq b hs] at hsame ⊢
  obtain ⟨hsel, hclk, hdir⟩ := hs
  refine ⟨?_, hsel, hclk, rfl, hdir, rfl, append_setWidth_shiftLeft b s.sro, rfl, rfl, rfl, hsame,
    (edgeFrame_pulses s.cfg (bitsMsb b) s.peer s.env).cells⟩
  rw [pinTrace_of_pins (evs := shiftOutPins b) rfl, shiftOutPins_eq_flatten]
  rfl

/-- Settles O16: the closed form of shiftOut16, and the frame of sixteen clock pulses. -/
theorem shiftOut16SendsMsbFirst : Obligations.ShiftOut16SendsMsbFirst := by
  intro s w hs hq
  refine ⟨_, exec_shiftOut16 (primitiveMayRun_iff.2 hq) w, ?_⟩
  have hsame := (PinStep.shiftOut16 w s).samePastPrimitive .inTransaction
  rw [shiftOut16_eq w hs] at hsame ⊢
  obtain ⟨hsel, hclk, hdir⟩ := hs
  rw [← shiftOutPins_eq_flatten]
  exact ⟨pinTrace_of_pins rfl, hsel, hclk, rfl, hdir, rfl, rfl, rfl, rfl, rfl, hsame,
    (edgeFrame_pulses s.cfg (bitsMsb w) s.peer s.env).cells⟩

/-- With nobody on the line the word sampled is what the levels scripted for it say (R35, R89). -/
theorem sampleWord_absent_scripted {c : Cfg} {p : Peer} {e : Env} {v : Word} (hk : p.kind = .absent)
    (he : e.samples = bitsMsb v) : Peer.sampleWord c (p, e) = v := by
  rw [Peer.sampleWord, sampleCells_absent 16 e hk,
    drawBits_scripted 16 (he.trans (List.append_nil _).symm) (length_bitsMsb v), ofBitsMsb_bitsMsb]

/-- Settles O17: the closed form of shiftIn16, the frame of sixteen incoming cells, and scripted draws. -/
theorem shiftIn16ReturnsTheSamples : Obligations.ShiftIn16ReturnsTheSamples := by
  refine ⟨fun s hs hq => ⟨_, Peer.sampleWord s.cfg (s.peer, s.env), exec_shiftIn16 (primitiveMayRun_iff.2 hq), ?_⟩,
    fun s t v hs hk he h => ?_⟩
  · have hsame := ((PinStep.shiftIn16 s).samePastPrimitive .inTransaction).giveHost (.value (shiftIn16 s).acc)
    rw [shiftIn16_eq hs] at hsame ⊢
    obtain ⟨hsel, hclk, hdir⟩ := hs
    rw [← shiftInPins_eq_flatten]
    exact ⟨pinTrace_of_pins rfl, rfl, rfl, hsel, hclk, rfl, hdir, rfl, rfl, rfl, hsame,
      (edgeFrame_sampleCells s.cfg 16 s.peer s.env).cells⟩
  · obtain ⟨_, rfl⟩ := of_primitiveCall_next (run := fun s0 => giveHost (.value (shiftIn16 s0).acc) (shiftIn16 s0)) h
    rw [moveSeq_acc, giveHost_acc, shiftIn16_eq hs]
    exact sampleWord_absent_scripted hk he

/-- Settles O18: the closed form of txnEnd; the bank is what the peer's deselect leaves. -/
theorem txnEndLeavesIdleLines : Obligations.TxnEndLeavesIdleLines := by
  intro s hs hq
  obtain ⟨hsel, _, hdir⟩ := hs
  refine ⟨_, exec_txnEnd (primitiveMayRun_iff.2 hq), ?_⟩
  have hsame := (PinStep.txnEnd s).samePastPrimitive .idle
  have hidle := linesIdle_moveSeq .idle (txnEnd_linesIdle hdir)
  rw [txnEnd_eq hsel] at hsame hidle ⊢
  exact ⟨pinTrace_of_pins rfl, hidle, rfl, rfl, rfl, rfl, rfl, rfl, rfl, hsame⟩

/-- A primitive is a call of a primitive: it runs some change of the state and leaves `SEQ` at some rest (R148). -/
theorem exec_primitive {i : Instr} (h : isHostLevel i = false) :
    ∃ after run, ∀ s, exec i s = primitiveCall s after run := by
  cases i
  case txnBegin | shiftOut8 | shiftOut16 | shiftIn16 | txnEnd => exact ⟨_, _, fun _ => rfl⟩
  all_goals cases h

/-- Settles O19: a call of a primitive asks where `SEQ` stands and nothing else. -/
theorem primitivesRunUnlessPolling : Obligations.PrimitivesRunUnlessPolling := by
  intro i s hi
  obtain ⟨after, run, hrun⟩ := exec_primitive hi
  refine ⟨fun hq => ⟨_, (hrun s).trans (primitiveCall_next (primitiveMayRun_iff.2 hq) after run)⟩,
    fun hidle hopen => (hrun s).trans (primitiveCall_busy ?_ after run)⟩
  exact Bool.eq_false_of_not_eq_true fun hm => (primitiveMayRun_iff.1 hm).elim hidle hopen

end Sys2Proof.Machine
end

section
/-! The waveform of a transaction (R153, R292): what a stretch of bit cells is to each observer of the pins, and the
select and the deselect around it. -/

namespace Sys2Proof.Machine

/-- `p` is `n` bit cells, with the select asserted, the clock low at both ends and the direction `dir` throughout, and no
observer of R153 sees more of it than that. -/
structure BitCells (n : Nat) (dir : Dir) (p : List PinEvent) : Prop where
  selects   : ∀ rest, selectEvents (p ++ rest) = selectEvents rest
  clocks    : ∀ rest, selectedClocks true (p ++ rest) = (List.replicate n [true, false]).flatten ++ selectedClocks true rest
  stable    : ∀ rest, dataStable false true (p ++ rest) = dataStable false true rest
  direction : ∀ falls rest, directionOk falls (dir == .inp) (p ++ rest) = directionOk (falls + n) (dir == .inp) rest
  lines     : ∀ datOut, ∃ datOut', ∀ rest,
    linesAfter .asserted false datOut dir (p ++ rest) = linesAfter .asserted false datOut' dir rest

theorem BitCells.nil (dir : Dir) : BitCells 0 dir [] :=
  ⟨fun _ => rfl, fun _ => rfl, fun _ => rfl, fun _ _ => rfl, fun datOut => ⟨datOut, fun _ => rfl⟩⟩

theorem BitCells.append {m n : Nat} {dir : Dir} {p q : List PinEvent} (hp : BitCells m dir p) (hq : BitCells n dir q) :
    BitCells (m + n) dir (p ++ q) where
  selects rest := by rw [List.append_assoc, hp.selects, hq.selects]
  clocks rest := by
    rw [List.append_assoc, hp.clocks, hq.clocks, List.replicate_add, List.flatten_append, List.append_assoc]
  stable rest := by rw [List.append_assoc, hp.stable, hq.stable]
  direction falls rest := by rw [List.append_assoc, hp.direction, hq.direction, Nat.add_assoc]
  lines datOut := by
    obtain ⟨d, hd⟩ := hp.lines datOut
    obtain ⟨d', hd'⟩ := hq.lines d
    exact ⟨d', fun rest => by rw [List.append_assoc, hd, hd']⟩

theorem bitCells_outCellPins (b : Bool) : BitCells 1 .out (outCellPins b) :=
  ⟨fun _ => rfl, fun _ => rfl, fun _ => rfl, fun _ _ => rfl, fun _ => ⟨b, fun _ => rfl⟩⟩

theorem bitCells_inCellPins (b : Bool) : BitCells 1 .inp (inCellPins b) :=
  ⟨fun _ => rfl, fun _ => rfl, fun _ => rfl, fun _ _ => rfl, fun datOut => ⟨datOut, fun _ => rfl⟩⟩

/-- A cell for each bit of a list. -/
theorem BitCells.flatMap {dir : Dir} {cell : Bool → List PinEvent} (h : ∀ b, BitCells 1 dir (cell b)) (bits : List Bool) :
    BitCells bits.length dir (bits.flatMap cell) := by
  induction bits with
  | nil => exact .nil dir
  | cons b bits ih =>
    rw [List.flatMap_cons, List.length_cons, Nat.add_comm]
    exact (h b).append ih

/-- A shift out is as many outgoing cells as its value has bits (R143, R144). -/
theorem bitCells_shiftOutPins {w : Nat} (v : BitVec w) : BitCells w .out (shiftOutPins v) := by
  simpa only [length_bitsMsb, shiftOutPins] using BitCells.flatMap bitCells_outCellPins (bitsMsb v)

/-- The samples of a shift in are sixteen incoming cells (R145). -/
theorem bitCells_samples (v : Word) : BitCells 16 .inp ((bitsMsb v).flatMap inCellPins) := by
  simpa only [length_bitsMsb] using BitCells.flatMap bitCells_inCellPins (bitsMsb v)

/-- The waveform facts of R153 for one pin trace. -/
def waveformOk (p : List PinEvent) : Prop :=
  selectEvents p = [.asserted, .deasserted] ∧
  selectedClocks false p = (List.replicate 24 [true, false]).flatten ∧
  dataStable true true p = true ∧ directionOk 0 false p = true ∧
  linesAfter .deasserted true true .out p = (.deasserted, true, true, .out)

/-- 24 outgoing cells between a select and a deselect. -/
theorem BitCells.waveformOk_out {p : List PinEvent} (h : BitCells 24 .out p) : waveformOk (beginPins ++ p ++ endPins) := by
  obtain ⟨datOut, hlines⟩ := h.lines true
  rw [List.append_assoc]
  exact ⟨congrArg (List.cons Select.asserted) (h.selects endPins), h.clocks _, h.stable _, h.direction 0 _, hlines _⟩

/-- Eight outgoing cells and sixteen incoming ones, the direction in around the latter. -/
theorem BitCells.waveformOk_inp {p q : List PinEvent} (hp : BitCells 8 .out p) (hq : BitCells 16 .inp q) :
    waveformOk (beginPins ++ p ++ (.datDir .inp :: q ++ [.datDir .out]) ++ endPins) := by
  obtain ⟨datOut, hcmd⟩ := hp.lines true
  obtain ⟨datOut', hdata⟩ := hq.lines datOut
  rw [List.append_assoc, List.append_assoc, List.append_assoc]
  exact ⟨congrArg (List.cons Select.asserted) ((hp.selects _).trans (hq.selects (.datDir .out :: endPins))),
    (hp.clocks _).trans (congrArg ((List.replicate 8 [true, false]).flatten ++ ·) (hq.clocks _)),
    (hp.stable _).trans (hq.stable _), (hp.direction 0 _).trans (hq.direction 8 _), (hcmd _).trans (hdata _)⟩

/-- A write is the command and the data, 24 outgoing cells (R149). -/
theorem waveformOk_writePins (a : RegAddr) (v : Word) : waveformOk (writePins a v) := by
  rw [writePins, List.append_assoc beginPins]
  exact ((bitCells_shiftOutPins (writeCommand a)).append (bitCells_shiftOutPins v)).waveformOk_out

/-- A read is the command, eight outgoing cells, and the data, sixteen incoming ones (R150). -/
theorem waveformOk_readPins (flag : Byte) (a : RegAddr) (v : Word) : waveformOk (readPins flag a v) :=
  (bitCells_shiftOutPins (readCommand flag a)).waveformOk_inp (bitCells_samples v)

/-- Settles O23: a transaction is bit cells between a select and a deselect, whichever of the two it is. -/
theorem waveformFacts : Obligations.WaveformFacts := by
  intro flag e
  cases e with
  | write a v => exact waveformOk_writePins a v
  | read a v => exact waveformOk_readPins flag a v

theorem timeUnits_append (p q : List PinEvent) : timeUnits (p ++ q) = timeUnits p + timeUnits q := by
  induction p with
  | nil => exact (Nat.zero_add _).symm
  | cons x p ih => cases x <;> simp [timeUnits, ih, Nat.add_assoc]

/-- Cells that each take the same number of events and of units take that many times their number. -/
theorem cells_size {cell : Bool → List PinEvent} {k n : Nat} (hk : ∀ b, (cell b).length = k)
    (hn : ∀ b, timeUnits (cell b) = n) (bits : List Bool) :
    (bits.flatMap cell).length = k * bits.length ∧ timeUnits (bits.flatMap cell) = n * bits.length := by
  induction bits with
  | nil => exact ⟨rfl, rfl⟩
  | cons b bits ih =>
    obtain ⟨hlength, hunits⟩ := ih
    rw [List.flatMap_cons, List.length_append, timeUnits_append, hlength, hunits, hk, hn, List.length_cons]
    constructor <;> ring

/-- An outgoing cell is six events and three units (R104). -/
theorem shiftOutPins_size {w : Nat} (v : BitVec w) :
    (shiftOutPins v).length = 6 * w ∧ timeUnits (shiftOutPins v) = 3 * w := by
  have h := cells_size (cell := outCellPins) (fun _ => rfl) (fun _ => rfl) (bitsMsb v)
  rwa [length_bitsMsb] at h

/-- An incoming cell is five events and two units, and a shift in turns the direction twice (R105, R145). -/
theorem shiftInPins_size (v : Word) : (shiftInPins v).length = 82 ∧ timeUnits (shiftInPins v) = 32 := by
  obtain ⟨hlength, hunits⟩ := cells_size (cell := inCellPins) (fun _ => rfl) (fun _ => rfl) (bitsMsb v)
  rw [length_bitsMsb] at hlength hunits
  simp [shiftInPins, hlength, hunits, timeUnits, timeUnits_append]

/-- Settles O22: the sizes of the shifts and of the ends add up, and the clock pulses are those of the waveform. -/
theorem transactionSizes : Obligations.TransactionSizes := by
  refine ⟨fun a v => ?_, fun flag a v => ?_⟩
  · obtain ⟨_, hclocks, _⟩ := waveformOk_writePins a v
    obtain ⟨hlcmd, hucmd⟩ := shiftOutPins_size (writeCommand a)
    obtain ⟨hldata, hudata⟩ := shiftOutPins_size v
    rw [hclocks]
    simp only [writePins, List.length_append, timeUnits_append, hlcmd, hucmd, hldata, hudata]
    exact ⟨rfl, rfl, rfl⟩
  · obtain ⟨_, hclocks, _⟩ := waveformOk_readPins flag a v
    obtain ⟨hlcmd, hucmd⟩ := shiftOutPins_size (readCommand flag a)
    obtain ⟨hldata, hudata⟩ := shiftInPins_size v
    rw [hclocks]
    simp only [readPins, List.length_append, timeUnits_append, hlcmd, hucmd, hldata, hudata]
    exact ⟨rfl, rfl, rfl⟩

end Sys2Proof.Machine
end

section
/-! The two transactions as the host's calls (R149, R150), and the refinement of the bus trace by the pin trace (R152):
every host-level call is a sequence of transactions. -/

namespace Sys2Proof.Machine

/-- Transactions extend the pin trace by their pins. -/
theorem Txns.pinTrace {s t : State} {evs : List BusEvent} (h : Txns s t evs) :
    t.pinTrace = s.pinTrace ++ evs.flatMap (BusEvent.pins s.cfg.readFlag) := by
  rw [State.pinTrace, State.pinTrace, h.pins, List.reverse_append, List.reverse_reverse]

/-- Settles O20: exec runs one write transaction, and the closed form gives its registers. -/
theorem writeRegisterIsOneWriteTransaction : Obligations.WriteRegisterIsOneWriteTransaction := by
  intro s a v hs
  have hq := hs.quiet
  have hT := Txns.write hq a v
  have hpins := hT.pinTrace
  rw [List.flatMap_singleton] at hpins
  have hclosed := memWrite_quiet a v hq
  obtain ⟨hacc, henv, _⟩ := memWrites_frame hq [(a, v)]
  exact ⟨_, exec_writeRegister hs.1 a v, hT.busTrace, hpins, hT.quiet.1, congrArg State.sro hclosed,
    congrArg State.bitcnt hclosed, hacc, henv, memWrites_sameOutsideLink [(a, v)] s, memWrite_bank hq a v⟩

/-- Settles O21: exec runs one read transaction and gives the host what it left in `ACC`. -/
theorem readRegisterIsOneReadTransaction : Obligations.ReadRegisterIsOneReadTransaction := by
  intro s a hs
  have hq := hs.quiet
  refine ⟨_, (memRead a s).acc, exec_readRegister hs.1 a, ?_⟩
  have hT := (Txns.read hq a).giveHost (.value (memRead a s).acc)
  have hpins := hT.pinTrace
  rw [List.flatMap_singleton] at hpins
  obtain ⟨htemplate, hmask, hseq, hout⟩ := memRead_outside a s
  have hbank := memRead_bank hq a
  have hanswer (hk : s.peer.kind ≠ .absent) :
      (memRead a s).acc = (answerRead s.cfg s.peer.kind s.peer.cells a s.env).1 := by
    rw [memRead_acc hq, readValue, if_neg hk]
  generalize memRead a s = r at *
  refine ⟨hT.busTrace, hpins, rfl, ?_, hT.quiet.1, hT.cfg, hT.shadow, htemplate, hmask, hseq.trans hs.1, hT.calls,
    hanswer, hbank⟩
  rw [State.outputTrace, giveHost_output, List.reverse_cons, hout, State.outputTrace]

/-! ### Every host-level call is a sequence of transactions (R152) -/

/-- `t` follows `s` by some bus events, whose pins the pin trace grew by, and which SimBank answers by its cells (R86). -/
def PinsRefineBus (s t : State) : Prop :=
  ∃ evs : List BusEvent,
    t.busTrace = s.busTrace ++ evs ∧ t.pinTrace = s.pinTrace ++ evs.flatMap (BusEvent.pins s.cfg.readFlag) ∧
    (s.peer.kind = .simBank → s.env.answers = [] →
      t.peer.cells = bankAfter s.peer.cells evs ∧ bankAnswers s.peer.cells evs)

theorem Txns.refines {s t : State} {evs : List BusEvent} (h : Txns s t evs) : PinsRefineBus s t :=
  ⟨evs, h.busTrace, h.pinTrace, fun hk ha => (h.bank hk ha).2⟩

/-- The reads of a dump are transactions (R185). -/
theorem Txns.dumpAll {s : State} (h : s.quiet) (as : List RegAddr) : ∃ evs, Txns s (dumpAll as s) evs := by
  induction as generalizing s with
  | nil => exact ⟨[], .refl h⟩
  | cons a as ih =>
    have h1 := (Txns.read h a).giveHost (.pair a (memRead a s).acc)
    obtain ⟨evs, h2⟩ := ih h1.quiet
    exact ⟨_, h1.trans h2⟩

/-- After a poll there are the transactions of step 8 or none, and `SEQ` moves (R218, R219). -/
theorem afterPoll_txns (polls : Nat) {s : State} (h : s.quiet) :
    ∃ q u evs, afterPoll polls s = moveSeq q u ∧ Txns s u evs := by
  unfold afterPoll
  split
  · exact ⟨_, _, _, rfl, .writes h _⟩
  · exact ⟨_, _, _, rfl, .refl h⟩

/-- An accepted transmit up to its first poll, and step 8 if that poll ends it (R221). -/
theorem refines_transmit {payload : List Byte} {s t : State} (hs : s.quiet)
    (h : pollStatus 0 (startTransmit payload s) = .next t) : PinsRefineBus s t := by
  obtain ⟨_, hstart, _⟩ := startTransmit_spec payload hs
  have hread := Txns.read hstart.quiet (startTransmit payload s).cfg.addrStatus
  obtain ⟨q, u, evs, hmove, hend⟩ := afterPoll_txns 0 hread.quiet
  obtain rfl := (of_pollStatus_next h).trans hmove
  exact ((hstart.trans hread).trans hend).refines

/-- A host-level call that answers is its transactions: the shadow before them and the outputs and `SEQ` after them are
on no trace of the bus. -/
theorem exec_refines {i : Instr} {s t : State} (hs : s.quiet) (hi : isHostLevel i = true) (h : exec i s = .next t) :
    PinsRefineBus s t := by
  cases i
  case txnBegin | shiftOut8 | shiftOut16 | shiftIn16 | txnEnd => cases hi
  case writeRegister | regWrite =>
    simp only [exec, execWriteRegister, execRegWrite] at h
    obtain ⟨a, _, h⟩ := of_withOperand_next (of_hostCall_next h).2
    obtain ⟨v, _, h⟩ := of_withOperand_next h
    obtain rfl := Host.Outcome.next.inj h
    exact (Txns.write hs a v).refines
  case readRegister | regRead =>
    simp only [exec, execReadRegister, execRegRead] at h
    obtain ⟨a, _, h⟩ := of_withOperand_next (of_hostCall_next h).2
    obtain rfl := Host.Outcome.next.inj h
    exact ((Txns.read hs a).giveHost _).refines
  case setOutputPin p x =>
    simp only [exec, execSetOutputPin] at h
    obtain ⟨b, _, h⟩ := of_withOperand_next (of_hostCall_next h).2
    obtain rfl := Host.Outcome.next.inj h
    have hu : (updateShadow b x s).quiet := hs
    exact (Txns.write hu s.cfg.addrGpioOut (updateShadow b x s).gpioShadow).refines
  case pulseWrite =>
    simp only [exec, execPulseWrite] at h
    obtain ⟨a, _, h⟩ := of_withOperand_next (of_hostCall_next h).2
    obtain ⟨v, _, h⟩ := of_withOperand_next h
    obtain ⟨f, _, h⟩ := of_withOperand_next h
    obtain rfl := Host.Outcome.next.inj h
    exact (Txns.writes hs [(a, v ||| f), (a, v &&& ~~~f)]).refines
  case readRegisterDiagnosticDump =>
    simp only [exec, execReadRegisterDiagnosticDump] at h
    obtain ⟨as, _, h⟩ := of_withOperand_next (of_hostCall_next h).2
    obtain rfl := Host.Outcome.next.inj h
    obtain ⟨_, hT⟩ := Txns.dumpAll hs as
    exact hT.refines
  case configure ps =>
    simp only [exec, execConfigure] at h
    obtain ⟨_, h⟩ := of_hostCall_next h
    obtain rfl := Host.Outcome.next.inj h
    exact (Txns.writes hs (configureWrites s.cfg ps)).refines
  case transmit p payload =>
    rw [exec_transmit_eq] at h
    obtain ⟨_, h⟩ := of_hostCall_next h
    split at h
    · exact refines_transmit hs h
    · obtain rfl := Host.Outcome.next.inj h
      exact (Txns.refl hs).refines

/-- The pins of transactions, one after another, abstract to their bus events (R126, R152). -/
theorem busOfPins_flatMap_pins {flag : Byte} (hf : flag = 0x80) (evs : List BusEvent) :
    busOfPins none (evs.flatMap (BusEvent.pins flag)) = evs := by
  induction evs with
  | nil => rfl
  | cons e evs ih => rw [List.flatMap_cons, busOfPins_pins hf, ih]

/-- Settles O35: the call is its transactions, and their pins abstract to them. -/
theorem pinTraceRefinesBusTrace : Obligations.PinTraceRefinesBusTrace := by
  intro i s t hs hi h
  obtain ⟨evs, hbus, hpins, hbank⟩ := exec_refines hs.quiet hi h
  exact ⟨evs, hbus, hpins, busOfPins_flatMap_pins (readFlag_of_wf hs.quiet.2.2) evs, hbank⟩

end Sys2Proof.Machine
end

section
/-! The shadow of the output register (R170 to R174): what two updates make of it, and what setOutputPin does with it as
the host's call. -/

namespace Sys2Proof.Machine

/-! ### Two updates of the shadow (R111, R174) -/

/-- Updates of two bits commute. -/
theorem shadowWith_comm (w : Word) {b d : Fin 16} (x y : Bool) (h : b.val ≠ d.val) :
    shadowWith (shadowWith w b x) d y = shadowWith (shadowWith w d y) b x := by
  apply BitVec.eq_of_getLsbD_eq
  intro i hi
  simp only [getLsbD_shadowWith _ _ _ hi]
  split_ifs with hd hb
  · exact absurd (hb.symm.trans hd) h
  all_goals rfl

/-- Of two updates of one bit the later wins. -/
theorem shadowWith_shadowWith_same (w : Word) (b : Fin 16) (x y : Bool) :
    shadowWith (shadowWith w b x) b y = shadowWith w b y := by
  apply BitVec.eq_of_getLsbD_eq
  intro i hi
  simp only [getLsbD_shadowWith _ _ _ hi]
  split_ifs <;> rfl

/-- A well-formed `PIN_BIT` gives a bit to one pin alone (R8, R171). -/
theorem pinBit_lookup_inj {c : Cfg} (hc : c.wf = true) {p q : Nat} {b : Fin 16} (hp : c.pinBit.lookup p = some b)
    (hq : c.pinBit.lookup q = some b) : p = q := by
  have hnodup : (c.pinBit.map Prod.snd).Nodup := by
    simp only [Cfg.wf, Bool.and_eq_true, decide_eq_true_eq] at hc
    tauto
  have hmem {k : Nat} (hk : c.pinBit.lookup k = some b) : (k, b) ∈ c.pinBit := by
    obtain ⟨l₁, l₂, hl, _⟩ := List.lookup_eq_some_iff.1 hk
    simp [hl]
  exact congrArg Prod.fst (List.inj_on_of_nodup_map hnodup (hmem hp) (hmem hq) rfl)

/-! ### setOutputPin as a call (R170, R172) -/

/-- From an idle sequencer setOutputPin completes: the shadow is updated and written whole, and BBSL is idle again. -/
theorem exec_setOutputPin_next {s : State} (hi : s.seq = .idle) {p : Nat} {b : Fin 16}
    (hp : s.cfg.pinBit.lookup p = some b) (x : Bool) :
    ∃ t, exec (.setOutputPin p x) s = .next t ∧ t.gpioShadow = shadowWith s.gpioShadow b x ∧
      t.cfg = s.cfg ∧ t.seq = .idle ∧ t.busTrace = s.busTrace ++ [.write s.cfg.addrGpioOut t.gpioShadow] := by
  have h := exec_setOutputPin hi hp x
  have hK := Kept.memWrite s.cfg.addrGpioOut (shadowWith s.gpioShadow b x) (updateShadow b x s)
  obtain ⟨_, _, hseq, _⟩ := memWrite_outside s.cfg.addrGpioOut (shadowWith s.gpioShadow b x) (updateShadow b x s)
  exact ⟨_, h, hK.shadow, hK.cfg, hseq.trans hi, exec_setOutputPin_busTrace h⟩

/-- Two calls of setOutputPin, one after the other: the two updates, and a write of the shadow after each. -/
theorem exec_setOutputPin_twice {s : State} (hi : s.seq = .idle) {p q : Nat} {b d : Fin 16}
    (hp : s.cfg.pinBit.lookup p = some b) (hq : s.cfg.pinBit.lookup q = some d) (x y : Bool) :
    ∃ t u, exec (.setOutputPin p x) s = .next t ∧ exec (.setOutputPin q y) t = .next u ∧
      t.gpioShadow = shadowWith s.gpioShadow b x ∧ u.gpioShadow = shadowWith (shadowWith s.gpioShadow b x) d y ∧
      u.busTrace =
        s.busTrace ++ [.write s.cfg.addrGpioOut t.gpioShadow, .write s.cfg.addrGpioOut u.gpioShadow] := by
  obtain ⟨t, ht, hshadow, hcfg, hidle, hbus⟩ := exec_setOutputPin_next hi hp x
  obtain ⟨u, hu, hshadow', _, _, hbus'⟩ := exec_setOutputPin_next hidle (hcfg.symm ▸ hq) y
  refine ⟨t, u, ht, hu, hshadow, hshadow ▸ hshadow', ?_⟩
  rw [hbus', hbus, hcfg, List.append_assoc, List.singleton_append]

/-- Settles O36: the call is one write transaction after the update, with the frame of a write. -/
theorem setOutputPinWritesTheUpdatedShadow : Obligations.SetOutputPinWritesTheUpdatedShadow := by
  intro s p b x hs hp
  have hq : (updateShadow b x s).quiet := hs.quiet
  obtain ⟨t, ht, hshadow, hcfg, hidle, hbus⟩ := exec_setOutputPin_next hs.1 hp x
  obtain rfl := Host.Outcome.next.inj ((exec_setOutputPin hs.1 hp x).symm.trans ht)
  obtain ⟨_, _, htemplate, hmask, _, hcalls, houtput, _⟩ :=
    memWrites_sameOutsideLink [(s.cfg.addrGpioOut, shadowWith s.gpioShadow b x)] (updateShadow b x s)
  obtain ⟨hacc, henv, _⟩ := memWrites_frame hq [(s.cfg.addrGpioOut, shadowWith s.gpioShadow b x)]
  have hbank := memWrite_bank hq s.cfg.addrGpioOut (shadowWith s.gpioShadow b x)
  refine ⟨_, ht, hshadow, hbus, fun i hi => ?_, hcfg, htemplate, hmask, hidle, hcalls, houtput, hacc, henv,
    (Txns.write hq _ _).quiet.1, ?_⟩
  · rw [hshadow, getLsbD_shadowWith _ _ _ hi]
  · rw [hshadow]
    exact hbank

/-- Settles O37: two pins are two bits, whose updates commute, and of one bit the later update wins. -/
theorem disjointPinsCommute : Obligations.DisjointPinsCommute := by
  intro s p q b d x y hs hp hq
  obtain ⟨t1, t2, ht1, ht2, _, hst, hbt⟩ := exec_setOutputPin_twice hs.1 hp hq x y
  obtain ⟨u1, u2, hu1, hu2, hsu1, hsu, hbu⟩ := exec_setOutputPin_twice hs.1 hq hp y x
  refine ⟨t1, t2, u1, u2, ht1, ht2, hu1, hu2, hbt, hbu, fun hne => ?_, ?_⟩
  · have hbd : b.val ≠ d.val := fun h => hne (pinBit_lookup_inj hs.2.1 hp (Fin.ext h ▸ hq))
    have hbit {i : Nat} (hi : i < 16) : t2.gpioShadow.getLsbD i =
        if i = d.val then y else if i = b.val then x else s.gpioShadow.getLsbD i := by
      rw [hst, getLsbD_shadowWith _ _ _ hi, getLsbD_shadowWith _ _ _ hi]
    refine ⟨?_, ?_, ?_, fun i hi hib hid => ?_⟩
    · rw [hst, hsu, shadowWith_comm _ x y hbd]
    · rw [hbit b.isLt, if_neg hbd, if_pos rfl]
    · rw [hbit d.isLt, if_pos rfl]
    · rw [hbit hi, if_neg hid, if_neg hib]
  · rintro rfl
    obtain rfl : b = d := Option.some.inj (hp.symm.trans hq)
    rw [hst, hsu1, shadowWith_shadowWith_same]

/-- Settles O38: a write touches nothing outside the link, so the next call updates and writes the shadow as it was. -/
theorem directWriteLeavesTheShadow : Obligations.DirectWriteLeavesTheShadow := by
  intro s v p b x hs hp
  have hT := Txns.write hs.quiet s.cfg.addrGpioOut v
  obtain ⟨u, hu, hshadow, _, _, hbus⟩ := exec_setOutputPin_next (hT.seq.trans hs.1) (hT.cfg.symm ▸ hp) x
  refine ⟨_, u, exec_writeRegister hs.1 _ v, hT.shadow, hu, ?_⟩
  rw [hbus, hshadow, hT.shadow, hT.cfg, hT.busTrace, List.append_assoc, List.singleton_append]

end Sys2Proof.Machine
end

section
/-! Register Access (R180 to R185): the pass-through names as the link's two operations, what makes the contract chip
forget its registers, and the diagnostic dump as a sequence of reads. -/

namespace Sys2Proof.Machine

/-! ### The pass-through names (R180) -/

/-- Settles O24: each pass-through name has the operation's own meaning, `hostCall` and operand checks included. -/
theorem passThroughNamesAreTheOperations : Obligations.PassThroughNamesAreTheOperations :=
  fun _ _ _ => ⟨rfl, rfl⟩

/-- Settles O25: by O24 the calls are writeRegister and readRegister, which O20 and O21 say are one transaction each. -/
theorem passThroughNamesComplete : Obligations.PassThroughNamesComplete := by
  intro s a v hs
  obtain ⟨hw, hr⟩ := passThroughNamesAreTheOperations a.toNat v.toNat s
  obtain ⟨t, ht, htbus, _⟩ := writeRegisterIsOneWriteTransaction s a v hs
  obtain ⟨u, w, hu, hubus, _, _, huout, _⟩ := readRegisterIsOneReadTransaction s a hs
  exact ⟨⟨t, hw.trans ht, htbus⟩, ⟨u, w, hr.trans hu, hubus, huout⟩⟩

/-! ### What makes the contract chip forget (R64, R80, R184; entry 10) -/

/-- A well-formed soft-reset flag is one bit of the word (R8). -/
theorem softResetFlag_of_wf {c : Cfg} (h : c.wf = true) : ∃ k : Fin 16, c.softResetFlag = 1#16 <<< k.val := by
  have hhot : isOneHot c.softResetFlag = true := by
    simp only [Cfg.wf, Bool.and_eq_true] at h
    tauto
  obtain ⟨i, hi, hf⟩ := List.any_eq_true.1 hhot
  exact ⟨⟨i, List.mem_range.1 hi⟩, beq_iff_eq.1 hf⟩

/-- One bit of a word as a number, and that it is not zero. -/
theorem toNat_oneHot (k : Fin 16) : (1#16 <<< k.val).toNat = 2 ^ k.val ∧ 1#16 <<< k.val ≠ 0#16 := by
  revert k; decide

/-- A write that sets the soft-reset flag is a soft reset (R184). -/
theorem isSoftReset_or_flag {c : Cfg} (h : c.softResetFlag ≠ 0#16) (v : Word) :
    isSoftReset c c.addrSoftReset (v ||| c.softResetFlag) = true := by
  have hflag : (v ||| c.softResetFlag) &&& c.softResetFlag = c.softResetFlag := by
    ext i
    cases hi : c.softResetFlag[i] <;> simp [hi]
  simp [isSoftReset, hflag, h]

/-- The contract chip forgets at a soft reset (R184). -/
theorem commitWrite_chip_softReset {c : Cfg} {a : RegAddr} {v : Word} (h : isSoftReset c a v = true) (m : Memory) :
    commitWrite c .chip m a v = [] := by
  simp [commitWrite, h]

/-- The contract chip forgets at a write to an address without a role (R64). -/
theorem commitWrite_chip_noRole {c : Cfg} {a : RegAddr} (h : hasRole c a = false) (m : Memory) (v : Word) :
    commitWrite c .chip m a v = [] := by
  simp [commitWrite, h]

/-- The contract chip forgets at a read of an address without a role (R80). -/
theorem commitRead_chip_noRole {c : Cfg} {a : RegAddr} (h : hasRole c a = false) (m : Memory) :
    commitRead c .chip m a = [] := by
  simp [commitRead, h]

/-- A write to the soft-reset register stores nothing (R87), so what was forgotten stays forgotten. -/
theorem commitWrite_chip_addrSoftReset_nil (c : Cfg) (v : Word) : commitWrite c .chip [] c.addrSoftReset v = [] := by
  simp [commitWrite, plainMask, notPlainAddrs]

/-- The soft-reset pulse leaves no register of the contract chip known: its first write resets the chip and its second
stores nothing (R182, R184). -/
theorem softResetPulse_bank {s : State} (h : s.quiet) (hk : s.peer.kind = .chip) (hf : s.cfg.softResetFlag ≠ 0#16)
    (v w : Word) :
    (memWrites [(s.cfg.addrSoftReset, v ||| s.cfg.softResetFlag), (s.cfg.addrSoftReset, w)] s).peer.cells = [] := by
  have hT := Txns.write h s.cfg.addrSoftReset (v ||| s.cfg.softResetFlag)
  have hforgot : (memWrite s.cfg.addrSoftReset (v ||| s.cfg.softResetFlag) s).peer.cells = [] := by
    rw [memWrite_bank h, hk, commitWrite_chip_softReset (isSoftReset_or_flag hf v)]
  rw [memWrites, memWrites, memWrites, memWrite_bank hT.quiet, hT.cfg, hT.kind, hk, hforgot,
    commitWrite_chip_addrSoftReset_nil]

/-- Settles O34: the soft-reset flag is one-hot, so the pulse runs and resets the chip; the other two actions are single
transactions at an address without a role. -/
theorem undescribedActionsForgetTheBank : Obligations.UndescribedActionsForgetTheBank := by
  intro s base v a hs hk
  have hq := hs.quiet
  refine ⟨?_, fun hrole => ⟨⟨_, exec_writeRegister hs.1 a v, ?_⟩, ⟨_, exec_readRegister hs.1 a, ?_⟩⟩⟩
  · obtain ⟨k, hflag⟩ := softResetFlag_of_wf hq.2.2
    obtain ⟨hnat, hne⟩ := toNat_oneHot k
    have hrun := exec_pulseWrite hs.1 s.cfg.addrSoftReset base k
    rw [← hnat, ← hflag] at hrun
    exact ⟨_, hrun, softResetPulse_bank hq hk (hflag ▸ hne) base _, (Kept.memWrites _ s).shadow⟩
  · rw [memWrite_bank hq, hk, commitWrite_chip_noRole hrole]
  · rw [giveHost_peer, memRead_bank hq, hk, commitRead_chip_noRole hrole]

/-! ### The dump (R185) -/

/-- A dump of a list of addresses is one read for each, in list order, and the host is given each address with the word
its read answered. -/
theorem dumpAll_reads {s : State} (h : s.quiet) (as : List RegAddr) :
    ∃ vs : List Word, vs.length = as.length ∧ Txns s (dumpAll as s) (List.zipWith .read as vs) ∧
      (dumpAll as s).outputTrace = s.outputTrace ++ List.zipWith .pair as vs ∧
      cellFrame s.peer.kind [] s.peer.cells (dumpAll as s).peer.cells := by
  induction as generalizing s with
  | nil => exact ⟨[], rfl, .refl h, (List.append_nil _).symm, .refl _ _ _⟩
  | cons a as ih =>
    have hread : Txns s (dumpOne a s) [.read a (memRead a s).acc] := (Txns.read h a).giveHost _
    have hout : (dumpOne a s).outputTrace = s.outputTrace ++ [.pair a (memRead a s).acc] := by
      rw [State.outputTrace, dumpOne, giveHost_output, List.reverse_cons, (Sent.read h a).output, State.outputTrace]
    have hcells : cellFrame s.peer.kind [] s.peer.cells (dumpOne a s).peer.cells := memRead_cells h a
    obtain ⟨vs, hlen, hreads, houts, hframe⟩ := ih hread.quiet
    rw [hread.kind] at hframe
    refine ⟨(memRead a s).acc :: vs, congrArg (· + 1) hlen, hread.trans hreads, ?_, hcells.trans hframe⟩
    rw [dumpAll, houts, hout, List.append_assoc, List.singleton_append, List.zipWith_cons_cons]

/-- The addresses of a range beside as many words: the words numbered from the range's first address. -/
theorem zipWith_addressRange {α : Type} (f : RegAddr → Word → α) {lo hi : Nat} {vs : List Word}
    (h : vs.length = hi + 1 - lo) :
    List.zipWith f (addressRange lo hi) vs = (vs.zipIdx lo).map fun x => f (BitVec.ofNat 7 x.2) x.1 := by
  rw [addressRange, ← h, List.zipIdx_eq_zip_range', List.map_zip_eq_zipWith, List.zipWith_map_left, List.zipWith_comm]
  rfl

theorem length_addressRange (lo hi : Nat) : (addressRange lo hi).length = hi + 1 - lo := by
  rw [addressRange, List.length_map, List.length_range']

/-- Settles O41: the call is a dump of the range's addresses, one read and one pair for each. -/
theorem dumpReadsTheRangeAscending : Obligations.DumpReadsTheRangeAscending := by
  intro s lo hi hs hle hhi
  obtain ⟨vs, hlen, hT, hout, hcells⟩ := dumpAll_reads hs.quiet (addressRange lo hi)
  rw [length_addressRange] at hlen
  have hbus := hT.busTrace
  rw [zipWith_addressRange _ hlen] at hbus hout
  obtain ⟨htemplate, hmask, _⟩ := dumpAll_outside (addressRange lo hi) s
  exact ⟨_, vs, exec_dump hs.1 hle hhi, by omega, hbus, hout, hT.quiet.1, hT.cfg, hT.shadow, htemplate, hmask,
    hT.seq.trans hs.1, hT.calls, hcells⟩

end Sys2Proof.Machine
end

section
/-! configure (R190, R196): its writes as bus events, and what a list of writes leaves in a SimBank (R86): each register
holds the last value written to it, so that the same list written again changes nothing (R198). -/

namespace Sys2Proof.Machine

/-! ### The last write of a trace -/

/-- The value before a trace is seen only where the trace does not write. -/
theorem lastWrite_eq_or (a : RegAddr) (o : Option Word) (evs : List BusEvent) :
    lastWrite a o evs = (lastWrite a none evs).or o := by
  induction evs generalizing o with
  | nil => rfl
  | cons e evs ih =>
    cases e with
    | write b v =>
      by_cases hb : b = a
      · simp only [lastWrite, if_pos hb]
        rw [ih (some v), Option.or_assoc, Option.some_or]
      · simpa only [lastWrite, if_neg hb] using ih o
    | read b v => exact ih o

/-- A trace seen twice leaves the last write of seeing it once. -/
theorem lastWrite_lastWrite_same (a : RegAddr) (o : Option Word) (evs : List BusEvent) :
    lastWrite a (lastWrite a o evs) evs = lastWrite a o evs := by
  rw [lastWrite_eq_or a (lastWrite a o evs), lastWrite_eq_or a o, ← Option.or_assoc, Option.or_self]

/-- Among writes to distinct addresses each one is the last to its own. -/
theorem lastWrite_of_mem {ws : List (RegAddr × Word)} (hn : (ws.map Prod.fst).Nodup) {a : RegAddr} {v : Word}
    (h : (a, v) ∈ ws) (o : Option Word) : lastWrite a o (ws.map fun w => .write w.1 w.2) = some v := by
  induction ws generalizing o with
  | nil => exact absurd h List.not_mem_nil
  | cons w ws ih =>
    obtain ⟨hw, hn⟩ := List.nodup_cons.1 hn
    rw [List.map_cons, lastWrite]
    obtain rfl | h := List.mem_cons.1 h
    · rw [if_pos rfl]
      exact lastWrite_of_notMem (by simpa using hw) _
    · exact ih hn h _

theorem readCount_writes (ws : List (RegAddr × Word)) : readCount (ws.map fun w => .write w.1 w.2) = 0 := by
  induction ws with
  | nil => rfl
  | cons w ws ih => exact ih

/-! ### Writes to a SimBank (R86) -/

/-- After writes in list order a SimBank register holds the last value written to it, or what it held. -/
theorem memWrites_read_simBank {s : State} (h : s.quiet) (hk : s.peer.kind = .simBank) (ws : List (RegAddr × Word))
    (a : RegAddr) : (memWrites ws s).peer.cells.read a.toNat =
      lastWrite a (s.peer.cells.read a.toNat) (ws.map fun w => .write w.1 w.2) := by
  induction ws generalizing s with
  | nil => rfl
  | cons w ws ih =>
    obtain ⟨b, v⟩ := w
    have hT := Txns.write h b v
    have hcell : (memWrite b v s).peer.cells.read a.toNat = if b = a then some v else s.peer.cells.read a.toNat := by
      rw [memWrite_bank_simBank h hk]
      split
      case isTrue hb => rw [hb, Memory.read_write_same]
      case isFalse hb => exact sameCellsExcept_write _ b v a fun ha => hb (List.mem_singleton.1 ha).symm
    rw [memWrites, ih hT.quiet (hT.kind.trans hk), hcell, List.map_cons, lastWrite]

/-- Only the contract chip forgets (entry 10): under any other peer the bank's frame is exact. -/
theorem cellFrame.sameCellsExcept {k : PeerKind} {as : List RegAddr} {m m' : Memory} (h : cellFrame k as m m')
    (hk : k ≠ .chip) : sameCellsExcept as m m' := fun b hb => (h b hb).resolve_right fun hc => hk hc.1

/-- A canonical bank lists 7-bit addresses only (R70). -/
theorem Memory.read_of_wf {m : Memory} (h : m.wf = true) {n : Nat} (hn : 128 ≤ n) : m.read n = none := by
  rw [Memory.wf, Bool.and_eq_true, List.all_eq_true] at h
  refine List.lookup_eq_none_iff.2 fun x hx => ?_
  have hlt : x.1 < 128 := of_decide_eq_true (h.2 x hx)
  exact bne_iff_ne.2 (by omega)

/-- Canonical banks that read alike at every register are equal. -/
theorem Memory.eq_of_wf {m m' : Memory} (h : m.wf = true) (h' : m'.wf = true)
    (hr : ∀ a : RegAddr, m.read a.toNat = m'.read a.toNat) : m = m' := by
  have sorted {m : Memory} (h : m.wf = true) : m.Pairwise fun x y => x.1 < y.1 :=
    of_decide_eq_true (Bool.and_eq_true_iff.1 h).1
  refine Memory.ext (sorted h) (sorted h') fun n => ?_
  obtain hn | hn := Nat.lt_or_ge n 128
  · simpa [Nat.mod_eq_of_lt hn] using hr (BitVec.ofNat 7 n)
  · rw [Memory.read_of_wf h hn, Memory.read_of_wf h' hn]

/-- The same writes twice leave a SimBank as the first time did. -/
theorem memWrites_twice_cells {s : State} (h : s.quiet) (hwf : s.peerOk) (hk : s.peer.kind = .simBank)
    (ws : List (RegAddr × Word)) :
    (memWrites ws (memWrites ws s)).peer.cells = (memWrites ws s).peer.cells := by
  have hT := Txns.writes h ws
  have hok := (Kept.memWrites ws s).peerOk hwf
  have hok' := (Kept.memWrites ws (memWrites ws s)).peerOk hok
  refine Memory.eq_of_wf hok'.1 hok.1 fun a => ?_
  rw [memWrites_read_simBank hT.quiet (hT.kind.trans hk), memWrites_read_simBank h hk, lastWrite_lastWrite_same]

/-! ### configure -/

/-- The bus events of configure (R190, R198). -/
def configureEvents (c : Cfg) (p : ModemParameters) : List BusEvent :=
  (configureWrites c p).map fun w => .write w.1 w.2

theorem length_configureEvents (c : Cfg) (p : ModemParameters) :
    (configureEvents c p).length = 6 + (extraWrites c p).length := by
  rw [configureEvents, List.length_map, configureWrites, List.length_append]
  rfl

theorem configureWrites_addrs (c : Cfg) (p : ModemParameters) :
    (configureWrites c p).map Prod.fst = c.configureAddrs ++ (extraWrites c p).map Prod.fst := rfl

/-- The six registers of configure are distinct (R8). -/
theorem configureAddrs_nodup {c : Cfg} (h : c.wf = true) : c.configureAddrs.Nodup := by
  simp only [Cfg.wf, Bool.and_eq_true, decide_eq_true_eq] at h
  tauto

/-- The writes of configure extend the bus trace by its events and nothing else. -/
theorem configure_busTrace {s : State} (h : s.quiet) (p : ModemParameters) :
    (memWrites (configureWrites s.cfg p) s).busTrace = s.busTrace ++ configureEvents s.cfg p :=
  (Txns.writes h _).busTrace

/-- Settles O45: exec runs the writes of configure as one list, with the frame of any list of writes. -/
theorem configureWritesSixRegistersInOrder : Obligations.ConfigureWritesSixRegistersInOrder := by
  intro s p hs
  have hq := hs.quiet
  obtain ⟨hacc, henv, _⟩ := memWrites_frame hq (configureWrites s.cfg p)
  have hbus := configure_busTrace hq p
  rw [configureEvents, configureWrites, List.map_append, ← List.append_assoc] at hbus
  have hcells := memWrites_cells hq (configureWrites s.cfg p)
  rw [configureWrites_addrs] at hcells
  exact ⟨_, exec_configure hs.1 p, hbus, memWrites_linesIdle _ hs.linesIdle, hacc, henv,
    memWrites_sameOutsideLink _ s, hcells⟩

/-- Settles O46: the six addresses are distinct, so each register holds its own write, and the others are framed. -/
theorem configureReadsBackUnderSimBank : Obligations.ConfigureReadsBackUnderSimBank := by
  intro s p hs hk hx
  have hq := hs.quiet
  have haddrs : (configureWrites s.cfg p).map Prod.fst = s.cfg.configureAddrs := by
    rw [configureWrites_addrs, hx, List.map_nil, List.append_nil]
  have hreads {a : RegAddr} {v : Word} (h : (a, v) ∈ configureWrites s.cfg p) :
      (memWrites (configureWrites s.cfg p) s).peer.cells.read a.toNat = some v := by
    rw [memWrites_read_simBank hq hk]
    exact lastWrite_of_mem (haddrs ▸ configureAddrs_nodup hs.2.1) h _
  have hcells := memWrites_cells hq (configureWrites s.cfg p)
  rw [haddrs] at hcells
  refine ⟨_, exec_configure hs.1 p, hreads ?_, hreads ?_, hreads ?_, hreads ?_, hreads ?_, hreads ?_,
    hcells.sameCellsExcept (by simp [hk])⟩ <;> simp [configureWrites]

/-- Settles O47: the events are those of `configureWrites`, and the second call finds the same configuration. -/
theorem configureIsIdempotent : Obligations.ConfigureIsIdempotent := by
  refine ⟨configureEvents, fun s p hs => ⟨length_configureEvents s.cfg p, readCount_writes _, ?_⟩⟩
  have hq := hs.quiet
  have hT := Txns.writes hq (configureWrites s.cfg p)
  have hexec := exec_configure (hT.seq.trans hs.1) p
  have hbus := configure_busTrace hT.quiet p
  rw [hT.cfg] at hexec hbus
  exact ⟨_, _, exec_configure hs.1 p, hexec, configure_busTrace hq p, hbus,
    fun hk => memWrites_twice_cells hq hs.2.2.2 hk _⟩

end Sys2Proof.Machine
end

section
/-! transmit (R210 to R228): a call that is accepted sends steps 1 to 6 and comes to its first poll; a poll is one read and,
if its answer has the status bit, step 8. Runs of transmit are such polls one after another. -/

namespace Sys2Proof.Machine

/-! ### The preconditions (R211, R228) -/

theorem transmitAccepted_iff {c : Cfg} {p : Option ModemParameters} {payload : List Byte} :
    transmitAccepted c p payload = true ↔
      p.isSome = true ∧ 0 < payload.length ∧ payload.length ≤ c.maxPayload := by
  simp [transmitAccepted, and_assoc]

theorem exec_transmit_rejected {s : State} (h : s.seq = .idle) {p : Option ModemParameters} {payload : List Byte}
    (hr : transmitAccepted s.cfg p payload = false) : exec (.transmit p payload) s = .next s := by
  rw [exec_transmit_eq, hostCall_idle h, hr]
  rfl

/-- Settles O48: each of the three reasons fails one of transmit's preconditions. -/
theorem rejectedTransmitDoesNothing : Obligations.RejectedTransmitDoesNothing := by
  intro s p payload hq hr
  refine exec_transmit_rejected hq (Bool.eq_false_iff.2 fun ha => ?_)
  obtain ⟨hp, hpos, hmax⟩ := transmitAccepted_iff.1 ha
  obtain rfl | hempty | hlong := hr
  · cases hp
  · omega
  · omega

/-- Settles O55: the precondition asks only whether params is present, and no step reads params. -/
theorem transmitIgnoresTheParameters : Obligations.TransmitIgnoresTheParameters := fun _ _ _ _ => rfl

/-! ### Transactions, wherever `SEQ` stands -/

/-- `t` follows `s` by the transactions `evs`, wherever `SEQ` stands before and after them; the session and the outputs
are as before. -/
structure Sends (s t : State) (evs : List BusEvent) : Prop where
  txns    : Txns (moveSeq .idle s) (moveSeq .idle t) evs
  session : t.session = s.session
  output  : t.output = s.output

theorem moveSeq_moveSeq (q r : Seq) (s : State) : moveSeq q (moveSeq r s) = moveSeq q s := rfl

/-- Transactions do not depend on `SEQ`. -/
theorem Txns.moveSeq {s t : State} {evs : List BusEvent} (h : Txns s t evs) (q : Seq) :
    Txns (moveSeq q s) (moveSeq q t) evs :=
  ⟨h.bus, h.pins, h.quiet, h.cfg, h.shadow, rfl, h.calls, h.kind, h.bank⟩

theorem Sends.refl {s : State} (h : s.quiet) : Sends s s [] := ⟨(Txns.refl h).moveSeq .idle, rfl, rfl⟩

theorem Sends.trans {s t u : State} {xs ys : List BusEvent} (h1 : Sends s t xs) (h2 : Sends t u ys) :
    Sends s u (xs ++ ys) :=
  ⟨h1.txns.trans h2.txns, h2.session.trans h1.session, h2.output.trans h1.output⟩

section
variable {s t : State} {evs : List BusEvent} (h : Sends s t evs)
include h

theorem Sends.busTrace : t.busTrace = s.busTrace ++ evs := h.txns.busTrace

theorem Sends.pinTrace : t.pinTrace = s.pinTrace ++ evs.flatMap (BusEvent.pins s.cfg.readFlag) := h.txns.pinTrace

theorem Sends.quiet : t.quiet := h.txns.quiet

theorem Sends.cfg : t.cfg = s.cfg := h.txns.cfg

theorem Sends.shadow : t.gpioShadow = s.gpioShadow := h.txns.shadow

theorem Sends.calls : t.calls = s.calls := h.txns.calls

theorem Sends.kind : t.peer.kind = s.peer.kind := h.txns.kind

theorem Sends.template : t.template = s.template := (session_eq_iff.1 h.session).1

theorem Sends.savedMask : t.savedMask = s.savedMask := (session_eq_iff.1 h.session).2

theorem Sends.bank (hk : s.peer.kind = .simBank) (ha : s.env.answers = []) :
    t.env.answers = [] ∧ t.peer.cells = bankAfter s.peer.cells evs ∧ bankAnswers s.peer.cells evs := h.txns.bank hk ha

end

theorem Sends.memRead {s : State} (h : s.quiet) (a : RegAddr) : Sends s (memRead a s) [.read a (memRead a s).acc] :=
  have ⟨htemplate, hmask, _, houtput⟩ := memRead_outside a s
  ⟨(Txns.read h a).moveSeq .idle, session_eq_iff.2 ⟨htemplate, hmask⟩, houtput⟩

/-! ### A poll (R218, R219) -/

/-- The answer to the next poll. -/
def pollAnswer (s : State) : Word := (memRead s.cfg.addrStatus s).acc

/-- The state that a poll leads to, `polls` made before it. -/
def polled (polls : Nat) (s : State) : State := afterPoll polls (memRead s.cfg.addrStatus s)

/-- The bus events of step 8, which follows an answer `v` with the status bit (R219). -/
def finishEvents (c : Cfg) (template v : Word) : List BusEvent :=
  if statusDone c v then transmitSuffix c template else []

theorem Sends.afterPoll {s : State} (h : s.quiet) (polls : Nat) :
    Sends s (afterPoll polls s) (finishEvents s.cfg s.template s.acc) := by
  obtain ⟨_, _, _, _, houtput, _⟩ := afterPoll_spec polls h s.acc rfl
  refine ⟨?_, afterPoll_session polls s, houtput⟩
  unfold Machine.afterPoll finishEvents
  split
  · rw [finishTransmit, moveSeq_moveSeq]
    exact (Txns.writes h _).moveSeq .idle
  · exact (Txns.refl h).moveSeq .idle

section
variable {s : State} (h : s.quiet) (polls : Nat)
include h

/-- A poll is one read of the status register and step 8 if the answer has the status bit. -/
theorem polled_sends : Sends s (polled polls s)
    (.read s.cfg.addrStatus (pollAnswer s) :: finishEvents s.cfg s.template (pollAnswer s)) := by
  have hread := Sends.memRead h s.cfg.addrStatus
  have hfinish := Sends.afterPoll hread.quiet polls
  rw [hread.cfg, hread.template] at hfinish
  exact hread.trans hfinish

theorem polled_acc : (polled polls s).acc = pollAnswer s := by
  have hq := (Txns.read h s.cfg.addrStatus).quiet
  rw [polled, afterPoll]
  split
  · rw [finishTransmit, moveSeq_acc, (memWrites_frame hq _).1]
    rfl
  · rfl

theorem polled_env : (polled polls s).env = (memRead s.cfg.addrStatus s).env :=
  have ⟨_, _, _, _, _, henv, _⟩ := afterPoll_spec polls (Txns.read h s.cfg.addrStatus).quiet _ rfl
  henv

/-- A poll changes no register but the two of step 8, or the contract chip forgets. -/
theorem polled_cells : cellFrame s.peer.kind [s.cfg.addrStrobe, s.cfg.addrFskCtrl] s.peer.cells
    (polled polls s).peer.cells := by
  have hread := Txns.read h s.cfg.addrStatus
  obtain ⟨_, _, _, _, _, _, hcells, _⟩ := afterPoll_spec polls hread.quiet _ rfl
  rw [hread.cfg, hread.kind] at hcells
  exact ((memRead_cells h s.cfg.addrStatus).mono nofun).trans hcells

end

theorem polled_seq (polls : Nat) (s : State) : (polled polls s).seq =
    if statusDone s.cfg (pollAnswer s) then .idle else .transmitPoll (polls + 1) := by
  rw [polled, afterPoll_seq, (Kept.memRead _ s).cfg]
  rfl

theorem pollStatus_next {polls : Nat} {s : State} (hf : pollFuelUsed s.cfg polls = false) :
    pollStatus polls s = .next (polled polls s) := by
  rw [pollStatus, hf]
  rfl

/-- A peer on the bus answers what is read (R86 to R88). -/
theorem memRead_acc_of_present {s : State} (h : s.quiet) (a : RegAddr) (hk : s.peer.kind ≠ .absent) :
    (memRead a s).acc = (answerRead s.cfg s.peer.kind s.peer.cells a s.env).1 := by
  rw [memRead_acc h, readValue, if_neg hk]

/-- Between two polls the lines are idle (R48). -/
theorem State.Inv.quiet_of_polling {s : State} (h : s.Inv) {polls : Nat} (hq : s.seq = .transmitPoll polls) : s.quiet :=
  h.quiet ((seqOk_polling hq).1 h.2.1)

/-- Settles O50: the poll's transactions, and where `SEQ` stands after them. -/
theorem pollRepeatsUntilTheStatusBit : Obligations.PollRepeatsUntilTheStatusBit := by
  intro s k hs hq hf
  have hquiet := hs.quiet_of_polling hq
  have hsends := polled_sends hquiet k
  exact ⟨polled k s, pollAnswer s, _, (step_of_polling hq).trans (pollStatus_next hf), rfl, hsends.busTrace,
    hsends.pinTrace, polled_seq k s, memRead_acc_of_present hquiet s.cfg.addrStatus, hsends.quiet.1, hsends.cfg,
    hsends.shadow, hsends.template, hsends.savedMask, hsends.calls, hsends.output, polled_cells hquiet k⟩

theorem pollFuelUsed_some {c : Cfg} {limit : Nat} (h : c.pollLimit = some limit) (polls : Nat) :
    pollFuelUsed c polls = decide (limit ≤ polls) := by
  simp [pollFuelUsed, h]

theorem pollFuelUsed_none {c : Cfg} (h : c.pollLimit = none) (polls : Nat) : pollFuelUsed c polls = false := by
  simp [pollFuelUsed, h]

/-- The first poll has fuel, unless the limit allows none. -/
theorem pollFuelUsed_first {c : Cfg} (h : c.pollLimit ≠ some 0) : pollFuelUsed c 0 = false := by
  cases hl : c.pollLimit with
  | none => exact pollFuelUsed_none hl 0
  | some limit =>
    have hpos : ¬ limit ≤ 0 := fun hz => h (by rw [hl, Nat.le_zero.1 hz])
    exact (pollFuelUsed_some hl 0).trans (decide_eq_false hpos)

theorem pollStatus_fault {polls : Nat} {s : State} (hf : pollFuelUsed s.cfg polls = true) :
    pollStatus polls s = .fault .pollLimitReached := by
  rw [pollStatus, if_pos hf]

/-- A transmit that runs pin by pin stops before the first pin event of a poll without fuel (R225). -/
theorem pinStep_fault {p : Option ModemParameters} {payload : List Byte} {piece : Piece} {polls : Nat} {s : State}
    (hf : pollFuelUsed s.cfg polls = true) :
    pinStep (.transmit p payload) ⟨pollStep payload, piece, 0, polls⟩ s = .fault .pollLimitReached := by
  simp [pinStep, isPoll, hf]

/-- Settles O54: the fuel is used up exactly when the limit is at most the polls made. -/
theorem finitePollLimitIsFuel : Obligations.FinitePollLimitIsFuel := by
  refine ⟨fun s k limit hq hl => ⟨fun hle => ?_, fun hlt => ?_⟩, fun s p payload piece k limit hq hl hle => ?_⟩
  · exact (step_of_polling hq).trans (pollStatus_fault ((pollFuelUsed_some hl k).trans (decide_eq_true hle)))
  · exact (step_of_polling hq).trans
      (pollStatus_next ((pollFuelUsed_some hl k).trans (decide_eq_false (Nat.not_le.2 hlt))))
  · simp only [step, hq]
    exact pinStep_fault ((pollFuelUsed_some hl k).trans (decide_eq_true hle))

/-! ### The call (R221) -/

/-- Settles O49: steps 1 to 6, then a poll that finds their template in the session. -/
theorem acceptedTransmitRunsItsSteps : Obligations.AcceptedTransmitRunsItsSteps := by
  intro s p payload hs hlimit hpos hmax
  obtain ⟨r, hstart, hresidual, htemplate, hsent⟩ := startTransmit_spec payload hs.quiet
  have hexec := exec_transmit hs.1 (p := some p) (transmitAccepted_iff.2 ⟨rfl, hpos, hmax⟩)
  generalize startTransmit payload s = u at *
  have hf : pollFuelUsed u.cfg 0 = false := hstart.cfg ▸ pollFuelUsed_first hlimit
  have hpoll := polled_sends hstart.quiet 0
  have hframe := polled_cells hstart.quiet 0
  have hseq := polled_seq 0 u
  rw [hstart.cfg] at hpoll hframe hseq
  rw [hstart.kind] at hframe
  refine ⟨polled 0 u, r, pollAnswer u, hexec.trans (pollStatus_next hf), ?_, hseq, hresidual, fun hk => ?_,
    hpoll.quiet.1, hpoll.cfg.trans hstart.cfg, hpoll.shadow.trans hstart.shadow, hpoll.calls.trans hstart.calls,
    hpoll.output.trans hsent.output, (hsent.cells.mono ?_).trans (hframe.mono ?_)⟩
  · rw [hpoll.busTrace, hstart.busTrace, hpoll.template, hpoll.savedMask, List.append_assoc _ [_]]
    rfl
  · rw [hpoll.template, htemplate, readValue, if_neg hk]
  · simp
  · simp

/-! ### Polls one after another (R218, R224) -/

/-- `t` follows `s`, which stands in step 7 with `polls` made, by polls answered `vs` that did not end transmit. -/
structure PollsOn (polls : Nat) (s t : State) (vs : List Word) : Prop where
  run   : runSteps vs.length s = some t
  seq   : t.seq = .transmitPoll (polls + vs.length)
  sends : Sends s t (vs.map (.read s.cfg.addrStatus))

theorem PollsOn.refl {polls : Nat} {s : State} (h : s.quiet) (hq : s.seq = .transmitPoll polls) :
    PollsOn polls s s [] := ⟨rfl, hq, .refl h⟩

theorem step_of_polling_next {polls : Nat} {s : State} (hq : s.seq = .transmitPoll polls)
    (hf : pollFuelUsed s.cfg polls = false) : step s = .next (polled polls s) :=
  (step_of_polling hq).trans (pollStatus_next hf)

theorem runSteps_succ_of_last {n : Nat} {s t u : State} (h : runSteps n s = some t) (hu : step t = .next u) :
    runSteps (n + 1) s = some u := by
  rw [runSteps_add h, runSteps_succ_of_next hu, runSteps_zero]

/-- A poll whose answer lacks the status bit is one read and nothing else. -/
theorem polled_sends_read {s : State} (h : s.quiet) (polls : Nat) (hv : statusDone s.cfg (pollAnswer s) = false) :
    Sends s (polled polls s) [.read s.cfg.addrStatus (pollAnswer s)] := by
  have hsends := polled_sends h polls
  rwa [finishEvents, hv] at hsends

theorem polled_seq_of_not_done {s : State} (polls : Nat) (hv : statusDone s.cfg (pollAnswer s) = false) :
    (polled polls s).seq = .transmitPoll (polls + 1) := by
  rw [polled_seq, hv]
  rfl

theorem PollsOn.snoc {polls : Nat} {s t : State} {vs : List Word} (h : PollsOn polls s t vs)
    (hf : pollFuelUsed s.cfg (polls + vs.length) = false) (hv : statusDone s.cfg (pollAnswer t) = false) :
    PollsOn polls s (polled (polls + vs.length) t) (vs ++ [pollAnswer t]) := by
  have hcfg := h.sends.cfg
  rw [← hcfg] at hf hv
  have hsends := polled_sends_read h.sends.quiet (polls + vs.length) hv
  rw [hcfg] at hsends
  refine ⟨?_, ?_, ?_⟩
  · rw [List.length_append]
    exact runSteps_succ_of_last h.run (step_of_polling_next h.seq hf)
  · rw [List.length_append]
    exact polled_seq_of_not_done _ hv
  · rw [List.map_append]
    exact h.sends.trans hsends

/-- While no answer has the status bit transmit polls on. -/
theorem exists_pollsOn {s : State} {polls : Nat} (h : s.quiet) (hq : s.seq = .transmitPoll polls)
    (hl : s.cfg.pollLimit = none) (n : Nat)
    (hv : ∀ m < n, ∀ t, runSteps (m + 1) s = some t → statusDone s.cfg t.acc = false) :
    ∃ t vs, vs.length = n ∧ PollsOn polls s t vs := by
  induction n with
  | zero => exact ⟨s, [], rfl, .refl h hq⟩
  | succ n ih =>
    obtain ⟨t, vs, rfl, hrun⟩ := ih fun m hm => hv m (by omega)
    have hf := pollFuelUsed_none hl (polls + vs.length)
    have hstep := step_of_polling_next hrun.seq (hrun.sends.cfg ▸ hf)
    have hacc := hv vs.length (Nat.lt_succ_self _) _ (runSteps_succ_of_last hrun.run hstep)
    rw [polled_acc hrun.sends.quiet] at hacc
    exact ⟨_, _, List.length_append, hrun.snoc hf hacc⟩

/-- Reads leave a SimBank as it is, and each is answered with its cell (R86). -/
theorem bankAfter_reads (m : Memory) (a : RegAddr) (vs : List Word) : bankAfter m (vs.map (.read a)) = m := by
  induction vs with
  | nil => rfl
  | cons v vs ih => exact ih

theorem eq_replicate_of_bankAnswers {m : Memory} {a : RegAddr} {vs : List Word}
    (h : bankAnswers m (vs.map (.read a))) : vs = List.replicate vs.length (bankCell m a) := by
  induction vs with
  | nil => rfl
  | cons v vs ih =>
    obtain ⟨hv, hvs⟩ := h
    exact congrArg₂ List.cons hv (ih hvs)

/-- Under SimBank with nothing scripted each poll answers the status cell, for ever (R86). -/
theorem exists_pollsOn_simBank {s : State} {polls : Nat} (h : s.quiet) (hq : s.seq = .transmitPoll polls)
    (hl : s.cfg.pollLimit = none) (hk : s.peer.kind = .simBank) (ha : s.env.answers = [])
    (hv : statusDone s.cfg (bankCell s.peer.cells s.cfg.addrStatus) = false) (n : Nat) :
    ∃ t vs, vs.length = n ∧ PollsOn polls s t vs := by
  induction n with
  | zero => exact ⟨s, [], rfl, .refl h hq⟩
  | succ n ih =>
    obtain ⟨t, vs, rfl, hrun⟩ := ih
    obtain ⟨hanswers, hcells, _⟩ := hrun.sends.bank hk ha
    rw [bankAfter_reads] at hcells
    have hanswer : pollAnswer t = bankCell s.peer.cells s.cfg.addrStatus := by
      rw [pollAnswer, memRead_acc_simBank hrun.sends.quiet (hrun.sends.kind.trans hk) (by rw [hanswers]; rfl), hcells,
        hrun.sends.cfg]
    exact ⟨_, _, List.length_append, hrun.snoc (pollFuelUsed_none hl _) (hanswer ▸ hv)⟩

/-- Settles O53: the polls one by one, each without the status bit, by what is assumed of their answers or by the cell. -/
theorem transmitHangsWithoutCompletion : Obligations.TransmitHangsWithoutCompletion := by
  refine ⟨fun s k n hs hq hl hv => ?_, fun s k n hs hq hl hk ha hv => ?_⟩
  · obtain ⟨t, vs, rfl, hrun⟩ := exists_pollsOn (hs.quiet_of_polling hq) hq hl n hv
    have hf := pollFuelUsed_none (hrun.sends.cfg ▸ hl) (k + vs.length)
    exact ⟨t, vs, hrun.run, hrun.seq, rfl, hrun.sends.busTrace, hrun.sends.quiet.1, hrun.sends.calls, _,
      step_of_polling_next hrun.seq hf⟩
  · obtain ⟨t, vs, rfl, hrun⟩ := exists_pollsOn_simBank (hs.quiet_of_polling hq) hq hl hk ha hv n
    obtain ⟨_, hcells, hanswers⟩ := hrun.sends.bank hk ha
    refine ⟨t, hrun.run, hrun.seq, ?_, hcells.trans (bankAfter_reads _ _ _)⟩
    have hbus : t.bus = (vs.map (.read s.cfg.addrStatus)).reverse ++ s.bus := hrun.sends.txns.bus
    rw [hbus, eq_replicate_of_bankAnswers hanswers, List.map_replicate, List.reverse_replicate, List.length_replicate]

/-! ### Runs to the return (R220, R222) -/

/-- With no call left a machine that is idle stays as it is (R10). -/
theorem runSteps_idle {s t : State} (hq : s.seq = .idle) (hc : s.calls = []) {n : Nat} (h : runSteps n s = some t) :
    t = s := by
  induction n with
  | zero => exact (Option.some.inj h).symm
  | succ n ih =>
    rw [runSteps_succ_of_next ((step_eq_issueCall (.inl hq)).trans (issueCall_nil hc))] at h
    exact ih h

/-- The bus events of polls answered `vs`, the last of them with the status bit, and of step 8 (R218, R219). -/
def pollEvents (c : Cfg) (template : Word) (vs : List Word) : List BusEvent :=
  vs.map (.read c.addrStatus) ++ transmitSuffix c template

/-- A poll whose answer has the status bit ends transmit. -/
theorem polled_sends_done {s : State} (h : s.quiet) (polls : Nat) (hv : statusDone s.cfg (pollAnswer s) = true) :
    Sends s (polled polls s) (pollEvents s.cfg s.template [pollAnswer s]) := by
  have hsends := polled_sends h polls
  rwa [finishEvents, hv] at hsends

/-- Only an answer with the status bit ends transmit. -/
theorem statusDone_of_polled_idle {polls : Nat} {s : State} (h : (polled polls s).seq = .idle) :
    statusDone s.cfg (pollAnswer s) = true := by
  by_contra hv
  rw [polled_seq_of_not_done polls (Bool.eq_false_of_not_eq_true hv)] at h
  cases h

/-- Polls after one that did not end transmit. -/
theorem Sends.cons_poll {s u t : State} {v : Word} {vs : List Word} (h : Sends s u [.read s.cfg.addrStatus v])
    (hrest : Sends u t (pollEvents s.cfg u.template vs)) : Sends s t (pollEvents s.cfg s.template (v :: vs)) := by
  rw [h.template] at hrest
  exact h.trans hrest

/-- A run that starts with a poll and ends idle, with no call to follow, was polls and then step 8. -/
theorem sends_of_run_to_idle {c : Cfg} {n polls : Nat} {s u t : State} (h : s.quiet) (hcfg : s.cfg = c)
    (hc : s.calls = []) (hu : pollStatus polls s = .next u) (hrun : runSteps n u = some t) (ht : t.seq = .idle) :
    ∃ vs, Sends s t (pollEvents c s.template vs) := by
  obtain rfl : u = polled polls s := of_pollStatus_next hu
  induction n generalizing polls s with
  | zero =>
    subst hcfg
    obtain rfl := Option.some.inj hrun
    exact ⟨_, polled_sends_done h polls (statusDone_of_polled_idle ht)⟩
  | succ n ih =>
    subst hcfg
    cases hv : statusDone s.cfg (pollAnswer s) with
    | true =>
      have hsends := polled_sends_done h polls hv
      obtain rfl := runSteps_idle ((polled_seq polls s).trans (if_pos hv)) (hsends.calls.trans hc) hrun
      exact ⟨_, hsends⟩
    | false =>
      have hread := polled_sends_read h polls hv
      obtain ⟨w, hw, hrun⟩ := of_runSteps_succ hrun
      have hw := (step_of_polling (polled_seq_of_not_done polls hv)).symm.trans hw
      obtain rfl : w = polled (polls + 1) (polled polls s) := of_pollStatus_next hw
      obtain ⟨vs, hrest⟩ := ih hread.quiet hread.cfg (hread.calls.trans hc) hw hrun
      exact ⟨_, hread.cons_poll hrest⟩

/-- Under SimBank a poll takes the first scripted answer, if that is for the status register. -/
theorem poll_scripted {s : State} (h : s.quiet) (hk : s.peer.kind = .simBank) {v : Word} {rest : List (RegAddr × Word)}
    (ha : s.env.answers = (s.cfg.addrStatus, v) :: rest) (polls : Nat) :
    pollAnswer s = v ∧ (polled polls s).env.answers = rest := by
  have htake : takeAnswer s.cfg.addrStatus s.env.answers = some (v, rest) := by rw [ha, takeAnswer, if_pos rfl]
  rw [pollAnswer, polled_env h, memRead_acc h, memRead_env h]
  simp [readValue, envAfterRead, hk, answerRead, htake]

/-- Under SimBank polls take a script for the status register answer by answer, to the first one with the status bit. -/
theorem run_of_script {c : Cfg} {polls : Nat} {s : State} {vs : List Word} {last : Word} (h : s.quiet) (hc : s.cfg = c)
    (hl : c.pollLimit = none) (hk : s.peer.kind = .simBank)
    (ha : s.env.answers = (vs ++ [last]).map fun v => (c.addrStatus, v))
    (hvs : ∀ v ∈ vs, statusDone c v = false) (hlast : statusDone c last = true) :
    ∃ u t, pollStatus polls s = .next u ∧ runSteps vs.length u = some t ∧ t.seq = .idle ∧ t.env.answers = [] ∧
      Sends s t (pollEvents c s.template (vs ++ [last])) := by
  induction vs generalizing polls s with
  | nil =>
    subst hc
    obtain ⟨hanswer, henv⟩ := poll_scripted h hk ha polls
    have hdone : statusDone s.cfg (pollAnswer s) = true := hanswer.symm ▸ hlast
    exact ⟨_, _, pollStatus_next (pollFuelUsed_none hl polls), rfl, (polled_seq polls s).trans (if_pos hdone), henv,
      hanswer ▸ polled_sends_done h polls hdone⟩
  | cons v vs ih =>
    subst hc
    obtain ⟨hanswer, henv⟩ := poll_scripted h hk ha polls
    obtain ⟨hv, hvs⟩ := List.forall_mem_cons.1 hvs
    rw [← hanswer] at hv
    have hread := polled_sends_read h polls hv
    obtain ⟨u, t, hu, hrun, ht, hanswers, hrest⟩ := ih (polls := polls + 1) hread.quiet hread.cfg (hread.kind.trans hk)
      henv hvs
    have hnext := (step_of_polling (polled_seq_of_not_done polls hv)).trans hu
    exact ⟨_, t, pollStatus_next (pollFuelUsed_none hl polls), (runSteps_succ_of_next hnext).trans hrun, ht, hanswers,
      (hanswer ▸ hread).cons_poll hrest⟩

/-! ### The whole of transmit (R220, R222) -/

/-- The bus events of a transmit that returns: steps 1 to 6, polls answered `vs`, step 8 (R221). -/
def transmitEvents (c : Cfg) (payload : List Byte) (template mask : Word) (r : Byte) (vs : List Word) : List BusEvent :=
  transmitPrefix c payload template mask r ++ pollEvents c template vs

/-- The host's last call has been taken off the list. -/
def lastCallTaken (s : State) : State := { s with calls := [] }

/-- The step that issues an accepted transmit, the host's only call, is steps 1 to 6 and the first poll (R221). -/
theorem step_transmit {s : State} {p : ModemParameters} {payload : List Byte} (hq : s.seq = .idle)
    (hpos : 0 < payload.length) (hmax : payload.length ≤ s.cfg.maxPayload)
    (hc : s.calls = [.named (.transmit (some p) payload)]) :
    step s = pollStatus 0 (startTransmit payload (lastCallTaken s)) :=
  (step_eq_issueCall (.inl hq)).trans ((issueCall_named hc).trans
    (exec_transmit (s := lastCallTaken s) hq (transmitAccepted_iff.2 ⟨rfl, hpos, hmax⟩)))

/-- Steps 1 to 6 and then polls to the return. -/
theorem returned_of_polls {s t : State} {payload : List Byte} {vs : List Word} (h : s.quiet)
    (hpolls : Sends (startTransmit payload (lastCallTaken s)) t
      (pollEvents s.cfg (startTransmit payload (lastCallTaken s)).template vs)) :
    ∃ r, t.busTrace = s.busTrace ++ transmitEvents s.cfg payload t.template t.savedMask r vs ∧ t.quiet ∧
      t.gpioShadow = s.gpioShadow ∧ t.output = s.output := by
  obtain ⟨r, hstart, _, _, hsent⟩ := startTransmit_spec payload (s := lastCallTaken s) h
  refine ⟨r, ?_, hpolls.quiet, hpolls.shadow.trans hstart.shadow, hpolls.output.trans hsent.output⟩
  rw [hpolls.busTrace, hstart.busTrace, hpolls.template, hpolls.savedMask, List.append_assoc]
  rfl

theorem count_reads (a : RegAddr) (vs : List Word) :
    writeCount (vs.map (.read a)) = 0 ∧ readCount (vs.map (.read a)) = vs.length := by
  induction vs with
  | nil => exact ⟨rfl, rfl⟩
  | cons v vs ih => exact ⟨ih.1, by rw [List.map_cons, readCount, ih.2, List.length_cons, Nat.add_comm]⟩

/-- A transmit of n bytes that returns after k polls makes 7 + ceil(n/2) writes and 2 + k reads (R222). -/
theorem count_transmitEvents (c : Cfg) (payload : List Byte) (template mask : Word) (r : Byte) (vs : List Word) :
    writeCount (transmitEvents c payload template mask r vs) = 7 + (payload.length + 1) / 2 ∧
    readCount (transmitEvents c payload template mask r vs) = 2 + vs.length := by
  obtain ⟨hfifoWrites, hfifoReads⟩ := count_fifoWords c.addrFskFifo r payload
  obtain ⟨hpollWrites, hpollReads⟩ := count_reads c.addrStatus vs
  constructor
  · simp only [transmitEvents, transmitPrefix, pollEvents, transmitSuffix, writeCount_append, writeCount, hfifoWrites,
      hpollWrites]
    omega
  · simp only [transmitEvents, transmitPrefix, pollEvents, transmitSuffix, readCount_append, readCount, hfifoReads,
      hpollReads]
    omega

theorem lastWrite_reads (a b : RegAddr) (o : Option Word) (vs : List Word) :
    lastWrite a o (vs.map (.read b)) = o := lastWrite_of_notMem (by simp) o

/-- The six registers of transmit are distinct (R8). -/
theorem transmitAddrs_nodup {c : Cfg} (h : c.wf = true) : c.transmitAddrs.Nodup := by
  simp only [Cfg.wf, Bool.and_eq_true, decide_eq_true_eq] at h
  tauto

/-- What a transmit that returns wrote last to each of its registers (R220 (a) to (d)). -/
theorem lastWrite_transmitEvents {c : Cfg} (h : c.wf = true) (before : List BusEvent) (payload : List Byte)
    (template mask : Word) (r : Byte) (vs : List Word) :
    lastWrite c.addrFskCtrl none (before ++ transmitEvents c payload template mask r vs) = some template ∧
    lastWrite c.addrIntMask none (before ++ transmitEvents c payload template mask r vs) = some c.intTxFinished ∧
    lastWrite c.addrFskLen none (before ++ transmitEvents c payload template mask r vs) =
      some (lenWord c payload.length) ∧
    lastWrite c.addrStrobe none (before ++ transmitEvents c payload template mask r vs) = some c.strobeClearValue := by
  have hn := transmitAddrs_nodup h
  simp only [Cfg.transmitAddrs, List.nodup_cons, List.mem_cons, List.not_mem_nil, or_false, not_or] at hn
  obtain ⟨⟨hctrlLen, -, hctrlMask, -, hctrlStrobe⟩, ⟨hlenFifo, hlenMask, -, hlenStrobe⟩, -,
    ⟨-, hmaskStrobe⟩, -⟩ := hn
  simp [transmitEvents, transmitPrefix, pollEvents, transmitSuffix, lastWrite_append, lastWrite, lastWrite_reads,
    lastWrite_fifoWords, hctrlLen, hctrlMask, hctrlStrobe, Ne.symm hlenFifo, Ne.symm hlenMask,
    Ne.symm hlenStrobe, Ne.symm hmaskStrobe]

/-- Settles O52: the first step is steps 1 to 6 and a poll, the run is polls from there, and the last writes are those of
the events that it sends. -/
theorem transmitPostconditions : Obligations.TransmitPostconditions := by
  intro s p payload k t hs hpos hmax hc hrun ht
  obtain ⟨_, hstart, _⟩ := startTransmit_spec payload (s := lastCallTaken s) hs.quiet
  obtain ⟨u, hu, hrun⟩ := of_runSteps_succ hrun
  have hfirst := (step_transmit hs.1 hpos hmax hc).symm.trans hu
  obtain ⟨vs, hpolls⟩ := sends_of_run_to_idle (c := s.cfg) hstart.quiet hstart.cfg hstart.calls hfirst hrun ht
  obtain ⟨r, hbus, hquiet, hshadow, houtput⟩ := returned_of_polls hs.quiet hpolls
  obtain ⟨hctrl, hmask, hlen, hstrobe⟩ :=
    lastWrite_transmitEvents hs.2.1 s.busTrace payload t.template t.savedMask r vs
  rw [← hbus] at hctrl hmask hlen hstrobe
  exact ⟨⟨_, hbus⟩, hctrl, hmask, hlen, hstrobe, hshadow, hquiet.1, houtput⟩

/-- Under SimBank steps 1 to 6 leave a script for the status register as it is (R8). -/
theorem startTransmit_script (payload : List Byte) {s : State} (h : s.quiet) (hk : s.peer.kind = .simBank)
    {vs : List Word} (ha : s.env.answers = vs.map fun v => (s.cfg.addrStatus, v)) :
    (startTransmit payload s).env.answers = s.env.answers := by
  have hn := transmitAddrs_nodup h.2.2
  simp only [Cfg.transmitAddrs, List.nodup_cons, List.mem_cons, List.not_mem_nil, or_false, not_or] at hn
  obtain ⟨⟨-, -, -, hctrl, -⟩, -, -, ⟨hmask, -⟩, -⟩ := hn
  have hscript : ∀ x ∈ s.env.answers, x.1 = s.cfg.addrStatus := by simp [ha]
  exact startTransmit_answers payload h hk (takeAnswer_of_ne hctrl hscript) (takeAnswer_of_ne hmask hscript)

/-- Settles O51: steps 1 to 6 leave the script to the polls, each of which takes one answer of it. -/
theorem transmitReturnsWhenTheChipCompletes : Obligations.TransmitReturnsWhenTheChipCompletes := by
  intro s p payload vs last hs hl hpos hmax hk hc ha hvs hlast
  obtain ⟨_, hstart, _⟩ := startTransmit_spec payload (s := lastCallTaken s) hs.quiet
  have hanswers := startTransmit_script payload (s := lastCallTaken s) hs.quiet hk ha
  obtain ⟨u, t, hu, hrun, ht, hused, hpolls⟩ := run_of_script (c := s.cfg) (polls := 0) hstart.quiet hstart.cfg hl
    (hstart.kind.trans hk) (hanswers.trans ha) hvs hlast
  obtain ⟨r, hbus, hquiet, hshadow, _⟩ := returned_of_polls hs.quiet hpolls
  obtain ⟨hwrites, hreads⟩ := count_transmitEvents s.cfg payload t.template t.savedMask r (vs ++ [last])
  have hfirst := (step_transmit hs.1 hpos hmax hc).trans hu
  refine ⟨t, (runSteps_succ_of_next hfirst).trans hrun, ht, hquiet.1, ?_, ?_, hused, hshadow⟩
  · rw [hbus, writeCount_append, hwrites]
  · rw [hbus, readCount_append, hreads, List.length_append, List.length_singleton]

end Sys2Proof.Machine
end

section
/-! The exceptional cases (R240, R246, R256): which calls are refused and by which name, and that every other call of the
host answers a next state, but a transmit that may not poll at all. -/

namespace Sys2Proof.Machine

/-! ### Calls while `SEQ` is not idle (R246) -/

/-- A host-level operation starts from idle alone (R256). -/
theorem mayStart_hostLevel {i : Instr} (hi : isHostLevel i = true) {q : Seq} : mayStart q i = true ↔ q = .idle := by
  simp [mayStart, hi, hostMayCall]

/-- Settles O27: transmit is a `hostCall`, and every other operation runs where it may start, which is at idle. -/
theorem reentrantCallsAreRefused : Obligations.ReentrantCallsAreRefused := by
  intro i s hi hq
  obtain ⟨p, payload, rfl⟩ | hne := transmit_or i
  · rw [exec_transmit_eq, hostCall_busy hq]
  · rw [exec_eq_ops hne, if_neg fun hm => hq ((mayStart_hostLevel hi).1 hm)]

/-! ### Operands outside the typed domain (R76, R116, R171, R182, R185) -/

theorem addressOperand_of_lt {a : Nat} (h : a < 128) : addressOperand a = .ok (BitVec.ofNatLT a h) :=
  addressOperand_toNat (BitVec.ofNatLT a h)

theorem addressOperand_of_le {a : Nat} (h : 128 ≤ a) : addressOperand a = .error .addressOutOfRange := by
  simp [addressOperand, wfAddress, h]

theorem valueOperand_of_lt {v : Nat} (h : v < 65536) : valueOperand v = .ok (BitVec.ofNatLT v h) :=
  valueOperand_toNat (BitVec.ofNatLT v h)

theorem valueOperand_of_le {v : Nat} (h : 65536 ≤ v) : valueOperand v = .error .valueOutOfRange := by
  simp [valueOperand, wfValue, h]

theorem pinOperand_of_lookup_none {c : Cfg} {p : Nat} (h : c.pinBit.lookup p = none) :
    pinOperand c p = .error .pinOutsideTable := by
  rw [pinOperand, h]

/-- The pulse flags in the typed domain are the sixteen one-bit words, as numbers (R182). -/
theorem wfFlag_iff {f : Nat} : wfFlag f = true ↔ ∃ k : Fin 16, f = 2 ^ k.val := by
  constructor
  · intro h
    obtain ⟨hlt, hhot⟩ := Bool.and_eq_true_iff.1 h
    obtain ⟨i, hi, hf⟩ := List.any_eq_true.1 hhot
    have hnat := congrArg BitVec.toNat (beq_iff_eq.1 hf)
    rw [BitVec.toNat_ofNat, Nat.mod_eq_of_lt (of_decide_eq_true hlt)] at hnat
    exact ⟨⟨i, List.mem_range.1 hi⟩, hnat.trans (toNat_oneHot ⟨i, List.mem_range.1 hi⟩).1⟩
  · rintro ⟨k, rfl⟩
    revert k
    decide

theorem flagOperand_of_not_oneHot {f : Nat} (h : ∀ i < 16, f ≠ 2 ^ i) : flagOperand f = .error .flagNotOneHot :=
  if_neg fun hwf => have ⟨k, hk⟩ := wfFlag_iff.1 hwf; h k k.isLt hk

theorem rangeOperand_of_outside {lo hi : Nat} (h : 128 ≤ lo ∨ 128 ≤ hi) :
    rangeOperand lo hi = .error .addressOutOfRange := by
  have hwf : ¬ (lo < 128 ∧ hi < 128) := by omega
  simp only [rangeOperand, wfAddress, ← Bool.decide_and, decide_eq_false hwf, Bool.not_false, if_true]

theorem rangeOperand_of_lt {lo hi : Nat} (h1 : lo < 128) (h2 : hi < 128) (h : hi < lo) :
    rangeOperand lo hi = .error .emptyRange := by
  simp [rangeOperand, wfAddress, h1, h2, h]

/-! ### The operations with operands to check, from an idle `SEQ` -/

section
variable {s : State} (h : s.seq = .idle)
include h

theorem exec_writeRegister_idle (a v : Nat) : exec (.writeRegister a v) s =
    withOperand (addressOperand a) fun x => withOperand (valueOperand v) fun w => .next (memWrite x w s) := by
  simp only [exec, execWriteRegister, hostCall_idle h]

theorem exec_readRegister_idle (a : Nat) : exec (.readRegister a) s =
    withOperand (addressOperand a) fun x => .next (giveHost (.value (memRead x s).acc) (memRead x s)) := by
  simp only [exec, execReadRegister, hostCall_idle h]

theorem exec_setOutputPin_idle (p : Nat) (x : Bool) : exec (.setOutputPin p x) s =
    withOperand (pinOperand s.cfg p) fun b => .next (writeShadow (updateShadow b x s)) := by
  simp only [exec, execSetOutputPin, hostCall_idle h]

theorem exec_pulseWrite_idle (a b f : Nat) : exec (.pulseWrite a b f) s =
    withOperand (addressOperand a) fun x => withOperand (valueOperand b) fun v =>
      withOperand (flagOperand f) fun w => .next (memWrites [(x, v ||| w), (x, v &&& ~~~w)] s) := by
  simp only [exec, execPulseWrite, hostCall_idle h]

theorem exec_dump_idle (lo hi : Nat) : exec (.readRegisterDiagnosticDump lo hi) s =
    withOperand (rangeOperand lo hi) fun as => .next (dumpAll as s) := by
  simp only [exec, execReadRegisterDiagnosticDump, hostCall_idle h]

end

/-- Settles O26: the first operand outside its domain refuses the call, by its own name. -/
theorem callsOutsideTheDomainAreRefused : Obligations.CallsOutsideTheDomainAreRefused := by
  intro s hq
  refine ⟨?address, ?readAddress, ?pulseAddress, ?dumpAddress, ?value, ?base, ?pin, ?flag, ?range⟩
  case address =>
    intro a v ha
    rw [exec_writeRegister_idle hq, addressOperand_of_le ha, withOperand_error]
  case readAddress =>
    intro a ha
    rw [exec_readRegister_idle hq, addressOperand_of_le ha, withOperand_error]
  case pulseAddress =>
    intro a b f ha
    rw [exec_pulseWrite_idle hq, addressOperand_of_le ha, withOperand_error]
  case dumpAddress =>
    intro lo hi h
    rw [exec_dump_idle hq, rangeOperand_of_outside h, withOperand_error]
  case value =>
    intro a v ha hv
    rw [exec_writeRegister_idle hq, addressOperand_of_lt ha, withOperand_ok, valueOperand_of_le hv, withOperand_error]
  case base =>
    intro a b f ha hb
    rw [exec_pulseWrite_idle hq, addressOperand_of_lt ha, withOperand_ok, valueOperand_of_le hb, withOperand_error]
  case pin =>
    intro p x hp
    rw [exec_setOutputPin_idle hq, pinOperand_of_lookup_none hp, withOperand_error]
  case flag =>
    intro a b f ha hb hf
    rw [exec_pulseWrite_idle hq, addressOperand_of_lt ha, withOperand_ok, valueOperand_of_lt hb, withOperand_ok,
      flagOperand_of_not_oneHot hf, withOperand_error]
  case range =>
    intro lo hi hlo hhi hlt
    rw [exec_dump_idle hq, rangeOperand_of_lt hlo hhi hlt, withOperand_error]

/-! ### Calls in the typed domain (R240) -/

section
variable {s : State} (hq : s.seq = .idle)
include hq

theorem exec_writeRegister_completes {a v : Nat} (h : (wfAddress a && wfValue v) = true) :
    ∃ t, exec (.writeRegister a v) s = .next t := by
  obtain ⟨ha, hv⟩ := Bool.and_eq_true_iff.1 h
  exact ⟨_, exec_writeRegister hq (BitVec.ofNatLT a (of_decide_eq_true ha)) (BitVec.ofNatLT v (of_decide_eq_true hv))⟩

theorem exec_readRegister_completes {a : Nat} (ha : wfAddress a = true) : ∃ t, exec (.readRegister a) s = .next t :=
  ⟨_, exec_readRegister hq (BitVec.ofNatLT a (of_decide_eq_true ha))⟩

/-- A transmit that is rejected does nothing (R211), and one that is accepted comes to its first poll, for which there is
fuel (R221, R225). -/
theorem exec_transmit_completes (hl : s.cfg.pollLimit ≠ some 0) (p : Option ModemParameters) (payload : List Byte) :
    ∃ t, exec (.transmit p payload) s = .next t := by
  cases ha : transmitAccepted s.cfg p payload with
  | false => exact ⟨s, exec_transmit_rejected hq ha⟩
  | true =>
    rw [← (Kept.startTransmit payload s).cfg] at hl
    exact ⟨_, (exec_transmit hq ha).trans (pollStatus_next (pollFuelUsed_first hl))⟩

end

/-- Settles O28: in its typed domain each operation's equation gives the state that it answers. -/
theorem wellFormedCallsComplete : Obligations.WellFormedCallsComplete := by
  intro i s hi hq hwf hl
  cases i
  case txnBegin | shiftOut8 | shiftOut16 | shiftIn16 | txnEnd => cases hi
  case writeRegister a v => exact exec_writeRegister_completes hq hwf
  case readRegister a => exact exec_readRegister_completes hq hwf
  case regWrite n v =>
    rw [(passThroughNamesAreTheOperations n v s).1]
    exact exec_writeRegister_completes hq hwf
  case regRead n =>
    rw [(passThroughNamesAreTheOperations n 0 s).2]
    exact exec_readRegister_completes hq hwf
  case setOutputPin p x =>
    obtain ⟨b, hb⟩ := Option.isSome_iff_exists.1 hwf
    exact ⟨_, exec_setOutputPin hq hb x⟩
  case pulseWrite a b f =>
    obtain ⟨hab, hf⟩ := Bool.and_eq_true_iff.1 hwf
    obtain ⟨ha, hb⟩ := Bool.and_eq_true_iff.1 hab
    obtain ⟨k, rfl⟩ := wfFlag_iff.1 hf
    exact ⟨_, exec_pulseWrite hq (BitVec.ofNatLT a (of_decide_eq_true ha)) (BitVec.ofNatLT b (of_decide_eq_true hb)) k⟩
  case readRegisterDiagnosticDump lo last =>
    obtain ⟨haddr, hle⟩ := Bool.and_eq_true_iff.1 hwf
    obtain ⟨_, hlast⟩ := Bool.and_eq_true_iff.1 haddr
    exact ⟨_, exec_dump hq (of_decide_eq_true hle) (of_decide_eq_true hlast)⟩
  case configure ps => exact ⟨_, exec_configure hq ps⟩
  case transmit p payload => exact exec_transmit_completes hq hl p payload

end Sys2Proof.Machine
end

section
/-! The state after reset (R271 to R273), part by part. -/

namespace Sys2Proof.Machine

/-! ### Reset -/

theorem resetOf_linesIdle (c : Cfg) : (State.resetOf c).linesIdle := ⟨rfl, rfl, rfl, rfl⟩

@[simp] theorem resetOf_gpioShadow (c : Cfg) : (State.resetOf c).gpioShadow = c.gpioShadowInit := rfl

@[simp] theorem resetOf_bus (c : Cfg) : (State.resetOf c).bus = [] := rfl

@[simp] theorem resetOf_pins (c : Cfg) : (State.resetOf c).pins = [] := rfl

@[simp] theorem resetOf_seq (c : Cfg) : (State.resetOf c).seq = .idle := rfl

/-- Settles O1: the lines (R271), the shadow and the bus (R272) and `SEQ` (R273), each as reset leaves it. -/
theorem resetLeavesIdleLinesAndInitialShadow : Obligations.ResetLeavesIdleLinesAndInitialShadow := fun c =>
  ⟨resetOf_linesIdle c, resetOf_gpioShadow c, resetOf_bus c, resetOf_pins c, resetOf_seq c⟩

end Sys2Proof.Machine
end
